-- ==== Sys2Proof/Word.lean ====
section
/-! DEFINITION. The widths the spec gives: a byte (00_scope R9), the 12-bit `offset` and the 4-bit
`length` field of a match token (30_encoding R64), the 3-bit token counter (10_state R28), the 1-bit
command code (R72). Indices, lengths and capacities have the width `AW` that the spec leaves OPEN
(R7) and are unbounded naturals (assumption 1). -/

namespace Sys2Proof

/-- A byte: 8 bits, unsigned, bit 0 least significant (R9). -/
abbrev Byte := BitVec 8

/-- The `offset` field of a match token: distance minus one, 12 bits (R64, R65). -/
abbrev Offset := BitVec 12

/-- The `length` field of a match token: 4 bits, no bias (R64, R65). -/
abbrev Length := BitVec 4

/-- The index `k` of a token within its group: 3 bits, 0 to 7, wrapping (R28). -/
abbrev Count := BitVec 3

/-- The host command code `OP`: 1 bit (R72). -/
abbrev OpCode := BitVec 1

/-- The two address spaces (R34). -/
inductive Space where
  /-- the input buffer, read-only to the core -/
  | inBuf
  /-- the output buffer -/
  | outBuf
  deriving DecidableEq, Repr

end Sys2Proof
end

