-- ==== Sys2Proof/Config.lean ====
section
/-! DEFINITION. The parameters of the step relation (00_scope R5 to R8, 92_eei_decisions, table of open
parameters), with the values of this hardware, and the values the spec leaves free. -/

namespace Sys2Proof

/-- `WINDOW_POLICY` (R8, R129, R130). -/
inductive WindowPolicy where
  /-- shrink the window by the exact overflow: this hardware (R129) -/
  | exact
  /-- the inherited formula, recorded by R130, not the behaviour of this hardware -/
  | inherited
  deriving DecidableEq, Repr

/-- The parameters that the spec asks a model to take as arguments (R6, R7, R8, R164, D15, D21).
The default of every field is this hardware's value. -/
structure Config where
  /-- `WINDOW_SIZE` (R6) -/
  windowSize   : Nat := 4096
  /-- `MAX_SEQ_SIZE` (R6) -/
  maxSeqSize   : Nat := 15
  /-- `MIN_MATCH` (R6) -/
  minMatch     : Nat := 3
  /-- `WINDOW_POLICY` (R8) -/
  windowPolicy : WindowPolicy := .exact
  /-- `STRICT_LENGTH` (R164): off in this hardware -/
  strictLength : Bool := false
  /-- `AW` (R7): `none` is the spec's "unbounded naturals" (assumption 1) -/
  aw           : Option Nat := none
  /-- `IN_BASE`, OPEN (R34, R47): `none` is a space of its own (assumption 2) -/
  inBase       : Option Nat := none
  /-- `OUT_BASE`, OPEN (R34, R47) -/
  outBase      : Option Nat := none
  deriving DecidableEq, Repr

/-- The parameters of this hardware (R6, R8). -/
def Config.hardware : Config := {}

/-- The valid ranges of the tunable constants (R6). A premise of claims: no step checks it, and outside the
ranges the machine runs on by the rules as written (DESIGN CHOICE, unsafe there; assumption 24). -/
abbrev Config.valid (c : Config) : Prop :=
  1 ≤ c.windowSize ∧ c.windowSize ≤ 4096 ∧
  1 ≤ c.minMatch ∧ c.minMatch ≤ c.maxSeqSize ∧ c.maxSeqSize ≤ 15

/-- `GROUP_SIZE` (R5). -/
def Config.groupSize : Nat := 8

/-- `TAIL_RESERVE` (R8, D4): the last input byte is never part of a match. -/
def Config.tailReserve : Nat := 1

/-- `EAGER_CTRL` (R8, D7): the next control byte is opened with the 8th token. -/
def Config.eagerCtrl : Bool := true

/-- FREE VALUE. What a byte holds that nothing has defined: the contents of IN and OUT after reset
(R37), OUT at and above `OUT_LEN` (R204, V1), all of OUT after a fault (R190, U5). It depends on the
space, on a number that State advances whenever such contents are set anew, and on the index. -/
opaque Config.unspecifiedByte : Space → Nat → Nat → Byte

/-- FREE VALUE. An index to which the spec gives no value (`mp` in an iteration without a search,
R123), for the `k`-th such value drawn. -/
opaque Config.unspecifiedIndex : Nat → Nat

end Sys2Proof
end

