-- ==== Sys2Proof/Syntax.lean ====
section
/-! DEFINITION. The instructions: one constructor per row of spec/opcode_table.json (30_encoding R77). -/

namespace Sys2Proof

/-- The six rows of the opcode table. -/
inductive Instr where
  /-- `LIT`, format T1 (R63): the literal token with payload byte `c`. -/
  | lit (c : Byte)
  /-- `MATCH`, format T3 (R64): the match token with trailing byte `c`, `offset` and `length`. -/
  | matchTok (c : Byte) (offset : Offset) (length : Length)
  /-- `CTRL`, format G (R62): the control byte; bit `k` is `mk`. -/
  | ctrl (m : Byte)
  /-- `ENCODE`, format H (R72): the host command `OP = 0`. -/
  | encode
  /-- `DECODE`, format H (R72): the host command `OP = 1`. -/
  | decode
  /-- `FIND_PREFIX`, format U (R80): the Match Finder's operation with its four input ports. -/
  | findPrefix (windowStart windowEnd seqStart seqEnd : Nat)
  deriving DecidableEq, Repr

/-- The two token instructions of a stream (R60). -/
def Instr.isToken : Instr → Bool
  | .lit _ => true
  | .matchTok _ _ _ => true
  | .ctrl _ => false
  | .encode => false
  | .decode => false
  | .findPrefix _ _ _ _ => false

/-- The kind of a token: the control bit that selects it, 1 for a match (R62, R66). -/
def Instr.kind : Instr → Bool
  | .lit _ => false
  | .matchTok _ _ _ => true
  | .ctrl _ => false
  | .encode => false
  | .decode => false
  | .findPrefix _ _ _ _ => false

/-- How many bytes of the stream the instruction occupies (R61, R66); the host commands and
`FIND_PREFIX` are not stored in a stream (R72, R73). -/
def Instr.streamBytes : Instr → Nat
  | .lit _ => 1
  | .matchTok _ _ _ => 3
  | .ctrl _ => 1
  | .encode => 0
  | .decode => 0
  | .findPrefix _ _ _ _ => 0

/-- How many bytes of decoded data a token stands for (R76): 1, or `length` copied bytes and one
trailing byte. -/
def Instr.dataBytes : Instr → Nat
  | .lit _ => 1
  | .matchTok _ _ len => len.toNat + 1
  | .ctrl _ => 0
  | .encode => 0
  | .decode => 0
  | .findPrefix _ _ _ _ => 0

end Sys2Proof
end

