-- ==== Sys2Proof/WellFormed.lean ====
section
/-! DEFINITION. Which instruction terms are well formed: every field of an encoded instruction has
the width of its type, so only `FIND_PREFIX`, whose operands are ports and not bits, has a check of
its own, the caller's precondition of 40_match_finder R81. A second check, for a token at its place
in a stream, is the well-formedness of 30_encoding R70, which DECODE does not demand (R71, R164). -/

namespace Sys2Proof

/-- R81, the part that does not need `length(data)`: `window_start <= window_end <= seq_start <=
seq_end`. All other terms are well formed as they are (R62 to R64, R72). -/
def Instr.wellFormed : Instr → Bool
  | .lit _ => true
  | .matchTok _ _ _ => true
  | .ctrl _ => true
  | .encode => true
  | .decode => true
  | .findPrefix ws we ss se => decide (ws ≤ we) && decide (we ≤ ss) && decide (ss ≤ se)

/-- R70: what a match token of a well-formed stream satisfies when `wr` bytes are decoded before it:
`3 <= length`, and `offset + 1 <= wr`. (`length <= 15` and `offset < 4096` hold by width.) -/
def Instr.streamWellFormed (minMatch wr : Nat) : Instr → Bool
  | .lit _ => true
  | .matchTok _ off len => decide (minMatch ≤ len.toNat) && decide (off.toNat + 1 ≤ wr)
  | .ctrl _ => false
  | .encode => false
  | .decode => false
  | .findPrefix _ _ _ _ => false

/-- R70 over the tokens of a stream, in stream order. -/
def tokensWellFormed (minMatch : Nat) : Nat → List Instr → Bool
  | _, [] => true
  | wr, i :: is => i.streamWellFormed minMatch wr && tokensWellFormed minMatch (wr + i.dataBytes) is

end Sys2Proof
end

