-- ==== Sys2Proof/Decode.lean ====
section
/-! DEFINITION. Decoding (30_encoding): the bit fields of a token, what a selecting control bit and the
bytes after it decode to, the host command, whole streams; then the encoder, written from the same
tables, and the assembler's view of a stream (R74, R75). -/

namespace Sys2Proof

/-! ### Bit fields (R41, R65) -/

/-- `ctrl[k]`, bit `k` of a control byte, least significant bit first (R41, R105). -/
def controlBit (m : Byte) (k : Count) : Bool := m.getLsbD k.toNat

/-- `b1 = offset[11:4]` (R64, R65). -/
def packHigh (offset : Offset) : Byte := offset.extractLsb' 4 8

/-- `b2 = offset[3:0] ++ length[3:0]` (R64, R65). -/
def packLow (offset : Offset) (length : Length) : Byte := offset.extractLsb' 0 4 ++ length

/-- `offset = b1 ++ b2[7:4]` (R65). -/
def unpackOffset (b1 b2 : Byte) : Offset := b1 ++ b2.extractLsb' 4 4

/-- `length = b2[3:0]` (R65). -/
def unpackLength (b2 : Byte) : Length := b2.extractLsb' 0 4

/-! ### Decoding -/

/-- Why bytes are no instruction. -/
inductive DecodeError where
  /-- no byte is left: the end of the stream (R60, R152) -/
  | noToken
  /-- a match token's `b1` or `b2` lies at or beyond the end (R71, R106); the machine turns it into
  CorruptStream -/
  | cutMatch
  /-- bytes follow the instruction where it was to be decoded alone -/
  | trailingBytes
  deriving DecidableEq, Repr

/-- Format T1, selected by control bit 0 (R63). -/
def decodeLit (c : Byte) : Instr := .lit c

/-- Format T3, selected by control bit 1 (R64, R65). -/
def decodeMatch (c b1 b2 : Byte) : Instr := .matchTok c (unpackOffset b1 b2) (unpackLength b2)

/-- Format G, recognised by its position (R62). -/
def decodeControl (m : Byte) : Instr := .ctrl m

/-- Format H: `OP = 0` is ENCODE, `OP = 1` is DECODE (R72). -/
def decodeCommand (op : OpCode) : Instr := if op = 0 then .encode else .decode

/-- The token that stands at the head of the bytes when the group's control byte selects `sel`, and
the bytes after it (R66: only the control bit tells the length of a token). -/
def decodeToken (sel : Bool) : List Byte → Except DecodeError (Instr × List Byte)
  | [] => .error .noToken
  | c :: rest =>
    match sel, rest with
    | false, rest => .ok (decodeLit c, rest)
    | true, b1 :: b2 :: rest => .ok (decodeMatch c b1 b2, rest)
    | true, _ => .error .cutMatch

/-- The things that have an encoding, each at the place that makes it one (R72, R77). -/
inductive Encoded where
  /-- a token: the selecting control bit and the token's bytes in stream order -/
  | token (sel : Bool) (bytes : List Byte)
  /-- the first byte of a group -/
  | control (m : Byte)
  /-- the register `OP` at START -/
  | command (op : OpCode)
  deriving DecidableEq, Repr

/-- Decoding, total on any bytes at any place. -/
def decode : Encoded → Except DecodeError Instr
  | .token sel bytes =>
    match decodeToken sel bytes with
    | .ok (i, []) => .ok i
    | .ok (_, _ :: _) => .error .trailingBytes
    | .error e => .error e
  | .control m => .ok (decodeControl m)
  | .command op => .ok (decodeCommand op)

/-- Where a stream's decoder stands: `none` at a group boundary, else the group's control byte and
the index of the next token (R60, R61). -/
abbrev GroupState := Option (Byte × Count)

/-- After token `k`: the next token of the group, or the group boundary after the 8th (R107). -/
def nextInGroup (m : Byte) (k : Count) : GroupState := if k + 1 = 0 then none else some (m, k + 1)

/-- The instructions of a stream from a given place on, in stream order, control bytes included
(R60, R66, R67). -/
def decodeFrom : GroupState → List Byte → Except DecodeError (List Instr)
  | _, [] => .ok []
  | none, m :: rest => (decodeFrom (some (m, 0)) rest).map (decodeControl m :: ·)
  | some (m, k), c :: rest =>
    match controlBit m k, rest with
    | false, rest => (decodeFrom (nextInGroup m k) rest).map (decodeLit c :: ·)
    | true, b1 :: b2 :: rest => (decodeFrom (nextInGroup m k) rest).map (decodeMatch c b1 b2 :: ·)
    | true, _ => .error .cutMatch

/-- A whole stream (R60): the empty stream, or groups that each begin with a control byte. -/
def decodeStream (bytes : List Byte) : Except DecodeError (List Instr) := decodeFrom none bytes

/-! ### Encoding -/

/-- The encoding of an instruction. `FIND_PREFIX` has none (R73). -/
def encode : Instr → Option Encoded
  | .lit c => some (.token false [c])
  | .matchTok c offset length => some (.token true [c, packHigh offset, packLow offset length])
  | .ctrl m => some (.control m)
  | .encode => some (.command 0)
  | .decode => some (.command 1)
  | .findPrefix _ _ _ _ => none

/-- The bytes an instruction occupies in a stream (R60 to R64). -/
def streamEncoding : Instr → List Byte
  | .lit c => [c]
  | .matchTok c offset length => [c, packHigh offset, packLow offset length]
  | .ctrl m => [m]
  | .encode => []
  | .decode => []
  | .findPrefix _ _ _ _ => []

/-- The bytes of a listing: the bytes of its instructions in order (R74). -/
def encodeStream (is : List Instr) : List Byte := is.flatMap streamEncoding

/-- The control byte computed from a group's tokens, from token `k` on; unused bits 0 (R62, R69, R74). -/
def groupControl : Nat → List Instr → Byte
  | _, [] => 0
  | k, t :: ts => (if t.kind then (1 : Byte) <<< k else 0) ||| groupControl (k + 1) ts

/-- Groups of 8 tokens, each under its control byte; the last group has 0 to 7 tokens (R60, R61). -/
def groups : List Instr → List Instr
  | t0 :: t1 :: t2 :: t3 :: t4 :: t5 :: t6 :: t7 :: rest =>
    .ctrl (groupControl 0 [t0, t1, t2, t3, t4, t5, t6, t7])
      :: t0 :: t1 :: t2 :: t3 :: t4 :: t5 :: t6 :: t7 :: groups rest
  | short => .ctrl (groupControl 0 short) :: short

/-- The stream of a token list as ENC frames it: empty for no token, else groups with the trailing
empty control byte after a positive multiple of 8 tokens (R68, R76). -/
def assemble : List Instr → List Instr
  | [] => []
  | t :: ts => groups (t :: ts)

/-! ### The spec's own notation for streams (R74, R75) -/

/-- `MATCH dist=<d>, len=<l>, c=<b>` means `MATCH off=<d - 1>` (R75). -/
def matchDist (d : Nat) (length : Length) (c : Byte) : Instr :=
  .matchTok c (BitVec.ofNat 12 (d - 1)) length

/-- A run of `count` equal bytes, `2 <= count <= 17`: `LIT b`, `MATCH off=0, len=<count - 2>, c=b` (R75). -/
def runTokens (b : Byte) (count : Nat) : List Instr :=
  [.lit b, .matchTok b 0 (BitVec.ofNat 4 (count - 2))]

/-- `0xNN` (R74), with lower-case digits, a case R74 does not fix (DESIGN CHOICE; assumption 27). -/
def hexByte (b : Byte) : String :=
  "0x" ++ String.ofList [Nat.digitChar (b.toNat / 16), Nat.digitChar (b.toNat % 16)]

/-- The line a disassembler prints for an instruction of a stream (R74); the host commands and
`FIND_PREFIX` have none (R73). Of the two forms R74 gives a byte it prints `0xNN` always (DESIGN CHOICE;
assumption 27). -/
def listingLine : Instr → Option String
  | .lit c => some ("LIT " ++ hexByte c)
  | .matchTok c offset length =>
    some ("MATCH off=" ++ toString offset.toNat ++ ", len=" ++ toString length.toNat ++ ", c=" ++ hexByte c)
  | .ctrl m => some (".group ctrl=" ++ hexByte m)
  | .encode => none
  | .decode => none
  | .findPrefix _ _ _ _ => none

/-! ### The opcode table's virtual words (R77) -/

/-- The virtual word of an instruction and its width (R77): for a token the selecting control bit, then
the token's bytes in stream order, most significant first. `FIND_PREFIX` has no bits. -/
def virtualWord : Instr → Option (Nat × Nat)
  | .lit c => some (9, c.toNat)
  | .matchTok c offset length =>
    some (25, 2 ^ 24 + c.toNat * 2 ^ 16 + offset.toNat * 2 ^ 4 + length.toNat)
  | .ctrl m => some (8, m.toNat)
  | .encode => some (1, 0)
  | .decode => some (1, 1)
  | .findPrefix _ _ _ _ => none

/-- Bits `lo + 7` to `lo` of a virtual word. -/
def wordByte (w lo : Nat) : Byte := BitVec.ofNat 8 (w / 2 ^ lo)

/-- The place and bytes that a virtual word stands for (R77). The widths 1, 8, 9 and 25 tell a command, a
control byte, a literal token and a match token apart; every control byte has its word. -/
def tableWord (width w : Nat) : Option Encoded :=
  if width = 1 then
    if w < 2 then some (.command (BitVec.ofNat 1 w)) else none
  else if width = 8 then
    if w < 2 ^ 8 then some (.control (BitVec.ofNat 8 w)) else none
  else if width = 9 then
    if w < 2 ^ 8 then some (.token false [wordByte w 0]) else none
  else if width = 25 then
    if 2 ^ 24 ≤ w ∧ w < 2 ^ 25 then some (.token true [wordByte w 16, wordByte w 8, wordByte w 0])
    else none
  else none

/-- The table's width of a row whose width is given in whole bytes: 16 and 32 bits are the rows of 9 and
25; 8 bits are the rows of 1 bit and the row of 8 alike, and where only bit 0 is set at most they are read
as a command (assumption 3). -/
def tableWidth (nbits w : Nat) : Nat :=
  if nbits = 32 then 25
  else if nbits = 16 then 9
  else if nbits = 8 ∧ w < 2 then 1
  else nbits

/-- The instruction the decoder reads from a virtual word of the opcode table (R77), its width given as the
table gives it or in whole bytes. -/
def decodeTableWord (nbits w : Nat) : Option Instr :=
  match tableWord (tableWidth nbits w) w with
  | none => none
  | some e =>
    match decode e with
    | .ok i => some i
    | .error _ => none

end Sys2Proof
end

