-- ==== Sys2Proof/Machine/State.lean ====
section
/-! DEFINITION. The state of LZ77 CORE (10_state R20 to R36): the host interface registers, the working
registers, the contents of IN and OUT, and the model's own fields; the reasons a step can stop; the
state after reset (R37, R200). -/

namespace Sys2Proof.Machine

/-- The contents of a buffer: the bytes whose value is known, by rising index (assumption 4). -/
abbrev Memory := List Host.Cell

/-- `STATUS` (R26). -/
inductive Status where
  | ok
  | outputBufferExhausted
  | corruptStream
  /-- reserved, never produced (R183) -/
  | invalidInput
  deriving DecidableEq, Repr

/-- The host interface registers H0 to H7 (R20). -/
inductive IfReg where
  | op | inLen | outCap | start | busy | done | status | outLen
  deriving DecidableEq, Repr

/-- What the host can do between two steps of the sequencer (R202 to R206), or let the sequencer take
one (`run`). -/
inductive HostAction where
  /-- write a host interface register (R21 to R24) -/
  | write (r : IfReg) (v : Nat)
  /-- read a host interface register -/
  | read (r : IfReg)
  /-- provide an input buffer that holds these bytes from index 0 (R202 duty 1) -/
  | provideIn (bytes : List Byte)
  /-- provide an output buffer, whose prior contents do not matter (R202 duty 2) -/
  | provideOut
  /-- write one byte of IN -/
  | writeIn (a : Nat) (v : Byte)
  /-- read one byte of IN -/
  | readIn (a : Nat)
  /-- write one byte of OUT -/
  | writeOut (a : Nat) (v : Byte)
  /-- read one byte of OUT (R204) -/
  | readOut (a : Nat)
  /-- assert the hardware reset (R200) -/
  | reset
  /-- make no access, so that the sequencer takes one step (R11) -/
  | run
  deriving DecidableEq, Repr

/-- A stop at an access that the spec says cannot exist. Each is safe: the model stops where R54 gives
the access no meaning. -/
inductive Fault where
  /-- `MemRead(IN, a)` with `a >= n`, or `MemRead(OUT, a)` with `a >= wr` (R54); raised by every
  instruction that reads a buffer; safe -/
  | readOutside (space : Space) (a : Nat)
  /-- `MemWrite(OUT, a)` with `a >= cap` (R54); raised by the Framer's writes; safe -/
  | writeOutside (a : Nat)
  deriving DecidableEq, Repr

/-- A situation the spec gives no meaning (R12). Each is safe: the model stops where the spec refuses. -/
inductive Refusal where
  /-- an instruction without a meaning in this model; raised by the dispatch only; safe -/
  | notModelled (mnemonic : String)
  /-- the host writes `OP`, `IN_LEN`, `OUT_CAP`, IN or OUT, or reads OUT, while `BUSY = 1` (R206, V5);
  raised by the host interface, and by the platform's step for an IN that another block is reading; safe -/
  | hostDuringOperation
  /-- the host writes a read-only register H4 to H7; raised by the host interface; safe -/
  | readOnlyRegister (r : IfReg)
  /-- the host writes a 1-bit register with a bit above bit 0 set (V8); raised by the host interface; safe -/
  | upperBits (r : IfReg)
  /-- START with `IN_LEN` or `OUT_CAP` above `2^AW - 17` (R7, V6); raised by ENCODE and DECODE; safe -/
  | indexBound
  /-- START with buffers that share a physical byte (R48, V4); raised by ENCODE and DECODE; safe -/
  | buffersOverlap
  /-- an offset that 12 bits do not hold (R65, R130); raised by `ENC.CONSUME`; safe -/
  | offsetRange
  /-- the inherited window formula gives a window the source has no behaviour for (R130, U4); raised by
  `ENC.WINDOW` under `WINDOW_POLICY = inherited`; safe -/
  | windowUndefined
  /-- `STATUS` holds the reserved code 3 when the host reads it (U9); raised by the host interface; safe -/
  | reservedStatus
  /-- a block whose OUT is another block's too (R53, R195, U10); raised by the platform's step; safe -/
  | outputShared
  /-- a block or an input buffer that the platform does not have; raised by the platform's step; safe -/
  | absent
  deriving DecidableEq, Repr

/-- The state. The first group is R21 to R27, the second R28 to R31 and the output ports of R80, the
third R34, the fourth the model's own. -/
structure State where
  /-- H0 `OP` (R21) -/
  op            : OpCode
  /-- H1 `IN_LEN` (R22) -/
  inLen         : Nat
  /-- H2 `OUT_CAP` (R23) -/
  outCap        : Nat
  /-- H4 `BUSY` (R25) -/
  busy          : Bool
  /-- H5 `DONE` (R25) -/
  done          : Bool
  /-- H6 `STATUS` (R26) -/
  status        : Status
  /-- H7 `OUT_LEN` (R27) -/
  outLen        : Nat
  /-- the operation in flight: `OP` as START latched it (R24) -/
  opl           : OpCode
  /-- `n` (R28) -/
  n             : Nat
  /-- `cap` (R28) -/
  cap           : Nat
  /-- `wr` (R28) -/
  wr            : Nat
  /-- `cnt` (R28) -/
  cnt           : Count
  /-- `pos` (R29) -/
  pos           : Nat
  /-- `w_start` (R29) -/
  wStart        : Nat
  /-- `w_end` (R29) -/
  wEnd          : Nat
  /-- `ctrl_addr` (R29) -/
  ctrlAddr      : Nat
  /-- `ctrl_acc` (R29, R36) -/
  ctrlAcc       : Byte
  /-- `mp` (R29) -/
  mp            : Nat
  /-- `ml` (R29) -/
  ml            : Length
  /-- `is_match` (R29, R33) -/
  isMatch       : Bool
  /-- `offset` (R29, R30) -/
  offset        : Offset
  /-- `length` (R29, R30) -/
  length        : Length
  /-- `c` (R29, R30) -/
  c             : Byte
  /-- `rd` (R30, R32) -/
  rd            : Nat
  /-- `ctrl` (R30) -/
  ctrl          : Byte
  /-- `b1` (R30) -/
  b1            : Byte
  /-- `b2` (R30) -/
  b2            : Byte
  /-- `src` (R30) -/
  src           : Nat
  /-- `i` (R30) -/
  i             : Length
  /-- Match Finder `p` (R31) -/
  p             : Nat
  /-- Match Finder `k` (R31) -/
  k             : Length
  /-- Match Finder `best_pos` (R31) -/
  bestPos       : Nat
  /-- Match Finder `best_len` (R31) -/
  bestLen       : Length
  /-- Match Finder output port `match_position` (R80) -/
  matchPosition : Nat
  /-- Match Finder output port `match_length` (R80) -/
  matchLength   : Length
  /-- contents of IN (R34) -/
  inp           : Memory
  /-- contents of OUT (R34) -/
  out           : Memory
  /-- MODEL'S OWN: the parameters of the step relation, never written (R20; assumption 5) -/
  cfg           : Config
  /-- MODEL'S OWN: what the host does next, head first (assumption 6) -/
  host          : List HostAction
  /-- MODEL'S OWN: what the host's last read returned (assumption 6) -/
  hostData      : Nat
  /-- MODEL'S OWN: numbers the unspecified contents of IN (assumption 4) -/
  inFill        : Nat
  /-- MODEL'S OWN: numbers the unspecified contents of OUT (assumption 4) -/
  outFill       : Nat
  /-- MODEL'S OWN: how many unspecified indices have been drawn (assumption 7) -/
  drawn         : Nat
  deriving DecidableEq, Repr

/-- The machine right after a hardware reset at power-on (R37, R200): idle, every register 0, nothing
known of the buffers. The registers R37 leaves unspecified are 0 by assumption 8. -/
def State.reset : State where
  op := 0
  inLen := 0
  outCap := 0
  busy := false
  done := false
  status := .ok
  outLen := 0
  opl := 0
  n := 0
  cap := 0
  wr := 0
  cnt := 0
  pos := 0
  wStart := 0
  wEnd := 0
  ctrlAddr := 0
  ctrlAcc := 0
  mp := 0
  ml := 0
  isMatch := false
  offset := 0
  length := 0
  c := 0
  rd := 0
  ctrl := 0
  b1 := 0
  b2 := 0
  src := 0
  i := 0
  p := 0
  k := 0
  bestPos := 0
  bestLen := 0
  matchPosition := 0
  matchLength := 0
  inp := []
  out := []
  cfg := Config.hardware
  host := []
  hostData := 0
  inFill := 0
  outFill := 0
  drawn := 0

end Sys2Proof.Machine
end

