-- ==== Sys2Proof/Machine/Ops.lean ====
section
/-! DEFINITION. The named operations every meaning is written over: the buffers and the memory
primitives of 20_memory R54, the order of micro-operations, the start of an operation (R24), its end
(R131, R160), and `raise` (60_exceptions R186). A fault has no return (R189): the next START begins
a new operation. -/

namespace Sys2Proof.Machine

/-- What a step, a micro-operation or a meaning answers. -/
abbrev Result := Host.Outcome State Fault Refusal

/-! ### Buffers -/

/-- The byte a buffer is known to hold at an index. -/
def Memory.read : Memory → Nat → Option Byte
  | [], _ => none
  | (x, v) :: m, a => if x = a then some v else Memory.read m a

/-- Index `a` holds `v` afterwards. -/
def Memory.write : Memory → Nat → Byte → Memory
  | [], a, v => [(a, v)]
  | (x, w) :: m, a, v =>
    if a < x then (a, v) :: (x, w) :: m
    else if a = x then (a, v) :: m
    else (x, w) :: Memory.write m a v

/-- A buffer that holds the given bytes from index `a` on. -/
def Memory.ofBytes (a : Nat) : List Byte → Memory
  | [] => []
  | v :: vs => (a, v) :: Memory.ofBytes (a + 1) vs

/-- The canonical form: strictly rising indices. -/
def Memory.wf : Memory → Bool
  | [] => true
  | [_] => true
  | (x, _) :: (y, w) :: m => decide (x < y) && Memory.wf ((y, w) :: m)

/-- The byte at index `a` of IN; one that nothing has defined is a free value (assumption 4). -/
def State.inByte (s : State) (a : Nat) : Byte :=
  (s.inp.read a).getD (Config.unspecifiedByte .inBuf s.inFill a)

/-- The byte at index `a` of OUT; one that nothing has defined is a free value (assumption 4). -/
def State.outByte (s : State) (a : Nat) : Byte :=
  (s.out.read a).getD (Config.unspecifiedByte .outBuf s.outFill a)

/-! ### The memory primitives (R54) -/

/-- `MemRead(IN, a, 1)`, requires `a < n`. -/
def readIn (s : State) (a : Nat) : Except Fault Byte :=
  if a < s.n then .ok (s.inByte a) else .error (.readOutside .inBuf a)

/-- `MemRead(OUT, a, 1)`, requires `a < wr`. -/
def readOut (s : State) (a : Nat) : Except Fault Byte :=
  if a < s.wr then .ok (s.outByte a) else .error (.readOutside .outBuf a)

/-- Index `a` of OUT holds `v`. -/
def stored (s : State) (a : Nat) (v : Byte) : State := { s with out := s.out.write a v }

/-- OUT holds `v` at the write cursor, which passes it. -/
def appended (s : State) (v : Byte) : State := { s with out := s.out.write s.wr v, wr := s.wr + 1 }

/-- `MemWrite(OUT, a, 1, v)`, requires `a < cap`. `MemWrite(IN, …)` does not exist. -/
def writeOut (s : State) (a : Nat) (v : Byte) : Except Fault State :=
  if a < s.cap then .ok (stored s a v) else .error (.writeOutside a)

/-- `MemWrite(OUT, wr, 1, v) ; wr <- wr + 1`. -/
def append (s : State) (v : Byte) : Except Fault State :=
  if s.wr < s.cap then .ok (appended s v) else .error (.writeOutside s.wr)

/-! ### Order -/

/-- Go on with the value of an access, or stop with its fault. -/
def attempt {α : Type} (r : Except Fault α) (f : α → Result) : Result :=
  match r with
  | .ok x => f x
  | .error e => .fault e

/-- Go on from the next state. -/
def thenDo (o : Result) (f : State → Result) : Result :=
  match o with
  | .next s => f s
  | .fault e => .fault e
  | .refused r => .refused r

/-- Go on from the next state unless the operation in flight has just ended by a `raise`: nothing
after it in the rule is executed (R10, R186). -/
def unlessOver (o : Result) (f : State → Result) : Result :=
  thenDo o fun s => if s.busy then f s else .next s

/-- Micro-operations in the order written, as one step of the sequencer (R138, R166). -/
def inOrder : List (State → Result) → State → Result
  | [], s => .next s
  | f :: fs, s => unlessOver (f s) (inOrder fs)

/-! ### Start and end of an operation -/

/-- The state that `raise <Fault>` leaves (R186): the fault's code in `STATUS`, a result of length 0,
the operation over. The working registers, which V7 gives any value from here on, keep their last ones
(DESIGN CHOICE; assumption 26). -/
def raised (f : Status) (s : State) : State :=
  { s with status := f, outLen := 0, busy := false, done := true }

/-- `raise <Fault>` (R186). Nothing is saved and control goes nowhere. -/
def raise (f : Status) (s : State) : Result := .next (raised f s)

/-- The state that `ENC.FINISH` and `DEC.FINISH` leave (R131, R160). The working registers, which V7
gives any value from here on, keep their last ones (DESIGN CHOICE; assumption 26). -/
def finished (s : State) : State :=
  { s with outLen := s.wr, status := .ok, busy := false, done := true }

/-- What `ENC.FINISH` and `DEC.FINISH` do (R131, R160). -/
def finish (s : State) : Result := .next (finished s)

/-- What START does before `INIT` (R24): `BUSY <- 1`, `DONE <- 0`, and the latches. From here on the
contents of OUT that the operation does not write are unspecified anew (R204; assumption 4). -/
def latch (o : OpCode) (s : State) : State :=
  { s with busy := true, done := false, opl := o, n := s.inLen, cap := s.outCap,
           outFill := s.outFill + 1 }

/-- A length or capacity is within the bound of R7. -/
def withinBound (c : Config) (x : Nat) : Bool :=
  match c.aw with
  | none => true
  | some w => decide (x + 17 ≤ 2 ^ w)

/-- IN and OUT share no physical byte (R48). Where a base is open they are spaces of their own. -/
def buffersDisjoint (c : Config) (inLen outCap : Nat) : Bool :=
  match c.inBase, c.outBase with
  | some x, some y => decide (x + inLen ≤ y) || decide (y + outCap ≤ x) || decide (inLen = 0) || decide (outCap = 0)
  | _, _ => true

/-- START of operation `o` (R24): ignored while `BUSY = 1`; refused where launch premise P2 or P3 of
R203 does not hold; else the latches and `init`, in one step. -/
def start (o : OpCode) (init : State → Result) (s : State) : Result :=
  if s.busy then .next s
  else if !(withinBound s.cfg s.inLen && withinBound s.cfg s.outCap) then .refused .indexBound
  else if !buffersDisjoint s.cfg s.inLen s.outCap then .refused .buffersOverlap
  else init (latch o s)

/-- Hardware reset (R200): every register at its reset value, the buffers untouched; OUT is
unspecified anew when an operation was abandoned. The model's own fields are no registers. -/
def hardwareReset (s : State) : State :=
  { State.reset with
    inp := s.inp, out := s.out, cfg := s.cfg, host := s.host, hostData := s.hostData,
    inFill := s.inFill, outFill := if s.busy then s.outFill + 1 else s.outFill, drawn := s.drawn }

end Sys2Proof.Machine
end

