-- ==== Sys2Proof/Machine/Operands.lean ====
section
/-! DEFINITION. The operand forms: the input ports that `ENC.SEARCH` gives the Match Finder (R80, R123),
the offset and length of a match the Encoder takes (R124), the copy source of a match token (R156),
the registers as the host reads them (R21 to R27). The bit fields of tokens are in Sys2Proof.Decode. -/

namespace Sys2Proof.Machine

/-- Does this iteration search at all: `pos + 1 < n` (R123). -/
def searches (s : State) : Bool := decide (s.pos + Config.tailReserve < s.n)

/-- `seq_end = n - 2`: the last input byte is never part of a match (R123). -/
def sequenceEnd (s : State) : Nat := s.n - 1 - Config.tailReserve

/-- `offset = pos - match_position - 1` for a cursor before the advance (R124), where 12 bits hold it. -/
def matchOffset (pos mp : Nat) : Option Offset :=
  if mp + 1 ≤ pos ∧ pos - mp - 1 < 4096 then some (BitVec.ofNat 12 (pos - mp - 1)) else none

/-- `src = wr - offset - 1` (R156). -/
def copySource (wr : Nat) (offset : Offset) : Nat := wr - offset.toNat - 1

/-- A 1-bit value as the host reads it. -/
def bitValue (b : Bool) : Nat := if b then 1 else 0

end Sys2Proof.Machine
end

