-- ==== Sys2Proof/Machine/Flags.lean ====
section
/-! DEFINITION. The flag-like state of 10_state R33: the control bit that DEC tests (R105), the bit that
ENC sets (R101), the token size that `is_match` selects (R126), and the codes of `STATUS` (R26). -/

namespace Sys2Proof.Machine

/-- The code of `STATUS` (R26). -/
def Status.code : Status → BitVec 2
  | .ok => 0
  | .outputBufferExhausted => 1
  | .corruptStream => 2
  | .invalidInput => 3

/-- `FR.TEST`: the kind of the current token, 1 for a match (R105). -/
def frTest (s : State) : Bool := controlBit s.ctrl s.cnt

/-- `ctrl_acc | (1 << cnt)` (R101). -/
def markedControl (acc : Byte) (cnt : Count) : Byte := acc ||| ((1 : Byte) <<< cnt.toNat)

/-- `need`: 3 for a match token, 1 for a literal token (R126). -/
def tokenNeed (isMatch : Bool) : Nat := if isMatch then 3 else 1

end Sys2Proof.Machine
end

