-- ==== Sys2Proof/Machine/Framer.lean ====
section
/-! DEFINITION. The Bitstream Framer (41_framer): the encode side `FR.OPEN`, `FR.MARK`, `FR.PUT`,
`FR.NEXT_ENC`, and the decode side `FR.LOAD`, `FR.GET_MATCH`, `FR.NEXT_DEC`, with the meaning of the
control byte `CTRL`. `FR.TEST` is in Sys2Proof.Machine.Flags. -/

namespace Sys2Proof.Machine

/-! ### Encode side -/

/-- A control byte 0x00 at the write cursor, which passes it (R100). -/
def opened (s : State) : State :=
  { s with out := s.out.write s.wr 0, ctrlAddr := s.wr, ctrlAcc := 0, wr := s.wr + 1 }

/-- The current token's bit set in the running control byte, written through (R101). -/
def marked (s : State) : State :=
  { s with out := s.out.write s.ctrlAddr (markedControl s.ctrlAcc s.cnt),
           ctrlAcc := markedControl s.ctrlAcc s.cnt }

/-- `cnt <- (cnt + 1) mod 8` (R103, R107). -/
def counted (s : State) : State := { s with cnt := s.cnt + 1 }

/-- `m` is the group's control byte and `rd` has passed it (R104). -/
def loaded (m : Byte) (s : State) : State := { s with ctrl := m, rd := s.rd + 1 }

/-- The back-reference bytes fetched and unpacked (R106). -/
def gotMatch (b1 b2 : Byte) (s : State) : State :=
  { s with b1 := b1, b2 := b2, rd := s.rd + 2,
           offset := unpackOffset b1 b2, length := unpackLength b2 }

/-- `FR.OPEN` (R100). -/
def frOpen (s : State) : Result :=
  if s.wr + 1 > s.cap then raise .outputBufferExhausted s
  else
    attempt (writeOut s s.wr 0) fun _ => .next (opened s)

/-- `FR.MARK(is_match)` (R101). -/
def frMark (isMatch : Bool) (s : State) : Result :=
  if isMatch then
    attempt (writeOut s s.ctrlAddr (markedControl s.ctrlAcc s.cnt)) fun _ => .next (marked s)
  else .next s

/-- `FR.PUT(c, is_match, offset, length)` (R102). -/
def frPut (c : Byte) (isMatch : Bool) (offset : Offset) (length : Length) (s : State) : Result :=
  attempt (append s c) fun s =>
  if isMatch then
    attempt (append s (packHigh offset)) fun s =>
    attempt (append s (packLow offset length)) fun s =>
    .next s
  else .next s

/-- `FR.NEXT_ENC` (R103). -/
def frNextEnc (s : State) : Result :=
  if s.cnt + 1 = 0 ∧ Config.eagerCtrl then frOpen (counted s) else .next (counted s)

/-! ### Decode side -/

/-- `CTRL`, a control byte `m` taken from the stream (R62, R104): it becomes the control byte of the
group that starts here, and `rd` passes it. -/
def execCtrl (m : Byte) (s : State) : Result :=
  .next (loaded m s)

/-- `FR.LOAD` (R104): fetch the byte at `rd` and execute it as a control byte. -/
def frLoad (s : State) : Result :=
  attempt (readIn s s.rd) fun m => execCtrl m s

/-- `FR.GET_MATCH` (R106): CorruptStream when `b1` or `b2` is beyond the end of the stream. -/
def frGetMatch (s : State) (go : State → Result) : Result :=
  if s.rd + 2 > s.n then raise .corruptStream s
  else
    attempt (readIn s s.rd) fun b1 =>
    attempt (readIn s (s.rd + 1)) fun b2 =>
    go (gotMatch b1 b2 s)

/-- `FR.NEXT_DEC` (R107). -/
def frNextDec (s : State) : Result :=
  if s.cnt + 1 = 0 ∧ s.rd < s.n then frLoad (counted s) else .next (counted s)

end Sys2Proof.Machine
end

