-- ==== Sys2Proof/Machine/Decoder.lean ====
section
/-! DEFINITION. The Decoder (43_decoder): the command `DECODE`, the meanings of the tokens `LIT` and
`MATCH`, the fetch of a token and the end of one. -/

namespace Sys2Proof.Machine

/-- The start values of a DECODE (R38, R151). -/
def decStarted (s : State) : State := { s with rd := 0, wr := 0, cnt := 0 }

/-- `DEC.INIT` (R151). -/
def decInit (s : State) : Result :=
  if s.n > 0 then frLoad (decStarted s) else .next (decStarted s)

/-- `DECODE` (R150): the START step with `OP = 1` (R24). The rest of the operation is one `DEC.STEP`
per token and `DEC.FINISH`, taken by the sequencer. -/
def execDecode (s : State) : Result := start 1 decInit s

/-- `LIT` (R154). -/
def execLit (c : Byte) (s : State) : Result :=
  if s.wr + 1 > s.cap then raise .outputBufferExhausted s
  else attempt (append s c) fun s => .next s

/-- The copy counter advanced (R30, R157). -/
def copied (s : State) : State := { s with i := s.i + 1 }

/-- The copy source latched, the copy counter at 0 (R30, R156). -/
def copyReady (offset : Offset) (s : State) : State := { s with src := copySource s.wr offset, i := 0 }

/-- The copy loop of a match token (R157), with `remaining` bytes to go: byte by byte in increasing
order, each read after the previous write. `src` does not move, `i` counts. -/
def copyBytes : Nat → State → Result
  | 0, s => .next s
  | remaining + 1, s =>
    attempt (readOut s (s.src + s.i.toNat)) fun v =>
    attempt (append s v) fun s =>
    copyBytes remaining (copied s)

/-- `STRICT_LENGTH`, off in this hardware (R164). -/
def tooShort (cfg : Config) (length : Length) : Bool :=
  cfg.strictLength && decide (length.toNat < cfg.minMatch)

/-- `MATCH` with its fields fetched (R158): the guards in their order (R156, R164), the copy (R157),
then the trailing byte. -/
def execMatch (c : Byte) (offset : Offset) (length : Length) (s : State) : Result :=
  if offset.toNat + 1 > s.wr then raise .corruptStream s
  else if tooShort s.cfg length then raise .corruptStream s
  else if s.wr + length.toNat + 1 > s.cap then raise .outputBufferExhausted s
  else
    thenDo (copyBytes length.toNat (copyReady offset s)) fun s =>
    attempt (append s c) fun s => .next s

/-- The first byte of a token latched, `rd` past it (R153). -/
def fetched (c : Byte) (s : State) : State := { s with c := c, rd := s.rd + 1 }

/-- `DEC.FETCH` (R153), then for a match token `FR.GET_MATCH` (R155): the token at `rd` as the decoder
reads it, given to `go` with the state that has passed its bytes. -/
def fetchToken (s : State) (go : Instr → State → Result) : Result :=
  attempt (readIn s s.rd) fun c =>
  if frTest s then
    frGetMatch (fetched c s) fun t => go (decodeMatch c t.b1 t.b2) t
  else go (decodeLit c) (fetched c s)

/-- `DEC.GROUP` (R159). -/
def decGroup (s : State) : Result := frNextDec s

/-- `DEC.FINISH` (R160). -/
def decFinish (s : State) : Result := finish s

end Sys2Proof.Machine
end

