-- ==== Sys2Proof/Machine/MatchFinder.lean ====
section
/-! DEFINITION. The Match Finder (40_match_finder): `FIND_PREFIX`. -/

namespace Sys2Proof.Machine

/-- `run(p)` (R83), from run length `k` on, with `fuel` comparisons left up to the cap
`MAX_SEQ_SIZE`. -/
def runLength (s : State) (windowEnd seqStart seqEnd p : Nat) : Nat → Nat → Except Fault Nat
  | 0, k => .ok k
  | fuel + 1, k =>
    if p + k ≤ windowEnd ∧ seqStart + k ≤ seqEnd then
      match readIn s (p + k), readIn s (seqStart + k) with
      | .ok x, .ok y => if x = y then runLength s windowEnd seqStart seqEnd p fuel (k + 1) else .ok k
      | .error e, _ => .error e
      | .ok _, .error e => .error e
    else .ok k

/-- What the scan has found: the last candidate and its run, the best pair so far (R31). -/
structure Scan where
  p       : Nat
  k       : Nat
  bestPos : Nat
  bestLen : Nat
  deriving DecidableEq, Repr

/-- One candidate: a run that is greater than or equal to the best replaces it (R84). -/
def Scan.visit (b : Scan) (p k : Nat) : Scan :=
  if b.bestLen ≤ k then ⟨p, k, p, k⟩ else ⟨p, k, b.bestPos, b.bestLen⟩

/-- The scan of `count` candidates from `p` on, in increasing order (R82, R84). -/
def scan (s : State) (windowEnd seqStart seqEnd : Nat) : Nat → Nat → Scan → Except Fault Scan
  | 0, _, b => .ok b
  | count + 1, p, b =>
    match runLength s windowEnd seqStart seqEnd p s.cfg.maxSeqSize 0 with
    | .ok k => scan s windowEnd seqStart seqEnd count (p + 1) (b.visit p k)
    | .error e => .error e

/-- The reported length: 0 when the best run is below `MIN_MATCH` (R85). -/
def reportedLength (minMatch bestLen : Nat) : Nat := if bestLen < minMatch then 0 else bestLen

/-- The state with what the scan found in the unit's registers and output ports (R31, R80, R85). A run
above 15, which R6 rules out, would be cut to 4 bits (DESIGN CHOICE; assumption 24). -/
def found (b : Scan) (s : State) : State :=
  { s with
    p := b.p, k := BitVec.ofNat 4 b.k, bestPos := b.bestPos, bestLen := BitVec.ofNat 4 b.bestLen,
    matchPosition := b.bestPos,
    matchLength := BitVec.ofNat 4 (reportedLength s.cfg.minMatch b.bestLen) }

/-- `FIND_PREFIX` (R80 to R89): the best pair of the scan over the candidates `window_start` to
`window_end`, with the threshold. It writes its internal registers and its output ports, nothing
else (R88). Outside the precondition R81 it is the total extension of R89. -/
def execFindPrefix (windowStart windowEnd seqStart seqEnd : Nat) (s : State) : Result :=
  attempt (scan s windowEnd seqStart seqEnd (windowEnd + 1 - windowStart) windowStart
    ⟨s.p, s.k.toNat, windowStart, 0⟩) fun b => .next (found b s)

end Sys2Proof.Machine
end

