-- ==== Sys2Proof/Machine/Encoder.lean ====
section
/-! DEFINITION. The Encoder (42_encoder): the command `ENCODE` and its micro-operations. -/

namespace Sys2Proof.Machine

/-- The start values of an ENCODE (R38, R121). -/
def encStarted (s : State) : State := { s with pos := 0, wStart := 0, wEnd := 0, wr := 0, cnt := 0 }

/-- `ENC.INIT` (R121). -/
def encInit (s : State) : Result :=
  if s.n > 0 then frOpen (encStarted s) else .next (encStarted s)

/-- `ENCODE` (R120): the START step with `OP = 0` (R24). The rest of the operation is one `ENC.STEP`
per token and `ENC.FINISH`, taken by the sequencer. -/
def execEncode (s : State) : Result := start 0 encInit s

/-- `(mp, ml)` are the Match Finder's outputs (R123). -/
def searched (s : State) : State := { s with mp := s.matchPosition, ml := s.matchLength }

/-- `ml` is 0 and `mp` has no value (R123). -/
def notSearched (s : State) : State :=
  { s with ml := 0, mp := Config.unspecifiedIndex s.drawn, drawn := s.drawn + 1 }

/-- `ENC.SEARCH` (R123). Where no search is made `mp` has no value: a free one (assumption 7). -/
def encSearch (s : State) : Result :=
  if searches s then
    thenDo (execFindPrefix s.wStart s.wEnd s.pos (sequenceEnd s) s) fun s => .next (searched s)
  else .next (notSearched s)

/-- A match of `ml` bytes and its trailing byte `c` consumed (R124). -/
def consumedMatch (offset : Offset) (c : Byte) (s : State) : State :=
  { s with isMatch := true, offset := offset, length := s.ml, pos := s.pos + s.ml.toNat + 1, c := c }

/-- One byte `c` consumed (R125). -/
def consumedLiteral (c : Byte) (s : State) : State :=
  { s with isMatch := false, pos := s.pos + 1, c := c }

/-- `ENC.CONSUME`, match case (R124). -/
def encConsumeMatch (s : State) : Result :=
  match matchOffset s.pos s.mp with
  | none => .refused .offsetRange
  | some offset =>
    attempt (readIn s (s.pos + s.ml.toNat)) fun c => .next (consumedMatch offset c s)

/-- `ENC.CONSUME`, literal case (R125). -/
def encConsumeLiteral (s : State) : Result :=
  attempt (readIn s s.pos) fun c => .next (consumedLiteral c s)

/-- `ENC.CONSUME`: a match when `ml >= MIN_MATCH`, else a literal (R124, R125, R134). -/
def encConsume (s : State) : Result :=
  if s.cfg.minMatch ≤ s.ml.toNat then encConsumeMatch s else encConsumeLiteral s

/-- `ENC.CHECK` (R126). -/
def encCheck (s : State) : Result :=
  if s.wr + tokenNeed s.isMatch > s.cap then raise .outputBufferExhausted s else .next s

/-- `ENC.EMIT` (R127). -/
def encEmit (s : State) : Result :=
  thenDo (frMark s.isMatch s) fun s => frPut s.c s.isMatch s.offset s.length s

/-- `ENC.GROUP` (R128). -/
def encGroup (s : State) : Result := frNextEnc s

/-- `w_end <- pos - 1`, and `w_start <- w` (R129, R130). -/
def windowMoved (w : Nat) (s : State) : State := { s with wEnd := s.pos - 1, wStart := w }

/-- `w_start` under the exact policy (R129). -/
def exactWindowStart (windowSize wStart wEnd : Nat) : Nat :=
  if wEnd + 1 - wStart > windowSize then wEnd - (windowSize - 1) else wStart

/-- `w_start` that the inherited formula gives (R130), which may be negative. -/
def inheritedWindowStart (windowSize wStart wEnd mp : Nat) : Int :=
  (wStart : Int) + ((windowSize : Int) - ((wEnd : Int) - (mp : Int) + 1))

/-- No window that the source gives a behaviour for: it starts before index 0 or after its end, or is
above `WINDOW_SIZE` (R130, U4). -/
abbrev noWindow (windowSize : Nat) (w : Int) (wEnd : Nat) : Prop :=
  w < 0 ∨ (wEnd : Int) < w ∨ (windowSize : Int) < (wEnd : Int) - w + 1

/-- The window update of the inherited policy for a window above `WINDOW_SIZE` (R130). In an iteration
without a search the formula has no operand and its result is free (assumption 7). -/
def inheritedShrink (didSearch : Bool) (s : State) : Result :=
  if didSearch then
    if noWindow s.cfg.windowSize (inheritedWindowStart s.cfg.windowSize s.wStart (s.pos - 1) s.mp) (s.pos - 1)
    then .refused .windowUndefined
    else .next (windowMoved (inheritedWindowStart s.cfg.windowSize s.wStart (s.pos - 1) s.mp).toNat s)
  else .next { windowMoved (Config.unspecifiedIndex s.drawn) s with drawn := s.drawn + 1 }

/-- `ENC.WINDOW` (R129; R130 for the inherited policy). `didSearch` says whether this iteration made a
search. -/
def encWindow (didSearch : Bool) (s : State) : Result :=
  match s.cfg.windowPolicy with
  | .exact => .next (windowMoved (exactWindowStart s.cfg.windowSize s.wStart (s.pos - 1)) s)
  | .inherited =>
    if s.pos - 1 + 1 - s.wStart > s.cfg.windowSize then inheritedShrink didSearch s
    else .next (windowMoved s.wStart s)

/-- `ENC.STEP` (R138): one encoder iteration, which emits exactly one token. -/
def encStep (s : State) : Result :=
  inOrder [encSearch, encConsume, encCheck, encEmit, encGroup, encWindow (searches s)] s

/-- `ENC.FINISH` (R131). -/
def encFinish (s : State) : Result := finish s

/-- The sequencer in an ENCODE: an `ENC.STEP` while `pos < n` (R122), else `ENC.FINISH`. -/
def encAdvance (s : State) : Result := if s.pos < s.n then encStep s else encFinish s

end Sys2Proof.Machine
end

