-- ==== Sys2Proof/Machine/Dispatch.lean ====
section
/-! DEFINITION. One arm per instruction of spec/opcode_table.json. -/

namespace Sys2Proof.Machine

def exec (i : Instr) (s : State) : Host.Outcome State Fault Refusal :=
  match i with
  | .lit c => Sys2Proof.Machine.execLit c s
  | .matchTok c offset length => Sys2Proof.Machine.execMatch c offset length s
  | .ctrl m => Sys2Proof.Machine.execCtrl m s
  | .encode => Sys2Proof.Machine.execEncode s
  | .decode => Sys2Proof.Machine.execDecode s
  | .findPrefix ws we ss se => Sys2Proof.Machine.execFindPrefix ws we ss se s

end Sys2Proof.Machine
end

