-- ==== Sys2Proof/Machine/Interface.lean ====
section
/-! DEFINITION. The host interface (10_state R21 to R27, 70_reset R202 to R206): what each access of the
host does, except the write of `START`, which runs a command (Sys2Proof.Machine.Sequencer). -/

namespace Sys2Proof.Machine

/-- What the host reads from a register (10_state, table of section 2); `START` reads as 0. -/
def readRegister (s : State) : IfReg → Except Refusal Nat
  | .op => .ok s.op.toNat
  | .inLen => .ok s.inLen
  | .outCap => .ok s.outCap
  | .start => .ok 0
  | .busy => .ok (bitValue s.busy)
  | .done => .ok (bitValue s.done)
  | .status => if s.status = .invalidInput then .error .reservedStatus else .ok s.status.code.toNat
  | .outLen => .ok s.outLen

/-- A read of a register by the host. -/
def hostRead (r : IfReg) (s : State) : Result :=
  match readRegister s r with
  | .ok v => .next { s with hostData := v }
  | .error e => .refused e

/-- An access that has no meaning while `BUSY = 1` (R206, V5). -/
def whileIdle (s : State) (t : State) : Result :=
  if s.busy then .refused .hostDuringOperation else .next t

/-- A write of a register other than `START` by the host. -/
def hostWrite (r : IfReg) (v : Nat) (s : State) : Result :=
  match r with
  | .op => if v < 2 then whileIdle s { s with op := BitVec.ofNat 1 v } else .refused (.upperBits .op)
  | .inLen => whileIdle s { s with inLen := v }
  | .outCap => whileIdle s { s with outCap := v }
  | .start => .next s
  | .busy => .refused (.readOnlyRegister .busy)
  | .done => .refused (.readOnlyRegister .done)
  | .status => .refused (.readOnlyRegister .status)
  | .outLen => .refused (.readOnlyRegister .outLen)

/-- What the host reads at index `a` of OUT: the result below `OUT_LEN`; above it, and after a fault,
an unspecified byte (R204, R190). -/
def resultByte (s : State) (a : Nat) : Byte :=
  if a < s.outLen then s.outByte a else Config.unspecifiedByte .outBuf s.outFill a

/-- An access by the host other than the write of `START`. No index is out of its reach: the bounds of R47 are
the core's (DESIGN CHOICE; assumption 25). An access to one buffer leaves the other alone also where the given
bases overlap, which R48 gives no behaviour: only START looks at the bases (DESIGN CHOICE; assumption 2). -/
def hostAccess (a : HostAction) (s : State) : Result :=
  match a with
  | .write r v => hostWrite r v s
  | .read r => hostRead r s
  | .provideIn bytes => whileIdle s { s with inp := Memory.ofBytes 0 bytes, inFill := s.inFill + 1 }
  | .provideOut => whileIdle s { s with out := [], outFill := s.outFill + 1 }
  | .writeIn x v => whileIdle s { s with inp := s.inp.write x v }
  | .readIn x => .next { s with hostData := (s.inByte x).toNat }
  | .writeOut x v => whileIdle s { s with out := s.out.write x v }
  | .readOut x => whileIdle s { s with hostData := (resultByte s x).toNat }
  | .reset => .next (hardwareReset s)
  | .run => .next s

end Sys2Proof.Machine
end

