-- ==== Sys2Proof/Machine/Sequencer.lean ====
section
/-! DEFINITION. The sequencer (00_scope R11): what one step is in each situation, and the host's write
of `START`. -/

namespace Sys2Proof.Machine

/-- `DEC.STEP` (R166): fetch a token, execute it, then `DEC.GROUP` unless it raised a fault. -/
def decStep (s : State) : Result :=
  fetchToken s fun i t => unlessOver (exec i t) decGroup

/-- The sequencer in a DECODE: a `DEC.STEP` while `rd < n` (R152), else `DEC.FINISH`. -/
def decAdvance (s : State) : Result := if s.rd < s.n then decStep s else decFinish s

/-- One step of the sequencer (R11): of the operation in flight, or waiting for START when idle
(R201). -/
def sequencer (s : State) : Result :=
  if s.busy then
    if s.opl = 0 then encAdvance s else decAdvance s
  else .next s

/-- The host's write of `START` (R24): 1 runs the command that `OP` encodes, 0 does nothing. -/
def hostStart (v : Nat) (s : State) : Result :=
  if v = 0 then .next s
  else if v = 1 then exec (decodeCommand s.op) s
  else .refused (.upperBits .start)

/-- The next thing the host does. -/
def hostStep (a : HostAction) (s : State) : Result :=
  match a with
  | .write .start v => hostStart v s
  | .run => sequencer s
  | a => hostAccess a s

/-- One step of the machine: the host's next action where it has one, else the sequencer's. -/
def advance (s : State) : Result :=
  match s.host with
  | [] => sequencer s
  | a :: rest => hostStep a { s with host := rest }

/-! ### Where a program stands -/

/-- Place a token at `rd` of an operation in flight: its bytes, an input long enough to hold them, its
control bit. -/
def placeToken (sel : Bool) (bytes : List Byte) (s : State) : State :=
  { s with
    busy := true, opl := 1, host := .run :: s.host
    n := max s.n (s.rd + bytes.length)
    ctrl := if sel then markedControl s.ctrl s.cnt else s.ctrl &&& ~~~((1 : Byte) <<< s.cnt.toNat)
    inp := (List.range bytes.length).foldl (fun m k => m.write (s.rd + k) (bytes.getD k 0)) s.inp }

/-- Place a command: `OP`, and a host that writes `START` next. -/
def placeCommand (op : OpCode) (s : State) : State :=
  { s with op := op, busy := false, host := .write .start 1 :: s.host }

/-- Place an encoded thing where the machine fetches it next. A control byte is fetched by the START
step of a DECODE, as byte 0 of its stream (R151). -/
def place (e : Encoded) (s : State) : State :=
  match e with
  | .token sel bytes => placeToken sel bytes s
  | .control m => placeCommand 1 { s with inLen := max s.inLen 1, inp := s.inp.write 0 m }
  | .command op => placeCommand op s

/-- The state with a virtual word of the opcode table placed where the next step fetches it. -/
def placeTableWord (s : State) (nbits w : Nat) : State :=
  match tableWord (tableWidth nbits w) w with
  | some e => place e s
  | none => s

end Sys2Proof.Machine
end

