-- ==== Sys2Proof/Machine/Step.lean ====
section
/-! DEFINITION. One step of the machine, and the placing of an instruction where it is fetched. -/

namespace Sys2Proof.Machine

/-- One step (00_scope R11): the host's next access, or one step of the sequencer. -/
def step (s : State) : Host.Outcome State Fault Refusal := advance s

/-- The state with the table's word `w` of `nbits` bits placed so that the next step runs it
(assumption 3). -/
def State.withFetchWord (s : State) (nbits w : Nat) : State := placeTableWord s nbits w

end Sys2Proof.Machine
end

