-- ==== Sys2Proof/Machine/Platform.lean ====
section
/-! DEFINITION. Several blocks of LZ77 CORE side by side (20_memory R53, 60_exceptions R195): each is the
machine of Sys2Proof.Machine.Step with an OUT of its own; an IN may be shared. They have no identifiers
of their own, share no state and send each other nothing (assumption 23). -/

namespace Sys2Proof.Machine

/-- The contents of an input buffer, held once however many blocks read it: the known bytes, and the
number of its unspecified contents (assumption 4). -/
structure Input where
  bytes : Memory
  fill  : Nat
  deriving DecidableEq, Repr

/-- A block: its state, with its own OUT, and which buffers of the platform are its IN and its OUT. The
contents of IN in `core` are those it last saw; `Platform.seen` takes them from the platform. The two numbers
are fixed for the whole run (DESIGN CHOICE; assumption 23). -/
structure Block where
  core  : State
  inAt  : Nat
  outAt : Nat
  deriving DecidableEq, Repr

/-- The blocks of a platform, and its input buffers. -/
structure Platform where
  blocks : List Block
  inputs : List Input
  deriving DecidableEq, Repr

/-- A platform after power-on, given the numbers of each block's IN and OUT and how many input buffers
there are. -/
def Platform.reset (wiring : List (Nat × Nat)) (inputs : Nat) : Platform where
  blocks := wiring.map fun x => { core := State.reset, inAt := x.1, outAt := x.2 }
  inputs := (List.range inputs).map fun k => { bytes := [], fill := k }

/-- The state over the contents of an input buffer. -/
def State.over (s : State) (x : Input) : State := { s with inp := x.bytes, inFill := x.fill }

/-- The machine that block `j` is, over the contents its IN has now. -/
def Platform.seen (p : Platform) (j : Nat) : Option State :=
  p.blocks[j]?.bind fun b => p.inputs[b.inAt]?.map b.core.over

/-- The platform after block `j` has come to state `t`. The block keeps its buffers; what it has left in its IN
is what every sharer reads (assumption 23). -/
def Platform.put (p : Platform) (j : Nat) (t : State) : Platform :=
  match p.blocks[j]? with
  | none => p
  | some b =>
    { blocks := p.blocks.set j { b with core := t }
      inputs := p.inputs.set b.inAt { bytes := t.inp, fill := t.inFill } }

/-- Some other block than `j` is such as `q` says beside `j`. -/
def Platform.another (p : Platform) (j : Nat) (q : Block → Block → Bool) : Bool :=
  p.blocks[j]?.any fun b => (p.blocks.eraseIdx j).any (q b)

/-- The OUT of block `j` is another block's too, which R53 rules out. Judged by the platform's numbers
alone: the bases in the blocks' constants are not compared across blocks (DESIGN CHOICE; assumption 23). -/
def Platform.outputShared (p : Platform) (j : Nat) : Bool := p.another j fun b x => x.outAt == b.outAt

/-- Another block has an operation in flight that reads the IN of block `j`. -/
def Platform.inputInUse (p : Platform) (j : Nat) : Bool :=
  p.another j fun b x => x.inAt == b.inAt && x.core.busy

/-- The host's next action writes IN. -/
def State.hostWritesIn (s : State) : Bool :=
  match s.host with
  | .provideIn _ :: _ => true
  | .writeIn _ _ :: _ => true
  | _ => false

/-- Block `j` takes one step. Refused: a block with a shared OUT (U10), and a host that writes an IN which
another block is reading (R206). -/
def Platform.step (p : Platform) (j : Nat) : Host.Outcome Platform Fault Refusal :=
  match p.seen j with
  | none => .refused .absent
  | some s =>
    if p.outputShared j then .refused .outputShared
    else if s.hostWritesIn && p.inputInUse j then .refused .hostDuringOperation
    else
      match Machine.step s with
      | .next t => .next (p.put j t)
      | .fault e => .fault e
      | .refused r => .refused r

/-- Steps of the blocks in the order of a schedule, whatever it is. -/
def Platform.run : List Nat → Platform → Host.Outcome Platform Fault Refusal
  | [], p => .next p
  | j :: js, p =>
    match p.step j with
    | .next q => Platform.run js q
    | .fault e => .fault e
    | .refused r => .refused r

end Sys2Proof.Machine
end

