-- ==== Sys2Proof/Machine/Reference.lean ====
section
/-! DEFINITION. The operations as functions of byte lists, for claims to compare the machine with: the
reference algorithms of 43_decoder R162 and 42_encoder R134, the Match Finder without a loop over
registers (40_match_finder R83 to R85), the tokens that ENCODE chooses and what tokens stand for. No
step of the machine uses them. -/

namespace Sys2Proof.Machine

/-! ### DECODE (R162) -/

/-- Append `length` bytes, each the byte `offset + 1` places before the end (R157). -/
def copyData (offset : Nat) : Nat → List Byte → List Byte
  | 0, out => out
  | length + 1, out => copyData offset length (out ++ [out.getD (out.length - offset - 1) 0])

/-- What one token does to the data decoded so far (R154, R156 to R158, R164), within a capacity. -/
def tokenData (cfg : Config) (cap : Nat) (out : List Byte) : Instr → Except Status (List Byte)
  | .lit c => if out.length + 1 > cap then .error .outputBufferExhausted else .ok (out ++ [c])
  | .matchTok c offset length =>
    if offset.toNat + 1 > out.length then .error .corruptStream
    else if tooShort cfg length then .error .corruptStream
    else if out.length + length.toNat + 1 > cap then .error .outputBufferExhausted
    else .ok (copyData offset.toNat length.toNat out ++ [c])
  | .ctrl _ => .ok out
  | .encode => .ok out
  | .decode => .ok out
  | .findPrefix _ _ _ _ => .ok out

/-- The result of an operation: its status, and its data, which is empty after a fault. -/
abbrev OpResult := Status × List Byte

/-- The loop of R162 from a given place of the stream on, with the data decoded so far. -/
def decodeData (cfg : Config) (cap : Nat) : GroupState → List Byte → List Byte → OpResult
  | _, out, [] => (.ok, out)
  | none, out, m :: rest => decodeData cfg cap (some (m, 0)) out rest
  | some (m, k), out, c :: rest =>
    match controlBit m k, rest with
    | false, rest =>
      match tokenData cfg cap out (decodeLit c) with
      | .ok out => decodeData cfg cap (nextInGroup m k) out rest
      | .error f => (f, [])
    | true, b1 :: b2 :: rest =>
      match tokenData cfg cap out (decodeMatch c b1 b2) with
      | .ok out => decodeData cfg cap (nextInGroup m k) out rest
      | .error f => (f, [])
    | true, _ => (.corruptStream, [])

/-- `DECODE(IN, cap)` (R162). -/
def referenceDecode (cfg : Config) (cap : Nat) (input : List Byte) : OpResult :=
  decodeData cfg cap none [] input

/-! ### FIND_PREFIX (R83 to R85) -/

/-- The bytes of `data` at indices `a` to `b`, both included. -/
def slice (data : List Byte) (a b : Nat) : List Byte := (data.take (b + 1)).drop a

/-- The length of the common prefix of two lists, cut to `cap`. -/
def commonLength : Nat → List Byte → List Byte → Nat
  | 0, _, _ => 0
  | cap + 1, x :: xs, y :: ys => if x = y then commonLength cap xs ys + 1 else 0
  | _ + 1, _, _ => 0

/-- `run(p)`: the common prefix of `data[p .. window_end]` and `data[seq_start .. seq_end]`, cut to
`MAX_SEQ_SIZE` (R83). -/
def runOf (cfg : Config) (data : List Byte) (windowEnd seqStart seqEnd p : Nat) : Nat :=
  commonLength cfg.maxSeqSize (slice data p windowEnd) (slice data seqStart seqEnd)

/-- The best pair over `count` candidates from `p` on; the later of equals wins (R84). -/
def bestOf (run : Nat → Nat) : Nat → Nat → Nat × Nat → Nat × Nat
  | 0, _, best => best
  | count + 1, p, best => bestOf run count (p + 1) (if best.2 ≤ run p then (p, run p) else best)

/-- `find_prefix(window_start, window_end, seq_start, seq_end, data)` (R80, R84, R85). -/
def findPrefix (cfg : Config) (data : List Byte) (windowStart windowEnd seqStart seqEnd : Nat) : Nat × Nat :=
  let best := bestOf (runOf cfg data windowEnd seqStart seqEnd) (windowEnd + 1 - windowStart) windowStart
    (windowStart, 0)
  (best.1, reportedLength cfg.minMatch best.2)

/-! ### ENCODE (R134) -/

/-- The search at position `pos` over the window `[max(0, pos - WINDOW_SIZE), pos - 1]`, `[0, 0]` at the
start (R121, R123, R129); length 0 when one byte is left. -/
def searchAt (cfg : Config) (data : List Byte) (pos : Nat) : Nat × Nat :=
  if pos + 1 < data.length then
    findPrefix cfg data (pos - cfg.windowSize) (pos - 1) pos (data.length - 2)
  else (0, 0)

/-- The tokens ENCODE chooses from position `pos` on, `fuel` at most (R124, R125, R137). -/
def greedyFrom (cfg : Config) (data : List Byte) : Nat → Nat → List Instr
  | 0, _ => []
  | fuel + 1, pos =>
    if pos < data.length then
      let m := searchAt cfg data pos
      if cfg.minMatch ≤ m.2 then
        .matchTok (data.getD (pos + m.2) 0) (BitVec.ofNat 12 (pos - m.1 - 1)) (BitVec.ofNat 4 m.2)
          :: greedyFrom cfg data fuel (pos + m.2 + 1)
      else .lit (data.getD pos 0) :: greedyFrom cfg data fuel (pos + 1)
    else []

/-- All the tokens of an input; each covers at least one byte. -/
def greedyTokens (cfg : Config) (data : List Byte) : List Instr := greedyFrom cfg data data.length 0

/-- The stream ENCODE writes when capacity is no bound (R134, R76). -/
def encodedStream (cfg : Config) (data : List Byte) : List Byte :=
  encodeStream (assemble (greedyTokens cfg data))

/-- `ENCODE(IN, cap)`: the stream where it fits, else the fault (R134, R136). -/
def referenceEncode (cfg : Config) (cap : Nat) (data : List Byte) : OpResult :=
  if (encodedStream cfg data).length ≤ cap then (.ok, encodedStream cfg data)
  else (.outputBufferExhausted, [])

end Sys2Proof.Machine
end

