-- ==== Sys2Proof/Safety.lean ====
section
/-! DEFINITION. The terms that claims are stated in: the invariants of the two operations (42_encoder
R135, 43_decoder R163) and of the whole machine, the launch premises (70_reset R203), what a run of
the Match Finder is (R83), and what an operation returns (R204). -/

namespace Sys2Proof.Machine

/-- `k` is the run length of candidate `p` (R83): `k` pairs are equal within both ranges and the cap,
and the comparison goes no further. -/
structure IsRun (s : State) (windowEnd seqStart seqEnd p k : Nat) : Prop where
  capped    : k ≤ s.cfg.maxSeqSize
  inWindow  : k = 0 ∨ p + k ≤ windowEnd + 1
  inSeq     : k = 0 ∨ seqStart + k ≤ seqEnd + 1
  equal     : ∀ j, j < k → s.inByte (p + j) = s.inByte (seqStart + j)
  maximal   : k = s.cfg.maxSeqSize ∨ windowEnd < p + k ∨ seqEnd < seqStart + k ∨
                s.inByte (p + k) ≠ s.inByte (seqStart + k)

/-- What holds of an ENCODE in flight between two steps (R135 items 1 to 4, and the control byte being
filled, R101). -/
structure EncInv (s : State) : Prop where
  cursor  : s.pos ≤ s.n
  atStart : s.pos = 0 → s.wStart = 0 ∧ s.wEnd = 0
  window  : 0 < s.pos → s.wEnd = s.pos - 1 ∧ s.wStart = s.pos - s.cfg.windowSize
  room    : s.wr ≤ s.cap
  group   : 0 < s.n → s.ctrlAddr < s.wr
  unused  : 0 < s.n → ∀ j, s.cnt.toNat ≤ j → s.ctrlAcc.getLsbD j = false

/-- What holds of a DECODE in flight between two steps (R163). -/
structure DecInv (s : State) : Prop where
  cursor  : s.rd ≤ s.n
  room    : s.wr ≤ s.cap

/-- What every step keeps, from any state that has it: legal parameters with this hardware's window
policy, canonical memories, no reserved status, no result beside a fault (R27), `BUSY` and `DONE`
never together (R25), a `MIN_MATCH` that the first iteration cannot reach (assumption 10), and the
invariant of the operation in flight. -/
structure Inv (s : State) : Prop where
  params   : s.cfg.valid
  realRun  : 2 ≤ s.cfg.minMatch
  policy   : s.cfg.windowPolicy = .exact
  inWf     : s.inp.wf = true
  outWf    : s.out.wf = true
  reserved : s.status ≠ .invalidInput
  noResult : s.status ≠ .ok → s.outLen = 0
  notBoth  : s.busy = true → s.done = false
  encoding : s.busy = true → s.opl = 0 → EncInv s
  decoding : s.busy = true → s.opl = 1 → DecInv s

/-- Launch premises P1 to P3 of R203, for the operation that the host interface registers describe.
P4 is `s.host = []`: the host makes no access. -/
structure Ready (s : State) : Prop where
  idle     : s.busy = false
  inBound  : withinBound s.cfg s.inLen = true
  outBound : withinBound s.cfg s.outCap = true
  disjoint : buffersDisjoint s.cfg s.inLen s.outCap = true

/-- Every register that R37 gives a reset value is at that value (R200). -/
structure AtReset (s : State) : Prop where
  host     : s.op = 0 ∧ s.inLen = 0 ∧ s.outCap = 0
  idle     : s.busy = false ∧ s.done = false ∧ s.status = .ok ∧ s.outLen = 0
  shared   : s.n = 0 ∧ s.cap = 0 ∧ s.wr = 0 ∧ s.cnt = 0
  encoder  : s.pos = 0 ∧ s.wStart = 0 ∧ s.wEnd = 0 ∧ s.ctrlAddr = 0 ∧ s.ctrlAcc = 0
  decoder  : s.rd = 0 ∧ s.ctrl = 0

/-- The `len` bytes of IN from index 0. -/
def inputBytes (s : State) (len : Nat) : List Byte := (List.range len).map s.inByte

/-- The first `len` bytes of OUT. -/
def outputBytes (s : State) (len : Nat) : List Byte := (List.range len).map s.outByte

/-- What the host gets back (R204): the status, and the result bytes `OUT[0 .. OUT_LEN - 1]`. -/
def returned (s : State) : OpResult := (s.status, outputBytes s s.outLen)

/-- The operation has ended (R214). -/
structure Ended (s : State) : Prop where
  idle : s.busy = false
  done : s.done = true

/-- After `k` further steps without a host access, the operation that answered `o` has ended in `t`. -/
def endsIn (o : Result) (k : Nat) (t : State) : Prop :=
  ∃ s, o = .next s ∧ Sys2Proof.core.run k s = .next t ∧ Ended t

/-- A stream of full groups, each of 8 tokens under its control byte, and a last group of the given tokens
under a control byte of any value (R60, R69). -/
def streamEndingIn (full : List Instr) (m : Byte) (last : List Instr) : List Byte :=
  encodeStream (groups full).dropLast ++ m :: encodeStream last

/-- `m` gives each of these tokens its kind (R62); its other bits may be anything. -/
def marks (m : Byte) (toks : List Instr) : Prop := ∀ j (h : j < toks.length), m.getLsbD j = toks[j].kind

/-- Blocks that R53 allows side by side: each has an IN, which others may share, and an OUT of its own. -/
structure Independent (p : Platform) : Prop where
  inputs  : ∀ (j : Nat) (b : Block), p.blocks[j]? = some b → b.inAt < p.inputs.length
  outputs : ∀ (j k : Nat) (b c : Block), p.blocks[j]? = some b → p.blocks[k]? = some c →
              b.outAt = c.outAt → j = k

end Sys2Proof.Machine
end

