-- ==== Sys2Proof/Certificates/Slice0/Obligations.lean ====
section
/-! DEFINITION. The statements for the provers, each from the spec's numbered rules. -/

open Sys2Proof Sys2Proof.Machine

/-! ### Encodings -/

/-- 30_encoding R65: the packing and unpacking formulas, that each undoes the other, and what the
`offset` field means on either side. -/
def Obligations.MatchFieldsPackAndUnpack : Prop :=
  ∀ (o : Offset) (l : Length) (b1 b2 : Byte),
    (packHigh o).toNat = o.toNat / 16 ∧
    (packLow o l).toNat = (o.toNat % 16) * 16 + l.toNat ∧
    (unpackOffset b1 b2).toNat = b1.toNat * 16 + b2.toNat / 16 ∧
    (unpackLength b2).toNat = b2.toNat % 16 ∧
    unpackOffset (packHigh o) (packLow o l) = o ∧
    unpackLength (packLow o l) = l ∧
    packHigh (unpackOffset b1 b2) = b1 ∧
    packLow (unpackOffset b1 b2) (unpackLength b2) = b2 ∧
    (∀ wr, copySource wr o = wr - o.toNat - 1) ∧
    (∀ pos mp, mp < pos → pos - mp - 1 < 4096 →
      ∃ f, matchOffset pos mp = some f ∧ f.toNat = pos - mp - 1)

/-- 30_encoding R62 to R65, R72, R73: decoding an encoded instruction gives it back, every encoded
thing that decodes is the encoding of what it decodes to, and only `FIND_PREFIX` has no encoding. -/
def Obligations.DecodeOfEncodeIsTheInstruction : Prop :=
  (∀ i e, i.wellFormed = true → encode i = some e → decode e = .ok i) ∧
  (∀ e i, decode e = .ok i → encode i = some e) ∧
  (∀ i, encode i = none ↔ ∃ ws we ss se, i = Instr.findPrefix ws we ss se)

/-- 30_encoding R62 to R66: the control bit alone decides a token's length, and the token is what its
bytes encode. -/
def Obligations.TokenBytesFollowTheControlBit : Prop :=
  ∀ (m : Byte) (k : Count) (bytes : List Byte) (i : Instr) (rest : List Byte),
    decodeToken (controlBit m k) bytes = .ok (i, rest) →
      bytes = streamEncoding i ++ rest ∧ i.kind = m.getLsbD k.toNat ∧
      (streamEncoding i).length = if m.getLsbD k.toNat then 3 else 1

/-- 30_encoding R60, R61, R67, R68: the framing of any tokens, with the trailing empty control byte,
parses back to exactly those tokens and control bytes. -/
def Obligations.AssembledStreamDecodesToItself : Prop :=
  ∀ toks : List Instr, (∀ t ∈ toks, t.isToken = true) →
    decodeStream (encodeStream (assemble toks)) = .ok (assemble toks)

/-- 30_encoding R76, first sentence: the length of a framed stream. -/
def Obligations.AssembledStreamSize : Prop :=
  ∀ toks : List Instr, (∀ t ∈ toks, t.isToken = true) → toks ≠ [] →
    (encodeStream (assemble toks)).length =
      1 + toks.length / Config.groupSize + toks.countP (fun t => !t.kind) + 3 * toks.countP Instr.kind

/-- 30_encoding R69: whatever full groups come before, the bits of the last group's control byte beyond
its last token do not matter to DEC: neither to the reference algorithm nor to two machines that are given
the two streams. -/
def Obligations.UnusedControlBitsAreIgnored : Prop :=
  ∀ (full last : List Instr) (m m' : Byte),
    full.length % 8 = 0 → (∀ t ∈ full, t.isToken = true) →
    last.length ≤ 8 → (∀ t ∈ last, t.isToken = true) → marks m last → marks m' last →
    (∀ (cfg : Config) (cap : Nat),
      referenceDecode cfg cap (streamEndingIn full m last) =
        referenceDecode cfg cap (streamEndingIn full m' last)) ∧
    ∀ (s s' t t' : State) (k k' : Nat),
      Ready s → Ready s' → s.host = [] → s'.host = [] → s.cfg = s'.cfg → s.outCap = s'.outCap →
      inputBytes s s.inLen = streamEndingIn full m last →
      inputBytes s' s'.inLen = streamEndingIn full m' last →
      endsIn (exec .decode s) k t → endsIn (exec .decode s') k' t' → returned t = returned t'

/-- 30_encoding R77 and its table: words written out from the virtual words of the six rows. -/
def Obligations.TableWordsDecode : Prop :=
  decodeTableWord 9 0b001100001 = some (.lit 0x61) ∧
  decodeTableWord 25 0b1_01100001_000000000010_0011 = some (.matchTok 0x61 2 3) ∧
  decodeTableWord 25 0b1_00100001_111111111111_1010 = some (.matchTok 0x21 4095 10) ∧
  decodeTableWord 8 0b00011000 = some (.ctrl 0x18) ∧
  decodeTableWord 1 0 = some .encode ∧
  decodeTableWord 1 1 = some .decode ∧
  decodeTableWord 0 0 = none

/-! ### Tokens -/

/-- 43_decoder R154: `LIT` completes exactly when one more byte fits; it then stores its byte at the
write cursor and nothing else changes. Without room it raises OutputBufferExhausted and stores nothing.
That the working registers keep their values once the operation has ended is the model's choice
(assumption 26; V7 says any value). -/
def Obligations.LitAppendsItsByte : Prop :=
  ∀ (c : Byte) (s : State),
    (s.wr + 1 ≤ s.cap →
      ∃ t, exec (.lit c) s = .next t ∧
        t = { s with out := t.out, wr := s.wr + 1 } ∧
        t.outByte s.wr = c ∧ ∀ a, a ≠ s.wr → t.outByte a = s.outByte a) ∧
    (s.cap < s.wr + 1 →
      exec (.lit c) s =
        .next { s with status := .outputBufferExhausted, outLen := 0, busy := false, done := true })

/-- 43_decoder R156 to R158: where the guards pass, `MATCH` completes: copied byte `i` is the byte
`offset + 1` places back, repeated periodically where source and destination overlap; the trailing
byte comes last; no other byte and no register but `wr`, `src` and `i` changes. -/
def Obligations.MatchCopiesThenAppends : Prop :=
  ∀ (c : Byte) (offset : Offset) (length : Length) (s : State),
    offset.toNat + 1 ≤ s.wr → tooShort s.cfg length = false → s.wr + length.toNat + 1 ≤ s.cap →
    ∃ t, exec (.matchTok c offset length) s = .next t ∧
      t = { s with out := t.out, wr := s.wr + length.toNat + 1,
                   src := s.wr - offset.toNat - 1, i := length } ∧
      (∀ j, j < length.toNat →
        t.outByte (s.wr + j) = s.outByte (s.wr - (offset.toNat + 1) + j % (offset.toNat + 1))) ∧
      t.outByte (s.wr + length.toNat) = c ∧
      ∀ a, a < s.wr ∨ s.wr + length.toNat < a → t.outByte a = s.outByte a

/-- 43_decoder R156, R164, 60_exceptions R185, R187: the guards of `MATCH` in their order; the offset
is judged before the capacity; a raise stores no byte of the token.
That the working registers keep their values once the operation has ended is the model's choice
(assumption 26; V7 says any value). -/
def Obligations.MatchGuardsInOrder : Prop :=
  ∀ (c : Byte) (offset : Offset) (length : Length) (s : State),
    (s.wr < offset.toNat + 1 →
      exec (.matchTok c offset length) s =
        .next { s with status := .corruptStream, outLen := 0, busy := false, done := true }) ∧
    (offset.toNat + 1 ≤ s.wr → s.cfg.strictLength = true → length.toNat < s.cfg.minMatch →
      exec (.matchTok c offset length) s =
        .next { s with status := .corruptStream, outLen := 0, busy := false, done := true }) ∧
    (offset.toNat + 1 ≤ s.wr → (s.cfg.strictLength = false ∨ s.cfg.minMatch ≤ length.toNat) →
      s.cap < s.wr + length.toNat + 1 →
      exec (.matchTok c offset length) s =
        .next { s with status := .outputBufferExhausted, outLen := 0, busy := false, done := true })

/-- 41_framer R106, 43_decoder R155: a match token cut by the end of the stream raises CorruptStream
before anything else is judged, and stores nothing.
That the working registers keep their values once the operation has ended is the model's choice
(assumption 26; V7 says any value). -/
def Obligations.CutMatchTokenIsCorrupt : Prop :=
  ∀ s : State, s.host = [] → s.busy = true → s.opl = 1 → s.rd < s.n →
    controlBit s.ctrl s.cnt = true → s.n < s.rd + 3 →
    step s = .next { s with c := s.inByte s.rd, rd := s.rd + 1,
                            status := .corruptStream, outLen := 0, busy := false, done := true }

/-- 41_framer R104: `FR.LOAD` reads the byte at `rd` and runs it as a control byte, and `CTRL` makes
it the control byte of the group and passes it: `ctrl <- MemRead(IN, rd, 1) ; rd <- rd + 1`. -/
def Obligations.LoadRunsTheControlByte : Prop :=
  ∀ s : State,
    (∀ m, exec (.ctrl m) s = .next { s with ctrl := m, rd := s.rd + 1 }) ∧
    (s.rd < s.n → frLoad s = exec (decodeControl (s.inByte s.rd)) s)

/-! ### Commands -/

/-- 42_encoder R121, R133, 10_state R24, R38: `ENCODE` on a ready machine completes its START step: the
latches, the start values, and, for a non-empty input, the first control byte. The register `opl` is
the model's (assumption 11), and so is `outFill`, which numbers the unspecified contents of OUT anew
(assumption 4).
That the working registers keep their values once the operation has ended is the model's choice
(assumption 26; V7 says any value). -/
def Obligations.EncodeStartsAnOperation : Prop :=
  ∀ s : State, Ready s →
    (s.inLen = 0 →
      exec .encode s = .next { s with
        busy := true, done := false, opl := 0, n := 0, cap := s.outCap,
        pos := 0, wStart := 0, wEnd := 0, wr := 0, cnt := 0, outFill := s.outFill + 1 }) ∧
    (0 < s.inLen → 0 < s.outCap →
      ∃ t, exec .encode s = .next t ∧
        t = { s with
          busy := true, done := false, opl := 0, n := s.inLen, cap := s.outCap,
          pos := 0, wStart := 0, wEnd := 0, wr := 1, cnt := 0, ctrlAddr := 0, ctrlAcc := 0,
          out := t.out, outFill := s.outFill + 1 } ∧
        t.out.read 0 = some 0 ∧ ∀ a, a ≠ 0 → t.out.read a = s.out.read a) ∧
    (0 < s.inLen → s.outCap = 0 →
      exec .encode s = .next { s with
        busy := false, done := true, status := .outputBufferExhausted, outLen := 0,
        opl := 0, n := s.inLen, cap := 0,
        pos := 0, wStart := 0, wEnd := 0, wr := 0, cnt := 0, outFill := s.outFill + 1 })

/-- 43_decoder R151, 10_state R24, R38: `DECODE` on a ready machine completes its START step: the
latches, the start values, and, for a non-empty stream, the first control byte loaded. The register `opl`
is the model's (assumption 11), and so is `outFill`, which numbers the unspecified contents of OUT anew
(assumption 4).
That a working register keeps its value between two operations is the model's choice (assumption 26; V7
says any value). -/
def Obligations.DecodeStartsAnOperation : Prop :=
  ∀ s : State, Ready s →
    (s.inLen = 0 →
      exec .decode s = .next { s with
        busy := true, done := false, opl := 1, n := 0, cap := s.outCap,
        rd := 0, wr := 0, cnt := 0, outFill := s.outFill + 1 }) ∧
    (0 < s.inLen →
      exec .decode s = .next { s with
        busy := true, done := false, opl := 1, n := s.inLen, cap := s.outCap,
        ctrl := s.inByte 0, rd := 1, wr := 0, cnt := 0, outFill := s.outFill + 1 })

/-- 10_state R24, 70_reset R206: START while an operation is in flight is ignored. -/
def Obligations.StartWhileBusyIsIgnored : Prop :=
  ∀ s : State, s.busy = true →
    exec .encode s = .next s ∧ exec .decode s = .next s ∧
    ∀ rest, s.host = .write .start 1 :: rest → step s = .next { s with host := rest }

/-- 00_scope R7, R203, 20_memory R48 (V4, V6): on an idle machine START of either command is refused
exactly where `IN_LEN` or `OUT_CAP` is above `2^AW - 17`, or IN and OUT share a physical byte; it has no
effect then. That a width and bases are parameters that may be open is the model's choice (assumptions 1
and 2), and so is that the bound is judged before the overlap (assumption 20). -/
def Obligations.StartOutsidePremisesIsRefused : Prop :=
  ∀ s : State, s.busy = false →
    (∀ w, s.cfg.aw = some w → 2 ^ w < s.inLen + 17 ∨ 2 ^ w < s.outCap + 17 →
      exec .encode s = .refused .indexBound ∧ exec .decode s = .refused .indexBound) ∧
    ((∀ w, s.cfg.aw = some w → s.inLen + 17 ≤ 2 ^ w ∧ s.outCap + 17 ≤ 2 ^ w) →
      ((∃ x y a, s.cfg.inBase = some x ∧ s.cfg.outBase = some y ∧
          x ≤ a ∧ a < x + s.inLen ∧ y ≤ a ∧ a < y + s.outCap) →
        exec .encode s = .refused .buffersOverlap ∧ exec .decode s = .refused .buffersOverlap) ∧
      ((∀ x y, s.cfg.inBase = some x → s.cfg.outBase = some y →
          ¬ ∃ a, x ≤ a ∧ a < x + s.inLen ∧ y ≤ a ∧ a < y + s.outCap) →
        (∃ t, exec .encode s = .next t) ∧ ∃ t, exec .decode s = .next t))

/-! ### The Match Finder -/

/-- 40_match_finder R80, R82 to R85, R87, R88: over a window and a sequence that lie in IN,
`FIND_PREFIX` completes; its tracked pair is the largest run and the latest candidate that has it;
the reported length is that run, or 0 below `MIN_MATCH`; only its own registers and ports change.
The window and the sequence may overlap, and the sequence may be empty: there, outside R81, it is the
extension of R89, which the model takes by choice (assumption 22).
That the tracked pair can be read after the evaluation is the model's reading (assumption 13). -/
def Obligations.FindPrefixFindsLongestLatestRun : Prop :=
  ∀ (ws we ss se : Nat) (s : State), s.cfg.valid → ws ≤ we → we < s.n → se < s.n →
    ∃ t r, exec (.findPrefix ws we ss se) s = .next t ∧
      t = { s with p := t.p, k := t.k, bestPos := t.bestPos, bestLen := t.bestLen,
                   matchPosition := t.matchPosition, matchLength := t.matchLength } ∧
      t.bestLen.toNat = r ∧ ws ≤ t.bestPos ∧ t.bestPos ≤ we ∧
      IsRun s we ss se t.bestPos r ∧
      (∀ p k, ws ≤ p → p ≤ we → IsRun s we ss se p k → k < r ∨ (k = r ∧ p ≤ t.bestPos)) ∧
      t.matchLength.toNat = (if r < s.cfg.minMatch then 0 else r) ∧
      (0 < t.matchLength.toNat → t.matchPosition = t.bestPos)

/-- 40_match_finder R89: outside its precondition the unit is total: no candidate gives
`(window_start, 0)`, an empty sequence gives `(window_end, 0)`. That the model takes this extension and
does not refuse is its choice (assumption 22), and so is that it claims a position at length 0, which R86
and V2 call no value (assumption 13). -/
def Obligations.FindPrefixOutsideItsContract : Prop :=
  ∀ (ws we ss se : Nat) (s : State), s.cfg.valid →
    (we < ws → ∃ t, exec (.findPrefix ws we ss se) s = .next t ∧
      t.matchPosition = ws ∧ t.matchLength = 0) ∧
    (ws ≤ we → se < ss → ∃ t, exec (.findPrefix ws we ss se) s = .next t ∧
      t.matchPosition = we ∧ t.matchLength = 0)

/-- 40_match_finder R88: a pure function of its ports and the bytes of IN: two states with the same
parameters and the same bytes of IN get the same tracked pair and the same outputs.
It says so of every evaluation that completes, also of one outside R81 (R89; assumption 22); that the tracked
pair can be read after it is the model's reading (assumption 13). -/
def Obligations.FindPrefixIsPure : Prop :=
  ∀ (ws we ss se : Nat) (s s' t t' : State),
    s.cfg = s'.cfg → s.n = s'.n → (∀ a, a < s.n → s.inByte a = s'.inByte a) →
    exec (.findPrefix ws we ss se) s = .next t → exec (.findPrefix ws we ss se) s' = .next t' →
      t.bestPos = t'.bestPos ∧ t.bestLen = t'.bestLen ∧
      t.matchPosition = t'.matchPosition ∧ t.matchLength = t'.matchLength

/-- 40_match_finder R83 to R86, R92: the unit equals the search stated over byte lists, as common prefixes
of slices of the data. Where the length is 0 the claim on the position goes beyond R92: R86 reports the
tracked position there and asks to treat it as no value; reporting it is the model's reading
(assumption 13).
There is no premise of R81: window and sequence may be empty and may overlap: there, outside R81, it is the
extension of R89, which the model takes by choice (assumption 22). -/
def Obligations.FindPrefixEqualsListSearch : Prop :=
  ∀ (ws we ss se : Nat) (s : State), s.cfg.valid → we < s.n → se < s.n →
    ∃ t, exec (.findPrefix ws we ss se) s = .next t ∧
      (t.matchPosition, t.matchLength.toNat) = findPrefix s.cfg (inputBytes s s.n) ws we ss se

/-! ### A step runs the decoded instruction -/

/-- 43_decoder R153, R155, R166: when the bytes at `rd` decode to a token, a step is that token's
meaning at the state that has passed its bytes and latched its fields, then `DEC.GROUP` unless it
raised a fault. A literal token latches `c` only; a match token latches its two other bytes, too, and
`offset` and `length` from them. -/
def Obligations.StepRunsTheFetchedToken : Prop :=
  ∀ (s : State) (i : Instr) (rest : List Byte),
    s.host = [] → s.busy = true → s.opl = 1 → s.rd < s.n →
    decodeToken (controlBit s.ctrl s.cnt) ((inputBytes s s.n).drop s.rd) = .ok (i, rest) →
    ∃ t, step s = unlessOver (exec i t) decGroup ∧
      t = { s with rd := s.rd + i.streamBytes, c := s.inByte s.rd, b1 := t.b1, b2 := t.b2,
                   offset := t.offset, length := t.length } ∧
      ((i = .lit t.c ∧ t.b1 = s.b1 ∧ t.b2 = s.b2 ∧ t.offset = s.offset ∧ t.length = s.length) ∨
        (i = .matchTok t.c t.offset t.length ∧
          t.b1 = s.inByte (s.rd + 1) ∧ t.b2 = s.inByte (s.rd + 2)))

/-- 10_state R21, R24, 30_encoding R72, 00_scope R11: a host that writes 1 to `START` on an idle machine
runs the command that `OP` encodes; one that makes no access lets the sequencer take its step, which neither
looks at nor changes what the host does later. The queue and its action `run` are the model's choice
(assumption 6). -/
def Obligations.StepRunsTheHostCommand : Prop :=
  ∀ (s : State) (rest : List HostAction),
    (s.host = .write .start 1 :: rest →
      (s.op = 0 → step s = exec .encode { s with host := rest }) ∧
      (s.op = 1 → step s = exec .decode { s with host := rest })) ∧
    (s.host = [] → step s = sequencer s) ∧
    (s.host = .run :: rest → step s = sequencer { s with host := rest } ∧
      ∀ t, step { s with host := [] } = .next t → step s = .next { t with host := rest })

/-- 42_encoder R123, 40_match_finder R80: `ENC.SEARCH` runs `FIND_PREFIX` on the window and the
sequence `[pos, n - 2]` and takes its outputs; with one byte left it makes no search. -/
def Obligations.SearchRunsFindPrefix : Prop :=
  ∀ s : State,
    (s.pos + 1 < s.n → ∀ t, exec (.findPrefix s.wStart s.wEnd s.pos (s.n - 2)) s = .next t →
      encSearch s = .next { t with mp := t.matchPosition, ml := t.matchLength }) ∧
    (s.n ≤ s.pos + 1 → ∃ t, encSearch s = .next t ∧
      t = { s with ml := 0, mp := t.mp, drawn := t.drawn })

/-! ### The Framer -/

/-- 41_framer R100: `FR.OPEN`.
That the working registers keep their values once the operation has ended is the model's choice
(assumption 26; V7 says any value). -/
def Obligations.FrOpenReservesAZeroByte : Prop :=
  ∀ s : State,
    (s.cap < s.wr + 1 → frOpen s = .next
      { s with status := .outputBufferExhausted, outLen := 0, busy := false, done := true }) ∧
    (s.wr + 1 ≤ s.cap → ∃ t, frOpen s = .next t ∧
      t = { s with out := t.out, ctrlAddr := s.wr, ctrlAcc := 0, wr := s.wr + 1 } ∧
      t.outByte s.wr = 0 ∧ ∀ a, a ≠ s.wr → t.outByte a = s.outByte a)

/-- 41_framer R101, 20_memory R41: `FR.MARK` on a match sets bit `cnt`, and only it, in the running
control byte and writes that byte through; on a literal it does nothing. -/
def Obligations.FrMarkSetsTheTokensBit : Prop :=
  ∀ s : State, frMark false s = .next s ∧
    (s.ctrlAddr < s.cap → ∃ t, frMark true s = .next t ∧
      t = { s with out := t.out, ctrlAcc := t.ctrlAcc } ∧
      (∀ k : Count, controlBit t.ctrlAcc k = (controlBit s.ctrlAcc k || decide (k = s.cnt))) ∧
      t.outByte s.ctrlAddr = t.ctrlAcc ∧
      ∀ a, a ≠ s.ctrlAddr → t.outByte a = s.outByte a)

/-- 41_framer R102, 20_memory R42: `FR.PUT` appends exactly the bytes of the token's encoding. -/
def Obligations.FrPutAppendsTheEncoding : Prop :=
  ∀ (c : Byte) (offset : Offset) (length : Length) (isMatch : Bool) (s : State),
    s.wr + tokenNeed isMatch ≤ s.cap →
    ∃ t, frPut c isMatch offset length s = .next t ∧
      t = { s with out := t.out, wr := s.wr + tokenNeed isMatch } ∧
      (List.range (tokenNeed isMatch)).map (fun j => t.outByte (s.wr + j)) =
        streamEncoding (if isMatch then .matchTok c offset length else .lit c) ∧
      ∀ a, a < s.wr ∨ s.wr + tokenNeed isMatch ≤ a → t.outByte a = s.outByte a

/-- 41_framer R103: `FR.NEXT_ENC` counts modulo 8 and opens the next group with the 8th token, whether
or not any input remains. -/
def Obligations.FrNextEncOpensAfterTheEighth : Prop :=
  ∀ s : State,
    (s.cnt.toNat < 7 → ∃ t, frNextEnc s = .next t ∧ t = { s with cnt := t.cnt } ∧
      t.cnt.toNat = s.cnt.toNat + 1) ∧
    (s.cnt.toNat = 7 → frNextEnc s = frOpen { s with cnt := 0 })

/-- 41_framer R107, 43_decoder R159: `FR.NEXT_DEC` counts modulo 8 and, after the 8th token, takes the
next byte as a control byte if there is one, and does not require one. -/
def Obligations.FrNextDecLoadsAfterTheEighth : Prop :=
  ∀ s : State,
    (s.cnt.toNat < 7 → ∃ t, frNextDec s = .next t ∧ t = { s with cnt := t.cnt } ∧
      t.cnt.toNat = s.cnt.toNat + 1) ∧
    (s.cnt.toNat = 7 → s.rd < s.n →
      frNextDec s = .next { s with cnt := 0, ctrl := s.inByte s.rd, rd := s.rd + 1 }) ∧
    (s.cnt.toNat = 7 → s.n ≤ s.rd → frNextDec s = .next { s with cnt := 0 })

/-! ### The Encoder -/

/-- 42_encoder R126: the capacity check uses the token's real size, 1 or 3, and comes before any
write.
That the working registers keep their values once the operation has ended is the model's choice
(assumption 26; V7 says any value). -/
def Obligations.EncCheckUsesTheRealSize : Prop :=
  ∀ s : State,
    (s.wr + (if s.isMatch then 3 else 1) ≤ s.cap → encCheck s = .next s) ∧
    (s.cap < s.wr + (if s.isMatch then 3 else 1) → encCheck s = .next
      { s with status := .outputBufferExhausted, outLen := 0, busy := false, done := true })

/-- 42_encoder R124, R125, R126, R128, R129, R132, R138 (R135 item 2): from a state that meets the
invariant, an iteration completes. It consumes one byte as a literal or `length + 1` bytes as a match and
takes its byte `c` from the last consumed position. Where its token, and after the 8th token the next
control byte, fit exactly or with room to spare, the operation goes on, with the window on the last
`min(pos, WINDOW_SIZE)` bytes; otherwise it ends in OutputBufferExhausted, with the window as it was.
That the working registers keep their values once the operation has ended is the model's choice
(assumption 26; V7 says any value). -/
def Obligations.EncoderIterationAdvances : Prop :=
  ∀ s : State, Inv s → s.host = [] → s.busy = true → s.opl = 0 → s.pos < s.n →
    ∃ t, step s = .next t ∧
      t.pos = s.pos + (if t.isMatch then t.length.toNat + 1 else 1) ∧ t.pos ≤ s.n ∧
      t.c = s.inByte (t.pos - 1) ∧
      t.n = s.n ∧ t.cap = s.cap ∧ t.op = s.op ∧ t.rd = s.rd ∧ t.ctrl = s.ctrl ∧
      (s.wr + tokenNeed t.isMatch + (if s.cnt.toNat = 7 then 1 else 0) ≤ s.cap →
        t.busy = true ∧ t.done = s.done ∧ t.status = s.status ∧ t.outLen = s.outLen ∧
        t.wEnd = t.pos - 1 ∧ t.wStart = t.pos - s.cfg.windowSize ∧ t.cnt = s.cnt + 1 ∧
        t.wr = s.wr + tokenNeed t.isMatch + (if s.cnt.toNat = 7 then 1 else 0)) ∧
      (s.cap < s.wr + tokenNeed t.isMatch + (if s.cnt.toNat = 7 then 1 else 0) →
        t.busy = false ∧ t.done = true ∧ t.status = .outputBufferExhausted ∧ t.outLen = 0 ∧
        t.wEnd = s.wEnd ∧ t.wStart = s.wStart)

/-- 42_encoder R126 to R128, 60_exceptions R187, 20_memory R46: what an iteration writes and what it leaves.
A token that does not fit stores nothing at all. A token that fits is stored at the write cursor, and a match
token sets its bit in the control byte of its group; after the 8th token a zero byte follows as the next
control byte, or, where that does not fit, nothing more is stored. No other byte of OUT changes, and no
register but the Encoder's and the Match Finder's, `wr` and `cnt`, and the report of an operation that ends
(`drawn` is the model's own counter, assumption 7).
That the working registers keep their values once the operation has ended is the model's choice
(assumption 26; V7 says any value). -/
def Obligations.EncoderIterationWritesItsToken : Prop :=
  ∀ s : State, Inv s → s.host = [] → s.busy = true → s.opl = 0 → s.pos < s.n →
    ∃ t, step s = .next t ∧
      t = { s with
        out := t.out, wr := t.wr, cnt := t.cnt, pos := t.pos, wStart := t.wStart, wEnd := t.wEnd,
        ctrlAddr := t.ctrlAddr, ctrlAcc := t.ctrlAcc, mp := t.mp, ml := t.ml, isMatch := t.isMatch,
        offset := t.offset, length := t.length, c := t.c, p := t.p, k := t.k, bestPos := t.bestPos,
        bestLen := t.bestLen, matchPosition := t.matchPosition, matchLength := t.matchLength,
        drawn := t.drawn, busy := t.busy, done := t.done, status := t.status, outLen := t.outLen } ∧
      (t.busy = true → t.done = s.done ∧ t.status = s.status ∧ t.outLen = s.outLen) ∧
      (∀ a, a ≠ s.ctrlAddr → a < s.wr ∨ t.wr ≤ a → t.outByte a = s.outByte a) ∧
      (s.cap < s.wr + tokenNeed t.isMatch →
        t.busy = false ∧ t.out = s.out ∧ t.wr = s.wr ∧ t.cnt = s.cnt ∧ t.ctrlAddr = s.ctrlAddr ∧
        t.ctrlAcc = s.ctrlAcc) ∧
      (s.wr + tokenNeed t.isMatch ≤ s.cap →
        (List.range (tokenNeed t.isMatch)).map (fun j => t.outByte (s.wr + j)) =
          streamEncoding (if t.isMatch then .matchTok t.c t.offset t.length else .lit t.c) ∧
        t.outByte s.ctrlAddr =
          (if t.isMatch then markedControl s.ctrlAcc s.cnt else s.outByte s.ctrlAddr) ∧
        t.cnt = s.cnt + 1 ∧
        (s.cnt.toNat = 7 → s.wr + tokenNeed t.isMatch + 1 ≤ s.cap →
          t.busy = true ∧ t.wr = s.wr + tokenNeed t.isMatch + 1 ∧
          t.ctrlAddr = s.wr + tokenNeed t.isMatch ∧ t.ctrlAcc = 0 ∧ t.outByte t.ctrlAddr = 0) ∧
        (s.cnt.toNat < 7 ∨ s.cap < s.wr + tokenNeed t.isMatch + 1 →
          t.busy = decide (s.cnt.toNat < 7) ∧ t.wr = s.wr + tokenNeed t.isMatch ∧
          t.ctrlAddr = s.ctrlAddr ∧
          t.ctrlAcc = if t.isMatch then markedControl s.ctrlAcc s.cnt else s.ctrlAcc))

/-- 42_encoder R135 item 5, 30_encoding R70: what every match token that ENC takes satisfies: its
length and offset are in range, its source lies in the window and does not overlap the bytes it
stands for, and the byte after the match exists.
Where the step ends the operation, that its working registers can still be read is the model's choice
(assumption 26; V7 says any value). -/
def Obligations.MatchTokensStayInTheWindow : Prop :=
  ∀ s t : State, Inv s → s.host = [] → s.busy = true → s.opl = 0 → s.pos < s.n →
    step s = .next t → t.isMatch = true →
      s.cfg.minMatch ≤ t.length.toNat ∧ t.length.toNat ≤ s.cfg.maxSeqSize ∧
      t.length.toNat ≤ t.offset.toNat + 1 ∧ t.offset.toNat + 1 ≤ s.cfg.windowSize ∧
      t.offset.toNat + 1 ≤ s.pos ∧ s.pos + t.length.toNat ≤ s.n - 1 ∧
      (∀ j, j < t.length.toNat →
        s.inByte (s.pos - (t.offset.toNat + 1) + j) = s.inByte (s.pos + j))

/-- 42_encoder R130 (recorded, not this hardware's policy): under `WINDOW_POLICY = inherited` a window
above `WINDOW_SIZE` is moved by the inherited amount, and refused where that leaves no window; another
window keeps its start. -/
def Obligations.InheritedWindowFormula : Prop :=
  ∀ s : State, s.cfg.windowPolicy = .inherited →
    (s.pos - 1 + 1 - s.wStart ≤ s.cfg.windowSize → ∀ d, encWindow d s = .next { s with wEnd := s.pos - 1 }) ∧
    (s.cfg.windowSize < s.pos - 1 + 1 - s.wStart →
    ∀ w : Int, w = s.wStart + (s.cfg.windowSize - ((s.pos - 1 : Nat) - s.mp + 1)) →
      (0 ≤ w → w ≤ (s.pos - 1 : Nat) → (s.pos - 1 : Nat) - w + 1 ≤ s.cfg.windowSize →
        encWindow true s = .next { s with wEnd := s.pos - 1, wStart := w.toNat }) ∧
      (w < 0 ∨ (s.pos - 1 : Nat) < w ∨ s.cfg.windowSize < (s.pos - 1 : Nat) - w + 1 →
        encWindow true s = .refused .windowUndefined))

/-- 42_encoder R120, R70, R135 item 5: every token that ENCODE chooses is well formed at its place. -/
def Obligations.ChosenTokensAreWellFormed : Prop :=
  ∀ (cfg : Config) (data : List Byte), cfg.valid → 2 ≤ cfg.minMatch →
    tokensWellFormed cfg.minMatch 0 (greedyTokens cfg data) = true

/-! ### Ends of an operation -/

/-- 42_encoder R131, 43_decoder R160: with its input consumed an operation ends with `STATUS = OK` and
the number of bytes written.
That the working registers keep their values once the operation has ended is the model's choice
(assumption 26; V7 says any value). -/
def Obligations.FinishReportsTheBytesWritten : Prop :=
  ∀ s : State, s.host = [] → s.busy = true →
    ((s.opl = 0 ∧ s.n ≤ s.pos) ∨ (s.opl = 1 ∧ s.n ≤ s.rd)) →
    step s = .next { s with outLen := s.wr, status := .ok, busy := false, done := true }

/-- 60_exceptions R186: `raise` in full.
That the working registers keep their values once the operation has ended is the model's choice
(assumption 26; V7 says any value). -/
def Obligations.RaiseEndsTheOperation : Prop :=
  ∀ (f : Status) (s : State),
    raise f s = .next { s with status := f, outLen := 0, busy := false, done := true }

/-- 60_exceptions R180, R186, 10_state R25, R27: a step of the sequencer that ends the operation in
flight sets `DONE`; what it reports is OK, or OutputBufferExhausted, or, in a DECODE only,
CorruptStream; and a fault reports length 0. A step that does not end it leaves the report alone. -/
def Obligations.OperationsEndInThreeWays : Prop :=
  ∀ s t : State, s.host = [] → s.busy = true → step s = .next t →
    (t.busy = true ∧ t.done = s.done ∧ t.status = s.status ∧ t.outLen = s.outLen) ∨
    (t.busy = false ∧ t.done = true ∧
      (t.status = .ok ∨
        (t.outLen = 0 ∧
          (t.status = .outputBufferExhausted ∨ (t.status = .corruptStream ∧ s.opl = 1)))))

/-! ### The whole machine -/

/-- The invariant of R135 and R163, with the canonical memories, is kept by every step, whatever the
host does. -/
def Obligations.StepKeepsTheInvariant : Prop :=
  ∀ s t : State, Inv s → step s = .next t → Inv t

/-- It holds at reset. -/
def Obligations.ResetMeetsTheInvariant : Prop := Inv State.reset

/-- 20_memory R47, R54: no rule ever generates an index outside the buffers, so no step faults. -/
def Obligations.NoAccessOutsideTheBuffers : Prop :=
  ∀ (s : State) (f : Fault), Inv s → step s ≠ .fault f

/-- 70_reset R214, 00_scope R11: without host accesses the machine never stops: every step answers a
next state. -/
def Obligations.SequencerNeverStops : Prop :=
  ∀ s : State, Inv s → s.host = [] → ∃ t, step s = .next t

/-- 70_reset R214: an operation cannot hang: it ends within one step per byte of input left and one
more. -/
def Obligations.OperationsTerminate : Prop :=
  ∀ s : State, Inv s → s.host = [] → s.busy = true →
    ∃ k t, k ≤ (if s.opl = 0 then s.n - s.pos else s.n - s.rd) + 1 ∧
      Sys2Proof.core.run k s = .next t ∧ Ended t

/-- 70_reset R201, 60_exceptions R197: an idle machine waits for START.
That a working register keeps its value between two operations is the model's choice (assumption 26; V7
says any value). -/
def Obligations.IdleMachineWaits : Prop :=
  ∀ s : State, s.host = [] → s.busy = false → step s = .next s

/-- 20_memory R45: the core never writes IN.
That a store into OUT leaves IN alone also where the given bases overlap is the model's choice (assumption 2;
R48 gives overlapping buffers no behaviour, and START refuses them). -/
def Obligations.CoreNeverWritesInput : Prop :=
  ∀ s t : State, s.host = [] → step s = .next t →
    t.inp = s.inp ∧ t.inFill = s.inFill ∧ t.op = s.op ∧ t.inLen = s.inLen ∧ t.outCap = s.outCap

/-- 20_memory R46, 10_state R36: in ENCODE the core never reads OUT: with any other contents of OUT the same
step answers the same in every register, and each byte of OUT then holds what it holds in the first run, or
is one that neither run has changed.
Where the step ends the operation, that its working registers can still be read is the model's choice
(assumption 26; V7 says any value). -/
def Obligations.EncodeNeverReadsOutput : Prop :=
  ∀ (s t : State) (m : Memory), s.host = [] → s.busy = true → s.opl = 0 → step s = .next t →
    ∃ m', step { s with out := m } = .next { t with out := m' } ∧
      ∀ a, m'.read a = t.out.read a ∨ (m'.read a = m.read a ∧ t.out.read a = s.out.read a)

/-- 20_memory R46, R47, 60_exceptions R187: a step of the sequencer stores no byte of OUT at or above `cap`. A
step of a DECODE stores only at and above its write cursor, below the one it leaves; a step of an ENCODE only
there and at the control byte of its group, so one that raises a fault before its cursor has moved stores
nothing of its token.
Where the step ends the operation, that its working registers can still be read is the model's choice
(assumption 26; V7 says any value). -/
def Obligations.StoresStayInTheBuffer : Prop :=
  ∀ s t : State, s.host = [] → step s = .next t →
    (∀ a, s.cap ≤ a → t.out.read a = s.out.read a) ∧
    (s.opl = 1 → ∀ a, a < s.wr ∨ t.wr ≤ a → t.out.read a = s.out.read a) ∧
    (s.opl = 0 → ∀ a, a ≠ s.ctrlAddr → a < s.wr ∨ t.wr ≤ a → t.out.read a = s.out.read a) ∧
    (s.opl = 0 → t.wr = s.wr → t.out = s.out)

/-- 00_scope R5 to R8, 10_state R20: no step changes the parameters. -/
def Obligations.ParametersNeverChange : Prop :=
  ∀ s t : State, step s = .next t → t.cfg = s.cfg

/-! ### Whole operations -/

/-- 43_decoder R162 (and R150, R163): from any ready state, whatever its registers hold, a DECODE ends,
within one step per byte and one more after START, with exactly what the reference algorithm gives
for the input bytes and the capacity. -/
def Obligations.DecodeRefinesTheReference : Prop :=
  ∀ s : State, Ready s → s.host = [] →
    ∃ k t, k ≤ s.inLen + 1 ∧ endsIn (exec .decode s) k t ∧
      returned t = referenceDecode s.cfg s.outCap (inputBytes s s.inLen)

/-- 42_encoder R134, R136 (and R120, R137, 30_encoding R76): from any ready state that meets the
invariant, an ENCODE ends with the stream of the greedily chosen tokens where that stream fits, and
in OutputBufferExhausted with no result exactly where it does not. -/
def Obligations.EncodeRefinesTheReference : Prop :=
  ∀ s : State, Inv s → Ready s → s.host = [] →
    ∃ k t, k ≤ s.inLen + 1 ∧ endsIn (exec .encode s) k t ∧
      returned t = referenceEncode s.cfg s.outCap (inputBytes s s.inLen)

/-- 43_decoder R165: the round trip. A stream that ENCODE returned with `STATUS = OK`, given to DECODE
with room for the data, decodes to the data. -/
def Obligations.DecodeOfEncodeIsTheInput : Prop :=
  ∀ (s t u : State) (k : Nat), Inv s → Ready s → s.host = [] →
    endsIn (exec .encode s) k t → t.status = .ok →
    Inv u → Ready u → u.host = [] → u.cfg = s.cfg →
    u.inLen = t.outLen → inputBytes u u.inLen = outputBytes t t.outLen → s.inLen ≤ u.outCap →
      ∃ k' v, endsIn (exec .decode u) k' v ∧
        returned v = (.ok, inputBytes s s.inLen)

/-- 42_encoder R135 item 7, 43_decoder R165, 30_encoding R76: with `n + floor(n / 8) + 1` bytes of
capacity an ENCODE succeeds. -/
def Obligations.SufficientCapacityForEncode : Prop :=
  ∀ s : State, Inv s → Ready s → s.host = [] → s.inLen + s.inLen / 8 + 1 ≤ s.outCap →
    ∃ k t, endsIn (exec .encode s) k t ∧ t.status = .ok ∧ t.outLen ≤ s.inLen + s.inLen / 8 + 1

/-- 43_decoder R163, 60_exceptions R181: the capacity of a DECODE is judged exactly: where a capacity
suffices, any capacity from the data's length on gives the same result, and any smaller one gives
OutputBufferExhausted. -/
def Obligations.DecodeCapacityIsExact : Prop :=
  ∀ (cfg : Config) (cap cap' : Nat) (input data : List Byte),
    referenceDecode cfg cap input = (.ok, data) →
      data.length ≤ cap ∧
      referenceDecode cfg cap' input =
        if data.length ≤ cap' then (.ok, data) else (.outputBufferExhausted, [])

/-- 70_reset R201, 10_state R39, 42_encoder R137, 43_decoder R163: the same operation on the same
buffers returns the same result, whatever the machine did before. -/
def Obligations.ResultsForgetThePast : Prop :=
  ∀ (s s' t t' : State) (k k' : Nat),
    Inv s → Inv s' → Ready s → Ready s' → s.host = [] → s'.host = [] →
    s.cfg = s'.cfg → s.inLen = s'.inLen → s.outCap = s'.outCap →
    inputBytes s s.inLen = inputBytes s' s'.inLen →
    (endsIn (exec .encode s) k t → endsIn (exec .encode s') k' t' → returned t = returned t') ∧
    (endsIn (exec .decode s) k t → endsIn (exec .decode s') k' t' → returned t = returned t')

/-! ### Reset and host -/

/-- 10_state R37, 70_reset R200, R201: a hardware reset puts every register that the spec gives a reset
value at that value, whatever was going on, and does not touch the buffers; the state after power-on
has the same values. That the reset is an action of the host, and that the stored bytes of OUT stay in
State after a reset during an operation, where R200 and V1 call OUT unspecified, is the model's
(assumption 18): no host reads them there. -/
def Obligations.ResetLeavesTheBlockIdle : Prop :=
  AtReset State.reset ∧
  ∀ (s : State) (rest : List HostAction), s.host = .reset :: rest →
    ∃ t, step s = .next t ∧ AtReset t ∧ t.inp = s.inp ∧ t.out = s.out ∧ t.host = rest

/-- 70_reset R206, 93_implementation_defined V5: every access of the host while `BUSY = 1`. A write of the
operand registers or of a buffer, a new IN or OUT, and a read of OUT have no meaning; a write of `START` is
ignored; the host may read `BUSY` and `DONE`. That a new IN or OUT counts as an access to the buffer, and that
the other registers and IN can be read, is the model's choice (assumption 6), and so are the refusals of a
write of a read-only register, of upper bits and of a read of the reserved status (assumption 15). -/
def Obligations.HostKeepsOutOfTheOperation : Prop :=
  ∀ (s : State) (rest : List HostAction) (v w a : Nat) (b : Byte) (bytes : List Byte), s.busy = true → v < 2 →
    ((s.host = .write .op v :: rest ∨ s.host = .write .inLen a :: rest ∨
      s.host = .write .outCap a :: rest ∨ s.host = .writeIn a b :: rest ∨
      s.host = .writeOut a b :: rest ∨ s.host = .readOut a :: rest ∨
      s.host = .provideIn bytes :: rest ∨ s.host = .provideOut :: rest) →
      step s = .refused .hostDuringOperation) ∧
    (s.host = .write .start v :: rest → step s = .next { s with host := rest }) ∧
    (s.host = .read .busy :: rest → step s = .next { s with host := rest, hostData := 1 }) ∧
    (s.host = .read .done :: rest → step s = .next
      { s with host := rest, hostData := if s.done then 1 else 0 }) ∧
    (∀ p ∈ [(IfReg.op, s.op.toNat), (.inLen, s.inLen), (.outCap, s.outCap), (.start, 0), (.outLen, s.outLen)],
      s.host = .read p.1 :: rest → step s = .next { s with host := rest, hostData := p.2 }) ∧
    (s.host = .read .status :: rest → s.status ≠ .invalidInput → step s = .next
      { s with host := rest, hostData := match s.status with
          | .ok => 0 | .outputBufferExhausted => 1 | .corruptStream => 2 | .invalidInput => 3 }) ∧
    (s.host = .readIn a :: rest → step s = .next
      { s with host := rest, hostData := (s.inByte a).toNat }) ∧
    (∀ r ∈ [IfReg.busy, .done, .status, .outLen], s.host = .write r w :: rest →
      step s = .refused (.readOnlyRegister r)) ∧
    (∀ r ∈ [IfReg.op, .start], s.host = .write r (w + 2) :: rest → step s = .refused (.upperBits r)) ∧
    (s.host = .read .status :: rest → s.status = .invalidInput → step s = .refused .reservedStatus)

/-- 10_state R21 to R27, 70_reset R202, R204: every access of the host on an idle machine: it writes and
reads the registers, provides and writes IN and OUT, reads IN, reads the result bytes below `OUT_LEN` and some
byte at and above it (the write of 1 to `START` is StepRunsTheHostCommand, the reset ResetLeavesTheBlockIdle).
A new OUT holds no known byte: its prior contents do not matter (R202). That an index of IN or OUT may be any,
at and above `IN_LEN` and `OUT_CAP` too, is the model's choice (assumption 25). That each access is one step, an
action of the host's queue, is the model's choice (assumption 6), and so are the numbers `inFill` and
`outFill` of the unspecified contents (assumption 4). The refusals of a write of a read-only register, of upper
bits and of a read of the reserved status are the model's choice (assumption 15). That a write of one buffer
leaves the other alone also where the given bases overlap is its choice, too (assumption 2; R48 gives
overlapping buffers no behaviour), and so is that the working registers keep their values on an idle machine
(assumption 26). -/
def Obligations.HostWritesAndReads : Prop :=
  ∀ (s : State) (rest : List HostAction) (v a : Nat) (b : Byte) (bytes : List Byte), s.busy = false →
    (s.host = .write .op v :: rest → v < 2 →
      step s = .next { s with host := rest, op := BitVec.ofNat 1 v }) ∧
    (s.host = .write .inLen v :: rest → step s = .next { s with host := rest, inLen := v }) ∧
    (s.host = .write .outCap v :: rest → step s = .next { s with host := rest, outCap := v }) ∧
    (s.host = .write .start 0 :: rest → step s = .next { s with host := rest }) ∧
    (s.host = .provideIn bytes :: rest → ∃ t, step s = .next t ∧
      t = { s with host := rest, inp := t.inp, inFill := s.inFill + 1 } ∧
      inputBytes t bytes.length = bytes) ∧
    (s.host = .provideOut :: rest →
      step s = .next { s with host := rest, out := [], outFill := s.outFill + 1 }) ∧
    (s.host = .writeIn a b :: rest → ∃ t, step s = .next t ∧
      t = { s with host := rest, inp := t.inp } ∧
      t.inByte a = b ∧ ∀ j, j ≠ a → t.inByte j = s.inByte j) ∧
    (s.host = .writeOut a b :: rest → ∃ t, step s = .next t ∧
      t = { s with host := rest, out := t.out } ∧
      t.outByte a = b ∧ ∀ j, j ≠ a → t.outByte j = s.outByte j) ∧
    (s.host = .readIn a :: rest → step s = .next
      { s with host := rest, hostData := (s.inByte a).toNat }) ∧
    (s.host = .readOut a :: rest → a < s.outLen → step s = .next
      { s with host := rest, hostData := (s.outByte a).toNat }) ∧
    (s.host = .read .op :: rest → step s = .next { s with host := rest, hostData := s.op.toNat }) ∧
    (s.host = .read .inLen :: rest → step s = .next { s with host := rest, hostData := s.inLen }) ∧
    (s.host = .read .outCap :: rest → step s = .next { s with host := rest, hostData := s.outCap }) ∧
    (s.host = .read .start :: rest → step s = .next { s with host := rest, hostData := 0 }) ∧
    (s.host = .read .busy :: rest → step s = .next { s with host := rest, hostData := 0 }) ∧
    (s.host = .read .done :: rest → step s = .next
      { s with host := rest, hostData := if s.done then 1 else 0 }) ∧
    (s.host = .read .outLen :: rest → step s = .next { s with host := rest, hostData := s.outLen }) ∧
    (s.host = .read .status :: rest → s.status ≠ .invalidInput → step s = .next
      { s with host := rest, hostData := match s.status with
          | .ok => 0 | .outputBufferExhausted => 1 | .corruptStream => 2 | .invalidInput => 3 }) ∧
    (s.host = .readOut a :: rest → s.outLen ≤ a → ∃ x : Byte, step s = .next
      { s with host := rest, hostData := x.toNat }) ∧
    (∀ r ∈ [IfReg.busy, .done, .status, .outLen], s.host = .write r v :: rest →
      step s = .refused (.readOnlyRegister r)) ∧
    (∀ r ∈ [IfReg.op, .start], s.host = .write r (v + 2) :: rest → step s = .refused (.upperBits r)) ∧
    (s.host = .read .status :: rest → s.status = .invalidInput → step s = .refused .reservedStatus)

/-! ### Virtual words -/

/-- 30_encoding R77 and its table: the virtual word of every instruction fits its width and is read as that
instruction; every word that is read, at any of the four widths, is the virtual word of what it is read
as; only `FIND_PREFIX` has none. -/
def Obligations.VirtualWordsNameTheirInstruction : Prop :=
  (∀ i width w, virtualWord i = some (width, w) →
    w < 2 ^ width ∧ ∃ e, tableWord width w = some e ∧ decode e = .ok i) ∧
  (∀ width w e, tableWord width w = some e →
    ∃ i, decode e = .ok i ∧ virtualWord i = some (width, w)) ∧
  (∀ i, virtualWord i = none ↔ ∃ ws we ss se, i = Instr.findPrefix ws we ss se)

/-! ### Several blocks -/

/-- 20_memory R53, 60_exceptions R195: a step of block `j` is the machine's step at what `j` sees, and every
other block keeps its registers and its OUT. A block with another IN keeps that, too; a block with the same
IN sees exactly what `j` has left there, which is what it saw before unless the host of `j` wrote it while
that block was idle. How a platform holds the blocks is the model's choice (assumption 23).
That two buffers are one exactly when the platform's numbers say so, whatever their bases, is the model's
choice (assumption 23).
That a working register keeps its value between two operations is the model's choice (assumption 26; V7
says any value). -/
def Obligations.BlocksKeepApart : Prop :=
  ∀ (p q : Platform) (j k : Nat) (b c : Block) (s u : State),
    p.step j = .next q → j ≠ k → p.blocks[j]? = some b → p.blocks[k]? = some c →
    p.seen j = some s → p.seen k = some u →
    ∃ t v, step s = .next t ∧ q.seen j = some t ∧ q.seen k = some v ∧
      (b.inAt ≠ c.inAt → v = u) ∧
      (b.inAt = c.inAt → v = { u with inp := t.inp, inFill := t.inFill }) ∧
      (u.busy = true ∨ s.hostWritesIn = false → v = u)

/-- 20_memory R53, 60_exceptions R195: with an OUT each, sharing any IN, blocks that no host touches
complete any schedule of their steps, and each comes to the state it reaches alone in as many steps.
That two buffers are one exactly when the platform's numbers say so, whatever their bases, is the model's
choice (assumption 23).
That the working registers keep their values once the operation has ended is the model's choice
(assumption 26; V7 says any value). -/
def Obligations.ParallelBlocksRunAsIfAlone : Prop :=
  ∀ (p : Platform) (schedule : List Nat),
    Independent p → (∀ j s, p.seen j = some s → Inv s ∧ s.host = []) →
    (∀ j ∈ schedule, j < p.blocks.length) →
    ∃ q, p.run schedule = .next q ∧
      ∀ j s, p.seen j = some s →
        ∃ t, Sys2Proof.core.run (schedule.count j) s = .next t ∧ q.seen j = some t

/-- 20_memory R53, 60_exceptions R195 (U10), 70_reset R206 (V5): no block steps while its OUT is another
block's too, and no host writes an IN that another block with an operation in flight is reading.
That two buffers are one exactly when the platform's numbers say so, whatever their bases, is the model's
choice (assumption 23). -/
def Obligations.SharedBuffersAreGuarded : Prop :=
  ∀ (p : Platform) (j k : Nat) (b c : Block) (s : State),
    j ≠ k → p.blocks[j]? = some b → p.blocks[k]? = some c → p.seen j = some s →
    (b.outAt = c.outAt → p.step j = .refused .outputShared) ∧
    (Independent p → b.inAt = c.inAt → c.core.busy = true → s.hostWritesIn = true →
      p.step j = .refused .hostDuringOperation)
end

