-- ==== Sys2Proof/Laws/State.lean ====
section
/-! SUPPORT. What each named update of State leaves in each field: one lemma per field per update, so
that no proof unfolds a record update. -/

namespace Sys2Proof.Machine

@[simp] theorem stored_op (s : State) (a : Nat) (v : Byte) : (stored s a v).op = s.op := rfl
@[simp] theorem stored_inLen (s : State) (a : Nat) (v : Byte) : (stored s a v).inLen = s.inLen := rfl
@[simp] theorem stored_outCap (s : State) (a : Nat) (v : Byte) : (stored s a v).outCap = s.outCap := rfl
@[simp] theorem stored_busy (s : State) (a : Nat) (v : Byte) : (stored s a v).busy = s.busy := rfl
@[simp] theorem stored_done (s : State) (a : Nat) (v : Byte) : (stored s a v).done = s.done := rfl
@[simp] theorem stored_status (s : State) (a : Nat) (v : Byte) : (stored s a v).status = s.status := rfl
@[simp] theorem stored_outLen (s : State) (a : Nat) (v : Byte) : (stored s a v).outLen = s.outLen := rfl
@[simp] theorem stored_opl (s : State) (a : Nat) (v : Byte) : (stored s a v).opl = s.opl := rfl
@[simp] theorem stored_n (s : State) (a : Nat) (v : Byte) : (stored s a v).n = s.n := rfl
@[simp] theorem stored_cap (s : State) (a : Nat) (v : Byte) : (stored s a v).cap = s.cap := rfl
@[simp] theorem stored_wr (s : State) (a : Nat) (v : Byte) : (stored s a v).wr = s.wr := rfl
@[simp] theorem stored_cnt (s : State) (a : Nat) (v : Byte) : (stored s a v).cnt = s.cnt := rfl
@[simp] theorem stored_pos (s : State) (a : Nat) (v : Byte) : (stored s a v).pos = s.pos := rfl
@[simp] theorem stored_wStart (s : State) (a : Nat) (v : Byte) : (stored s a v).wStart = s.wStart := rfl
@[simp] theorem stored_wEnd (s : State) (a : Nat) (v : Byte) : (stored s a v).wEnd = s.wEnd := rfl
@[simp] theorem stored_ctrlAddr (s : State) (a : Nat) (v : Byte) : (stored s a v).ctrlAddr = s.ctrlAddr := rfl
@[simp] theorem stored_ctrlAcc (s : State) (a : Nat) (v : Byte) : (stored s a v).ctrlAcc = s.ctrlAcc := rfl
@[simp] theorem stored_mp (s : State) (a : Nat) (v : Byte) : (stored s a v).mp = s.mp := rfl
@[simp] theorem stored_ml (s : State) (a : Nat) (v : Byte) : (stored s a v).ml = s.ml := rfl
@[simp] theorem stored_isMatch (s : State) (a : Nat) (v : Byte) : (stored s a v).isMatch = s.isMatch := rfl
@[simp] theorem stored_offset (s : State) (a : Nat) (v : Byte) : (stored s a v).offset = s.offset := rfl
@[simp] theorem stored_length (s : State) (a : Nat) (v : Byte) : (stored s a v).length = s.length := rfl
@[simp] theorem stored_c (s : State) (a : Nat) (v : Byte) : (stored s a v).c = s.c := rfl
@[simp] theorem stored_rd (s : State) (a : Nat) (v : Byte) : (stored s a v).rd = s.rd := rfl
@[simp] theorem stored_ctrl (s : State) (a : Nat) (v : Byte) : (stored s a v).ctrl = s.ctrl := rfl
@[simp] theorem stored_b1 (s : State) (a : Nat) (v : Byte) : (stored s a v).b1 = s.b1 := rfl
@[simp] theorem stored_b2 (s : State) (a : Nat) (v : Byte) : (stored s a v).b2 = s.b2 := rfl
@[simp] theorem stored_src (s : State) (a : Nat) (v : Byte) : (stored s a v).src = s.src := rfl
@[simp] theorem stored_i (s : State) (a : Nat) (v : Byte) : (stored s a v).i = s.i := rfl
@[simp] theorem stored_p (s : State) (a : Nat) (v : Byte) : (stored s a v).p = s.p := rfl
@[simp] theorem stored_k (s : State) (a : Nat) (v : Byte) : (stored s a v).k = s.k := rfl
@[simp] theorem stored_bestPos (s : State) (a : Nat) (v : Byte) : (stored s a v).bestPos = s.bestPos := rfl
@[simp] theorem stored_bestLen (s : State) (a : Nat) (v : Byte) : (stored s a v).bestLen = s.bestLen := rfl
@[simp] theorem stored_matchPosition (s : State) (a : Nat) (v : Byte) : (stored s a v).matchPosition = s.matchPosition := rfl
@[simp] theorem stored_matchLength (s : State) (a : Nat) (v : Byte) : (stored s a v).matchLength = s.matchLength := rfl
@[simp] theorem stored_inp (s : State) (a : Nat) (v : Byte) : (stored s a v).inp = s.inp := rfl
@[simp] theorem stored_out (s : State) (a : Nat) (v : Byte) : (stored s a v).out = s.out.write a v := rfl
@[simp] theorem stored_cfg (s : State) (a : Nat) (v : Byte) : (stored s a v).cfg = s.cfg := rfl
@[simp] theorem stored_host (s : State) (a : Nat) (v : Byte) : (stored s a v).host = s.host := rfl
@[simp] theorem stored_hostData (s : State) (a : Nat) (v : Byte) : (stored s a v).hostData = s.hostData := rfl
@[simp] theorem stored_inFill (s : State) (a : Nat) (v : Byte) : (stored s a v).inFill = s.inFill := rfl
@[simp] theorem stored_outFill (s : State) (a : Nat) (v : Byte) : (stored s a v).outFill = s.outFill := rfl
@[simp] theorem stored_drawn (s : State) (a : Nat) (v : Byte) : (stored s a v).drawn = s.drawn := rfl

@[simp] theorem appended_op (s : State) (v : Byte) : (appended s v).op = s.op := rfl
@[simp] theorem appended_inLen (s : State) (v : Byte) : (appended s v).inLen = s.inLen := rfl
@[simp] theorem appended_outCap (s : State) (v : Byte) : (appended s v).outCap = s.outCap := rfl
@[simp] theorem appended_busy (s : State) (v : Byte) : (appended s v).busy = s.busy := rfl
@[simp] theorem appended_done (s : State) (v : Byte) : (appended s v).done = s.done := rfl
@[simp] theorem appended_status (s : State) (v : Byte) : (appended s v).status = s.status := rfl
@[simp] theorem appended_outLen (s : State) (v : Byte) : (appended s v).outLen = s.outLen := rfl
@[simp] theorem appended_opl (s : State) (v : Byte) : (appended s v).opl = s.opl := rfl
@[simp] theorem appended_n (s : State) (v : Byte) : (appended s v).n = s.n := rfl
@[simp] theorem appended_cap (s : State) (v : Byte) : (appended s v).cap = s.cap := rfl
@[simp] theorem appended_wr (s : State) (v : Byte) : (appended s v).wr = s.wr + 1 := rfl
@[simp] theorem appended_cnt (s : State) (v : Byte) : (appended s v).cnt = s.cnt := rfl
@[simp] theorem appended_pos (s : State) (v : Byte) : (appended s v).pos = s.pos := rfl
@[simp] theorem appended_wStart (s : State) (v : Byte) : (appended s v).wStart = s.wStart := rfl
@[simp] theorem appended_wEnd (s : State) (v : Byte) : (appended s v).wEnd = s.wEnd := rfl
@[simp] theorem appended_ctrlAddr (s : State) (v : Byte) : (appended s v).ctrlAddr = s.ctrlAddr := rfl
@[simp] theorem appended_ctrlAcc (s : State) (v : Byte) : (appended s v).ctrlAcc = s.ctrlAcc := rfl
@[simp] theorem appended_mp (s : State) (v : Byte) : (appended s v).mp = s.mp := rfl
@[simp] theorem appended_ml (s : State) (v : Byte) : (appended s v).ml = s.ml := rfl
@[simp] theorem appended_isMatch (s : State) (v : Byte) : (appended s v).isMatch = s.isMatch := rfl
@[simp] theorem appended_offset (s : State) (v : Byte) : (appended s v).offset = s.offset := rfl
@[simp] theorem appended_length (s : State) (v : Byte) : (appended s v).length = s.length := rfl
@[simp] theorem appended_c (s : State) (v : Byte) : (appended s v).c = s.c := rfl
@[simp] theorem appended_rd (s : State) (v : Byte) : (appended s v).rd = s.rd := rfl
@[simp] theorem appended_ctrl (s : State) (v : Byte) : (appended s v).ctrl = s.ctrl := rfl
@[simp] theorem appended_b1 (s : State) (v : Byte) : (appended s v).b1 = s.b1 := rfl
@[simp] theorem appended_b2 (s : State) (v : Byte) : (appended s v).b2 = s.b2 := rfl
@[simp] theorem appended_src (s : State) (v : Byte) : (appended s v).src = s.src := rfl
@[simp] theorem appended_i (s : State) (v : Byte) : (appended s v).i = s.i := rfl
@[simp] theorem appended_p (s : State) (v : Byte) : (appended s v).p = s.p := rfl
@[simp] theorem appended_k (s : State) (v : Byte) : (appended s v).k = s.k := rfl
@[simp] theorem appended_bestPos (s : State) (v : Byte) : (appended s v).bestPos = s.bestPos := rfl
@[simp] theorem appended_bestLen (s : State) (v : Byte) : (appended s v).bestLen = s.bestLen := rfl
@[simp] theorem appended_matchPosition (s : State) (v : Byte) : (appended s v).matchPosition = s.matchPosition := rfl
@[simp] theorem appended_matchLength (s : State) (v : Byte) : (appended s v).matchLength = s.matchLength := rfl
@[simp] theorem appended_inp (s : State) (v : Byte) : (appended s v).inp = s.inp := rfl
@[simp] theorem appended_out (s : State) (v : Byte) : (appended s v).out = s.out.write s.wr v := rfl
@[simp] theorem appended_cfg (s : State) (v : Byte) : (appended s v).cfg = s.cfg := rfl
@[simp] theorem appended_host (s : State) (v : Byte) : (appended s v).host = s.host := rfl
@[simp] theorem appended_hostData (s : State) (v : Byte) : (appended s v).hostData = s.hostData := rfl
@[simp] theorem appended_inFill (s : State) (v : Byte) : (appended s v).inFill = s.inFill := rfl
@[simp] theorem appended_outFill (s : State) (v : Byte) : (appended s v).outFill = s.outFill := rfl
@[simp] theorem appended_drawn (s : State) (v : Byte) : (appended s v).drawn = s.drawn := rfl

@[simp] theorem raised_op (f : Status) (s : State) : (raised f s).op = s.op := rfl
@[simp] theorem raised_inLen (f : Status) (s : State) : (raised f s).inLen = s.inLen := rfl
@[simp] theorem raised_outCap (f : Status) (s : State) : (raised f s).outCap = s.outCap := rfl
@[simp] theorem raised_busy (f : Status) (s : State) : (raised f s).busy = false := rfl
@[simp] theorem raised_done (f : Status) (s : State) : (raised f s).done = true := rfl
@[simp] theorem raised_status (f : Status) (s : State) : (raised f s).status = f := rfl
@[simp] theorem raised_outLen (f : Status) (s : State) : (raised f s).outLen = 0 := rfl
@[simp] theorem raised_opl (f : Status) (s : State) : (raised f s).opl = s.opl := rfl
@[simp] theorem raised_n (f : Status) (s : State) : (raised f s).n = s.n := rfl
@[simp] theorem raised_cap (f : Status) (s : State) : (raised f s).cap = s.cap := rfl
@[simp] theorem raised_wr (f : Status) (s : State) : (raised f s).wr = s.wr := rfl
@[simp] theorem raised_cnt (f : Status) (s : State) : (raised f s).cnt = s.cnt := rfl
@[simp] theorem raised_pos (f : Status) (s : State) : (raised f s).pos = s.pos := rfl
@[simp] theorem raised_wStart (f : Status) (s : State) : (raised f s).wStart = s.wStart := rfl
@[simp] theorem raised_wEnd (f : Status) (s : State) : (raised f s).wEnd = s.wEnd := rfl
@[simp] theorem raised_ctrlAddr (f : Status) (s : State) : (raised f s).ctrlAddr = s.ctrlAddr := rfl
@[simp] theorem raised_ctrlAcc (f : Status) (s : State) : (raised f s).ctrlAcc = s.ctrlAcc := rfl
@[simp] theorem raised_mp (f : Status) (s : State) : (raised f s).mp = s.mp := rfl
@[simp] theorem raised_ml (f : Status) (s : State) : (raised f s).ml = s.ml := rfl
@[simp] theorem raised_isMatch (f : Status) (s : State) : (raised f s).isMatch = s.isMatch := rfl
@[simp] theorem raised_offset (f : Status) (s : State) : (raised f s).offset = s.offset := rfl
@[simp] theorem raised_length (f : Status) (s : State) : (raised f s).length = s.length := rfl
@[simp] theorem raised_c (f : Status) (s : State) : (raised f s).c = s.c := rfl
@[simp] theorem raised_rd (f : Status) (s : State) : (raised f s).rd = s.rd := rfl
@[simp] theorem raised_ctrl (f : Status) (s : State) : (raised f s).ctrl = s.ctrl := rfl
@[simp] theorem raised_b1 (f : Status) (s : State) : (raised f s).b1 = s.b1 := rfl
@[simp] theorem raised_b2 (f : Status) (s : State) : (raised f s).b2 = s.b2 := rfl
@[simp] theorem raised_src (f : Status) (s : State) : (raised f s).src = s.src := rfl
@[simp] theorem raised_i (f : Status) (s : State) : (raised f s).i = s.i := rfl
@[simp] theorem raised_p (f : Status) (s : State) : (raised f s).p = s.p := rfl
@[simp] theorem raised_k (f : Status) (s : State) : (raised f s).k = s.k := rfl
@[simp] theorem raised_bestPos (f : Status) (s : State) : (raised f s).bestPos = s.bestPos := rfl
@[simp] theorem raised_bestLen (f : Status) (s : State) : (raised f s).bestLen = s.bestLen := rfl
@[simp] theorem raised_matchPosition (f : Status) (s : State) : (raised f s).matchPosition = s.matchPosition := rfl
@[simp] theorem raised_matchLength (f : Status) (s : State) : (raised f s).matchLength = s.matchLength := rfl
@[simp] theorem raised_inp (f : Status) (s : State) : (raised f s).inp = s.inp := rfl
@[simp] theorem raised_out (f : Status) (s : State) : (raised f s).out = s.out := rfl
@[simp] theorem raised_cfg (f : Status) (s : State) : (raised f s).cfg = s.cfg := rfl
@[simp] theorem raised_host (f : Status) (s : State) : (raised f s).host = s.host := rfl
@[simp] theorem raised_hostData (f : Status) (s : State) : (raised f s).hostData = s.hostData := rfl
@[simp] theorem raised_inFill (f : Status) (s : State) : (raised f s).inFill = s.inFill := rfl
@[simp] theorem raised_outFill (f : Status) (s : State) : (raised f s).outFill = s.outFill := rfl
@[simp] theorem raised_drawn (f : Status) (s : State) : (raised f s).drawn = s.drawn := rfl

@[simp] theorem finished_op (s : State) : (finished s).op = s.op := rfl
@[simp] theorem finished_inLen (s : State) : (finished s).inLen = s.inLen := rfl
@[simp] theorem finished_outCap (s : State) : (finished s).outCap = s.outCap := rfl
@[simp] theorem finished_busy (s : State) : (finished s).busy = false := rfl
@[simp] theorem finished_done (s : State) : (finished s).done = true := rfl
@[simp] theorem finished_status (s : State) : (finished s).status = .ok := rfl
@[simp] theorem finished_outLen (s : State) : (finished s).outLen = s.wr := rfl
@[simp] theorem finished_opl (s : State) : (finished s).opl = s.opl := rfl
@[simp] theorem finished_n (s : State) : (finished s).n = s.n := rfl
@[simp] theorem finished_cap (s : State) : (finished s).cap = s.cap := rfl
@[simp] theorem finished_wr (s : State) : (finished s).wr = s.wr := rfl
@[simp] theorem finished_cnt (s : State) : (finished s).cnt = s.cnt := rfl
@[simp] theorem finished_pos (s : State) : (finished s).pos = s.pos := rfl
@[simp] theorem finished_wStart (s : State) : (finished s).wStart = s.wStart := rfl
@[simp] theorem finished_wEnd (s : State) : (finished s).wEnd = s.wEnd := rfl
@[simp] theorem finished_ctrlAddr (s : State) : (finished s).ctrlAddr = s.ctrlAddr := rfl
@[simp] theorem finished_ctrlAcc (s : State) : (finished s).ctrlAcc = s.ctrlAcc := rfl
@[simp] theorem finished_mp (s : State) : (finished s).mp = s.mp := rfl
@[simp] theorem finished_ml (s : State) : (finished s).ml = s.ml := rfl
@[simp] theorem finished_isMatch (s : State) : (finished s).isMatch = s.isMatch := rfl
@[simp] theorem finished_offset (s : State) : (finished s).offset = s.offset := rfl
@[simp] theorem finished_length (s : State) : (finished s).length = s.length := rfl
@[simp] theorem finished_c (s : State) : (finished s).c = s.c := rfl
@[simp] theorem finished_rd (s : State) : (finished s).rd = s.rd := rfl
@[simp] theorem finished_ctrl (s : State) : (finished s).ctrl = s.ctrl := rfl
@[simp] theorem finished_b1 (s : State) : (finished s).b1 = s.b1 := rfl
@[simp] theorem finished_b2 (s : State) : (finished s).b2 = s.b2 := rfl
@[simp] theorem finished_src (s : State) : (finished s).src = s.src := rfl
@[simp] theorem finished_i (s : State) : (finished s).i = s.i := rfl
@[simp] theorem finished_p (s : State) : (finished s).p = s.p := rfl
@[simp] theorem finished_k (s : State) : (finished s).k = s.k := rfl
@[simp] theorem finished_bestPos (s : State) : (finished s).bestPos = s.bestPos := rfl
@[simp] theorem finished_bestLen (s : State) : (finished s).bestLen = s.bestLen := rfl
@[simp] theorem finished_matchPosition (s : State) : (finished s).matchPosition = s.matchPosition := rfl
@[simp] theorem finished_matchLength (s : State) : (finished s).matchLength = s.matchLength := rfl
@[simp] theorem finished_inp (s : State) : (finished s).inp = s.inp := rfl
@[simp] theorem finished_out (s : State) : (finished s).out = s.out := rfl
@[simp] theorem finished_cfg (s : State) : (finished s).cfg = s.cfg := rfl
@[simp] theorem finished_host (s : State) : (finished s).host = s.host := rfl
@[simp] theorem finished_hostData (s : State) : (finished s).hostData = s.hostData := rfl
@[simp] theorem finished_inFill (s : State) : (finished s).inFill = s.inFill := rfl
@[simp] theorem finished_outFill (s : State) : (finished s).outFill = s.outFill := rfl
@[simp] theorem finished_drawn (s : State) : (finished s).drawn = s.drawn := rfl

@[simp] theorem latch_op (o : OpCode) (s : State) : (latch o s).op = s.op := rfl
@[simp] theorem latch_inLen (o : OpCode) (s : State) : (latch o s).inLen = s.inLen := rfl
@[simp] theorem latch_outCap (o : OpCode) (s : State) : (latch o s).outCap = s.outCap := rfl
@[simp] theorem latch_busy (o : OpCode) (s : State) : (latch o s).busy = true := rfl
@[simp] theorem latch_done (o : OpCode) (s : State) : (latch o s).done = false := rfl
@[simp] theorem latch_status (o : OpCode) (s : State) : (latch o s).status = s.status := rfl
@[simp] theorem latch_outLen (o : OpCode) (s : State) : (latch o s).outLen = s.outLen := rfl
@[simp] theorem latch_opl (o : OpCode) (s : State) : (latch o s).opl = o := rfl
@[simp] theorem latch_n (o : OpCode) (s : State) : (latch o s).n = s.inLen := rfl
@[simp] theorem latch_cap (o : OpCode) (s : State) : (latch o s).cap = s.outCap := rfl
@[simp] theorem latch_wr (o : OpCode) (s : State) : (latch o s).wr = s.wr := rfl
@[simp] theorem latch_cnt (o : OpCode) (s : State) : (latch o s).cnt = s.cnt := rfl
@[simp] theorem latch_pos (o : OpCode) (s : State) : (latch o s).pos = s.pos := rfl
@[simp] theorem latch_wStart (o : OpCode) (s : State) : (latch o s).wStart = s.wStart := rfl
@[simp] theorem latch_wEnd (o : OpCode) (s : State) : (latch o s).wEnd = s.wEnd := rfl
@[simp] theorem latch_ctrlAddr (o : OpCode) (s : State) : (latch o s).ctrlAddr = s.ctrlAddr := rfl
@[simp] theorem latch_ctrlAcc (o : OpCode) (s : State) : (latch o s).ctrlAcc = s.ctrlAcc := rfl
@[simp] theorem latch_mp (o : OpCode) (s : State) : (latch o s).mp = s.mp := rfl
@[simp] theorem latch_ml (o : OpCode) (s : State) : (latch o s).ml = s.ml := rfl
@[simp] theorem latch_isMatch (o : OpCode) (s : State) : (latch o s).isMatch = s.isMatch := rfl
@[simp] theorem latch_offset (o : OpCode) (s : State) : (latch o s).offset = s.offset := rfl
@[simp] theorem latch_length (o : OpCode) (s : State) : (latch o s).length = s.length := rfl
@[simp] theorem latch_c (o : OpCode) (s : State) : (latch o s).c = s.c := rfl
@[simp] theorem latch_rd (o : OpCode) (s : State) : (latch o s).rd = s.rd := rfl
@[simp] theorem latch_ctrl (o : OpCode) (s : State) : (latch o s).ctrl = s.ctrl := rfl
@[simp] theorem latch_b1 (o : OpCode) (s : State) : (latch o s).b1 = s.b1 := rfl
@[simp] theorem latch_b2 (o : OpCode) (s : State) : (latch o s).b2 = s.b2 := rfl
@[simp] theorem latch_src (o : OpCode) (s : State) : (latch o s).src = s.src := rfl
@[simp] theorem latch_i (o : OpCode) (s : State) : (latch o s).i = s.i := rfl
@[simp] theorem latch_p (o : OpCode) (s : State) : (latch o s).p = s.p := rfl
@[simp] theorem latch_k (o : OpCode) (s : State) : (latch o s).k = s.k := rfl
@[simp] theorem latch_bestPos (o : OpCode) (s : State) : (latch o s).bestPos = s.bestPos := rfl
@[simp] theorem latch_bestLen (o : OpCode) (s : State) : (latch o s).bestLen = s.bestLen := rfl
@[simp] theorem latch_matchPosition (o : OpCode) (s : State) : (latch o s).matchPosition = s.matchPosition := rfl
@[simp] theorem latch_matchLength (o : OpCode) (s : State) : (latch o s).matchLength = s.matchLength := rfl
@[simp] theorem latch_inp (o : OpCode) (s : State) : (latch o s).inp = s.inp := rfl
@[simp] theorem latch_out (o : OpCode) (s : State) : (latch o s).out = s.out := rfl
@[simp] theorem latch_cfg (o : OpCode) (s : State) : (latch o s).cfg = s.cfg := rfl
@[simp] theorem latch_host (o : OpCode) (s : State) : (latch o s).host = s.host := rfl
@[simp] theorem latch_hostData (o : OpCode) (s : State) : (latch o s).hostData = s.hostData := rfl
@[simp] theorem latch_inFill (o : OpCode) (s : State) : (latch o s).inFill = s.inFill := rfl
@[simp] theorem latch_outFill (o : OpCode) (s : State) : (latch o s).outFill = s.outFill + 1 := rfl
@[simp] theorem latch_drawn (o : OpCode) (s : State) : (latch o s).drawn = s.drawn := rfl

@[simp] theorem found_op (b : Scan) (s : State) : (found b s).op = s.op := rfl
@[simp] theorem found_inLen (b : Scan) (s : State) : (found b s).inLen = s.inLen := rfl
@[simp] theorem found_outCap (b : Scan) (s : State) : (found b s).outCap = s.outCap := rfl
@[simp] theorem found_busy (b : Scan) (s : State) : (found b s).busy = s.busy := rfl
@[simp] theorem found_done (b : Scan) (s : State) : (found b s).done = s.done := rfl
@[simp] theorem found_status (b : Scan) (s : State) : (found b s).status = s.status := rfl
@[simp] theorem found_outLen (b : Scan) (s : State) : (found b s).outLen = s.outLen := rfl
@[simp] theorem found_opl (b : Scan) (s : State) : (found b s).opl = s.opl := rfl
@[simp] theorem found_n (b : Scan) (s : State) : (found b s).n = s.n := rfl
@[simp] theorem found_cap (b : Scan) (s : State) : (found b s).cap = s.cap := rfl
@[simp] theorem found_wr (b : Scan) (s : State) : (found b s).wr = s.wr := rfl
@[simp] theorem found_cnt (b : Scan) (s : State) : (found b s).cnt = s.cnt := rfl
@[simp] theorem found_pos (b : Scan) (s : State) : (found b s).pos = s.pos := rfl
@[simp] theorem found_wStart (b : Scan) (s : State) : (found b s).wStart = s.wStart := rfl
@[simp] theorem found_wEnd (b : Scan) (s : State) : (found b s).wEnd = s.wEnd := rfl
@[simp] theorem found_ctrlAddr (b : Scan) (s : State) : (found b s).ctrlAddr = s.ctrlAddr := rfl
@[simp] theorem found_ctrlAcc (b : Scan) (s : State) : (found b s).ctrlAcc = s.ctrlAcc := rfl
@[simp] theorem found_mp (b : Scan) (s : State) : (found b s).mp = s.mp := rfl
@[simp] theorem found_ml (b : Scan) (s : State) : (found b s).ml = s.ml := rfl
@[simp] theorem found_isMatch (b : Scan) (s : State) : (found b s).isMatch = s.isMatch := rfl
@[simp] theorem found_offset (b : Scan) (s : State) : (found b s).offset = s.offset := rfl
@[simp] theorem found_length (b : Scan) (s : State) : (found b s).length = s.length := rfl
@[simp] theorem found_c (b : Scan) (s : State) : (found b s).c = s.c := rfl
@[simp] theorem found_rd (b : Scan) (s : State) : (found b s).rd = s.rd := rfl
@[simp] theorem found_ctrl (b : Scan) (s : State) : (found b s).ctrl = s.ctrl := rfl
@[simp] theorem found_b1 (b : Scan) (s : State) : (found b s).b1 = s.b1 := rfl
@[simp] theorem found_b2 (b : Scan) (s : State) : (found b s).b2 = s.b2 := rfl
@[simp] theorem found_src (b : Scan) (s : State) : (found b s).src = s.src := rfl
@[simp] theorem found_i (b : Scan) (s : State) : (found b s).i = s.i := rfl
@[simp] theorem found_p (b : Scan) (s : State) : (found b s).p = b.p := rfl
@[simp] theorem found_k (b : Scan) (s : State) : (found b s).k = BitVec.ofNat 4 b.k := rfl
@[simp] theorem found_bestPos (b : Scan) (s : State) : (found b s).bestPos = b.bestPos := rfl
@[simp] theorem found_bestLen (b : Scan) (s : State) : (found b s).bestLen = BitVec.ofNat 4 b.bestLen := rfl
@[simp] theorem found_matchPosition (b : Scan) (s : State) : (found b s).matchPosition = b.bestPos := rfl
@[simp] theorem found_matchLength (b : Scan) (s : State) : (found b s).matchLength = BitVec.ofNat 4 (reportedLength s.cfg.minMatch b.bestLen) := rfl
@[simp] theorem found_inp (b : Scan) (s : State) : (found b s).inp = s.inp := rfl
@[simp] theorem found_out (b : Scan) (s : State) : (found b s).out = s.out := rfl
@[simp] theorem found_cfg (b : Scan) (s : State) : (found b s).cfg = s.cfg := rfl
@[simp] theorem found_host (b : Scan) (s : State) : (found b s).host = s.host := rfl
@[simp] theorem found_hostData (b : Scan) (s : State) : (found b s).hostData = s.hostData := rfl
@[simp] theorem found_inFill (b : Scan) (s : State) : (found b s).inFill = s.inFill := rfl
@[simp] theorem found_outFill (b : Scan) (s : State) : (found b s).outFill = s.outFill := rfl
@[simp] theorem found_drawn (b : Scan) (s : State) : (found b s).drawn = s.drawn := rfl

@[simp] theorem opened_op (s : State) : (opened s).op = s.op := rfl
@[simp] theorem opened_inLen (s : State) : (opened s).inLen = s.inLen := rfl
@[simp] theorem opened_outCap (s : State) : (opened s).outCap = s.outCap := rfl
@[simp] theorem opened_busy (s : State) : (opened s).busy = s.busy := rfl
@[simp] theorem opened_done (s : State) : (opened s).done = s.done := rfl
@[simp] theorem opened_status (s : State) : (opened s).status = s.status := rfl
@[simp] theorem opened_outLen (s : State) : (opened s).outLen = s.outLen := rfl
@[simp] theorem opened_opl (s : State) : (opened s).opl = s.opl := rfl
@[simp] theorem opened_n (s : State) : (opened s).n = s.n := rfl
@[simp] theorem opened_cap (s : State) : (opened s).cap = s.cap := rfl
@[simp] theorem opened_wr (s : State) : (opened s).wr = s.wr + 1 := rfl
@[simp] theorem opened_cnt (s : State) : (opened s).cnt = s.cnt := rfl
@[simp] theorem opened_pos (s : State) : (opened s).pos = s.pos := rfl
@[simp] theorem opened_wStart (s : State) : (opened s).wStart = s.wStart := rfl
@[simp] theorem opened_wEnd (s : State) : (opened s).wEnd = s.wEnd := rfl
@[simp] theorem opened_ctrlAddr (s : State) : (opened s).ctrlAddr = s.wr := rfl
@[simp] theorem opened_ctrlAcc (s : State) : (opened s).ctrlAcc = 0 := rfl
@[simp] theorem opened_mp (s : State) : (opened s).mp = s.mp := rfl
@[simp] theorem opened_ml (s : State) : (opened s).ml = s.ml := rfl
@[simp] theorem opened_isMatch (s : State) : (opened s).isMatch = s.isMatch := rfl
@[simp] theorem opened_offset (s : State) : (opened s).offset = s.offset := rfl
@[simp] theorem opened_length (s : State) : (opened s).length = s.length := rfl
@[simp] theorem opened_c (s : State) : (opened s).c = s.c := rfl
@[simp] theorem opened_rd (s : State) : (opened s).rd = s.rd := rfl
@[simp] theorem opened_ctrl (s : State) : (opened s).ctrl = s.ctrl := rfl
@[simp] theorem opened_b1 (s : State) : (opened s).b1 = s.b1 := rfl
@[simp] theorem opened_b2 (s : State) : (opened s).b2 = s.b2 := rfl
@[simp] theorem opened_src (s : State) : (opened s).src = s.src := rfl
@[simp] theorem opened_i (s : State) : (opened s).i = s.i := rfl
@[simp] theorem opened_p (s : State) : (opened s).p = s.p := rfl
@[simp] theorem opened_k (s : State) : (opened s).k = s.k := rfl
@[simp] theorem opened_bestPos (s : State) : (opened s).bestPos = s.bestPos := rfl
@[simp] theorem opened_bestLen (s : State) : (opened s).bestLen = s.bestLen := rfl
@[simp] theorem opened_matchPosition (s : State) : (opened s).matchPosition = s.matchPosition := rfl
@[simp] theorem opened_matchLength (s : State) : (opened s).matchLength = s.matchLength := rfl
@[simp] theorem opened_inp (s : State) : (opened s).inp = s.inp := rfl
@[simp] theorem opened_out (s : State) : (opened s).out = s.out.write s.wr 0 := rfl
@[simp] theorem opened_cfg (s : State) : (opened s).cfg = s.cfg := rfl
@[simp] theorem opened_host (s : State) : (opened s).host = s.host := rfl
@[simp] theorem opened_hostData (s : State) : (opened s).hostData = s.hostData := rfl
@[simp] theorem opened_inFill (s : State) : (opened s).inFill = s.inFill := rfl
@[simp] theorem opened_outFill (s : State) : (opened s).outFill = s.outFill := rfl
@[simp] theorem opened_drawn (s : State) : (opened s).drawn = s.drawn := rfl

@[simp] theorem marked_op (s : State) : (marked s).op = s.op := rfl
@[simp] theorem marked_inLen (s : State) : (marked s).inLen = s.inLen := rfl
@[simp] theorem marked_outCap (s : State) : (marked s).outCap = s.outCap := rfl
@[simp] theorem marked_busy (s : State) : (marked s).busy = s.busy := rfl
@[simp] theorem marked_done (s : State) : (marked s).done = s.done := rfl
@[simp] theorem marked_status (s : State) : (marked s).status = s.status := rfl
@[simp] theorem marked_outLen (s : State) : (marked s).outLen = s.outLen := rfl
@[simp] theorem marked_opl (s : State) : (marked s).opl = s.opl := rfl
@[simp] theorem marked_n (s : State) : (marked s).n = s.n := rfl
@[simp] theorem marked_cap (s : State) : (marked s).cap = s.cap := rfl
@[simp] theorem marked_wr (s : State) : (marked s).wr = s.wr := rfl
@[simp] theorem marked_cnt (s : State) : (marked s).cnt = s.cnt := rfl
@[simp] theorem marked_pos (s : State) : (marked s).pos = s.pos := rfl
@[simp] theorem marked_wStart (s : State) : (marked s).wStart = s.wStart := rfl
@[simp] theorem marked_wEnd (s : State) : (marked s).wEnd = s.wEnd := rfl
@[simp] theorem marked_ctrlAddr (s : State) : (marked s).ctrlAddr = s.ctrlAddr := rfl
@[simp] theorem marked_ctrlAcc (s : State) : (marked s).ctrlAcc = markedControl s.ctrlAcc s.cnt := rfl
@[simp] theorem marked_mp (s : State) : (marked s).mp = s.mp := rfl
@[simp] theorem marked_ml (s : State) : (marked s).ml = s.ml := rfl
@[simp] theorem marked_isMatch (s : State) : (marked s).isMatch = s.isMatch := rfl
@[simp] theorem marked_offset (s : State) : (marked s).offset = s.offset := rfl
@[simp] theorem marked_length (s : State) : (marked s).length = s.length := rfl
@[simp] theorem marked_c (s : State) : (marked s).c = s.c := rfl
@[simp] theorem marked_rd (s : State) : (marked s).rd = s.rd := rfl
@[simp] theorem marked_ctrl (s : State) : (marked s).ctrl = s.ctrl := rfl
@[simp] theorem marked_b1 (s : State) : (marked s).b1 = s.b1 := rfl
@[simp] theorem marked_b2 (s : State) : (marked s).b2 = s.b2 := rfl
@[simp] theorem marked_src (s : State) : (marked s).src = s.src := rfl
@[simp] theorem marked_i (s : State) : (marked s).i = s.i := rfl
@[simp] theorem marked_p (s : State) : (marked s).p = s.p := rfl
@[simp] theorem marked_k (s : State) : (marked s).k = s.k := rfl
@[simp] theorem marked_bestPos (s : State) : (marked s).bestPos = s.bestPos := rfl
@[simp] theorem marked_bestLen (s : State) : (marked s).bestLen = s.bestLen := rfl
@[simp] theorem marked_matchPosition (s : State) : (marked s).matchPosition = s.matchPosition := rfl
@[simp] theorem marked_matchLength (s : State) : (marked s).matchLength = s.matchLength := rfl
@[simp] theorem marked_inp (s : State) : (marked s).inp = s.inp := rfl
@[simp] theorem marked_out (s : State) : (marked s).out = s.out.write s.ctrlAddr (markedControl s.ctrlAcc s.cnt) := rfl
@[simp] theorem marked_cfg (s : State) : (marked s).cfg = s.cfg := rfl
@[simp] theorem marked_host (s : State) : (marked s).host = s.host := rfl
@[simp] theorem marked_hostData (s : State) : (marked s).hostData = s.hostData := rfl
@[simp] theorem marked_inFill (s : State) : (marked s).inFill = s.inFill := rfl
@[simp] theorem marked_outFill (s : State) : (marked s).outFill = s.outFill := rfl
@[simp] theorem marked_drawn (s : State) : (marked s).drawn = s.drawn := rfl

@[simp] theorem counted_op (s : State) : (counted s).op = s.op := rfl
@[simp] theorem counted_inLen (s : State) : (counted s).inLen = s.inLen := rfl
@[simp] theorem counted_outCap (s : State) : (counted s).outCap = s.outCap := rfl
@[simp] theorem counted_busy (s : State) : (counted s).busy = s.busy := rfl
@[simp] theorem counted_done (s : State) : (counted s).done = s.done := rfl
@[simp] theorem counted_status (s : State) : (counted s).status = s.status := rfl
@[simp] theorem counted_outLen (s : State) : (counted s).outLen = s.outLen := rfl
@[simp] theorem counted_opl (s : State) : (counted s).opl = s.opl := rfl
@[simp] theorem counted_n (s : State) : (counted s).n = s.n := rfl
@[simp] theorem counted_cap (s : State) : (counted s).cap = s.cap := rfl
@[simp] theorem counted_wr (s : State) : (counted s).wr = s.wr := rfl
@[simp] theorem counted_cnt (s : State) : (counted s).cnt = s.cnt + 1 := rfl
@[simp] theorem counted_pos (s : State) : (counted s).pos = s.pos := rfl
@[simp] theorem counted_wStart (s : State) : (counted s).wStart = s.wStart := rfl
@[simp] theorem counted_wEnd (s : State) : (counted s).wEnd = s.wEnd := rfl
@[simp] theorem counted_ctrlAddr (s : State) : (counted s).ctrlAddr = s.ctrlAddr := rfl
@[simp] theorem counted_ctrlAcc (s : State) : (counted s).ctrlAcc = s.ctrlAcc := rfl
@[simp] theorem counted_mp (s : State) : (counted s).mp = s.mp := rfl
@[simp] theorem counted_ml (s : State) : (counted s).ml = s.ml := rfl
@[simp] theorem counted_isMatch (s : State) : (counted s).isMatch = s.isMatch := rfl
@[simp] theorem counted_offset (s : State) : (counted s).offset = s.offset := rfl
@[simp] theorem counted_length (s : State) : (counted s).length = s.length := rfl
@[simp] theorem counted_c (s : State) : (counted s).c = s.c := rfl
@[simp] theorem counted_rd (s : State) : (counted s).rd = s.rd := rfl
@[simp] theorem counted_ctrl (s : State) : (counted s).ctrl = s.ctrl := rfl
@[simp] theorem counted_b1 (s : State) : (counted s).b1 = s.b1 := rfl
@[simp] theorem counted_b2 (s : State) : (counted s).b2 = s.b2 := rfl
@[simp] theorem counted_src (s : State) : (counted s).src = s.src := rfl
@[simp] theorem counted_i (s : State) : (counted s).i = s.i := rfl
@[simp] theorem counted_p (s : State) : (counted s).p = s.p := rfl
@[simp] theorem counted_k (s : State) : (counted s).k = s.k := rfl
@[simp] theorem counted_bestPos (s : State) : (counted s).bestPos = s.bestPos := rfl
@[simp] theorem counted_bestLen (s : State) : (counted s).bestLen = s.bestLen := rfl
@[simp] theorem counted_matchPosition (s : State) : (counted s).matchPosition = s.matchPosition := rfl
@[simp] theorem counted_matchLength (s : State) : (counted s).matchLength = s.matchLength := rfl
@[simp] theorem counted_inp (s : State) : (counted s).inp = s.inp := rfl
@[simp] theorem counted_out (s : State) : (counted s).out = s.out := rfl
@[simp] theorem counted_cfg (s : State) : (counted s).cfg = s.cfg := rfl
@[simp] theorem counted_host (s : State) : (counted s).host = s.host := rfl
@[simp] theorem counted_hostData (s : State) : (counted s).hostData = s.hostData := rfl
@[simp] theorem counted_inFill (s : State) : (counted s).inFill = s.inFill := rfl
@[simp] theorem counted_outFill (s : State) : (counted s).outFill = s.outFill := rfl
@[simp] theorem counted_drawn (s : State) : (counted s).drawn = s.drawn := rfl

@[simp] theorem loaded_op (m : Byte) (s : State) : (loaded m s).op = s.op := rfl
@[simp] theorem loaded_inLen (m : Byte) (s : State) : (loaded m s).inLen = s.inLen := rfl
@[simp] theorem loaded_outCap (m : Byte) (s : State) : (loaded m s).outCap = s.outCap := rfl
@[simp] theorem loaded_busy (m : Byte) (s : State) : (loaded m s).busy = s.busy := rfl
@[simp] theorem loaded_done (m : Byte) (s : State) : (loaded m s).done = s.done := rfl
@[simp] theorem loaded_status (m : Byte) (s : State) : (loaded m s).status = s.status := rfl
@[simp] theorem loaded_outLen (m : Byte) (s : State) : (loaded m s).outLen = s.outLen := rfl
@[simp] theorem loaded_opl (m : Byte) (s : State) : (loaded m s).opl = s.opl := rfl
@[simp] theorem loaded_n (m : Byte) (s : State) : (loaded m s).n = s.n := rfl
@[simp] theorem loaded_cap (m : Byte) (s : State) : (loaded m s).cap = s.cap := rfl
@[simp] theorem loaded_wr (m : Byte) (s : State) : (loaded m s).wr = s.wr := rfl
@[simp] theorem loaded_cnt (m : Byte) (s : State) : (loaded m s).cnt = s.cnt := rfl
@[simp] theorem loaded_pos (m : Byte) (s : State) : (loaded m s).pos = s.pos := rfl
@[simp] theorem loaded_wStart (m : Byte) (s : State) : (loaded m s).wStart = s.wStart := rfl
@[simp] theorem loaded_wEnd (m : Byte) (s : State) : (loaded m s).wEnd = s.wEnd := rfl
@[simp] theorem loaded_ctrlAddr (m : Byte) (s : State) : (loaded m s).ctrlAddr = s.ctrlAddr := rfl
@[simp] theorem loaded_ctrlAcc (m : Byte) (s : State) : (loaded m s).ctrlAcc = s.ctrlAcc := rfl
@[simp] theorem loaded_mp (m : Byte) (s : State) : (loaded m s).mp = s.mp := rfl
@[simp] theorem loaded_ml (m : Byte) (s : State) : (loaded m s).ml = s.ml := rfl
@[simp] theorem loaded_isMatch (m : Byte) (s : State) : (loaded m s).isMatch = s.isMatch := rfl
@[simp] theorem loaded_offset (m : Byte) (s : State) : (loaded m s).offset = s.offset := rfl
@[simp] theorem loaded_length (m : Byte) (s : State) : (loaded m s).length = s.length := rfl
@[simp] theorem loaded_c (m : Byte) (s : State) : (loaded m s).c = s.c := rfl
@[simp] theorem loaded_rd (m : Byte) (s : State) : (loaded m s).rd = s.rd + 1 := rfl
@[simp] theorem loaded_ctrl (m : Byte) (s : State) : (loaded m s).ctrl = m := rfl
@[simp] theorem loaded_b1 (m : Byte) (s : State) : (loaded m s).b1 = s.b1 := rfl
@[simp] theorem loaded_b2 (m : Byte) (s : State) : (loaded m s).b2 = s.b2 := rfl
@[simp] theorem loaded_src (m : Byte) (s : State) : (loaded m s).src = s.src := rfl
@[simp] theorem loaded_i (m : Byte) (s : State) : (loaded m s).i = s.i := rfl
@[simp] theorem loaded_p (m : Byte) (s : State) : (loaded m s).p = s.p := rfl
@[simp] theorem loaded_k (m : Byte) (s : State) : (loaded m s).k = s.k := rfl
@[simp] theorem loaded_bestPos (m : Byte) (s : State) : (loaded m s).bestPos = s.bestPos := rfl
@[simp] theorem loaded_bestLen (m : Byte) (s : State) : (loaded m s).bestLen = s.bestLen := rfl
@[simp] theorem loaded_matchPosition (m : Byte) (s : State) : (loaded m s).matchPosition = s.matchPosition := rfl
@[simp] theorem loaded_matchLength (m : Byte) (s : State) : (loaded m s).matchLength = s.matchLength := rfl
@[simp] theorem loaded_inp (m : Byte) (s : State) : (loaded m s).inp = s.inp := rfl
@[simp] theorem loaded_out (m : Byte) (s : State) : (loaded m s).out = s.out := rfl
@[simp] theorem loaded_cfg (m : Byte) (s : State) : (loaded m s).cfg = s.cfg := rfl
@[simp] theorem loaded_host (m : Byte) (s : State) : (loaded m s).host = s.host := rfl
@[simp] theorem loaded_hostData (m : Byte) (s : State) : (loaded m s).hostData = s.hostData := rfl
@[simp] theorem loaded_inFill (m : Byte) (s : State) : (loaded m s).inFill = s.inFill := rfl
@[simp] theorem loaded_outFill (m : Byte) (s : State) : (loaded m s).outFill = s.outFill := rfl
@[simp] theorem loaded_drawn (m : Byte) (s : State) : (loaded m s).drawn = s.drawn := rfl

@[simp] theorem gotMatch_op (b1 b2 : Byte) (s : State) : (gotMatch b1 b2 s).op = s.op := rfl
@[simp] theorem gotMatch_inLen (b1 b2 : Byte) (s : State) : (gotMatch b1 b2 s).inLen = s.inLen := rfl
@[simp] theorem gotMatch_outCap (b1 b2 : Byte) (s : State) : (gotMatch b1 b2 s).outCap = s.outCap := rfl
@[simp] theorem gotMatch_busy (b1 b2 : Byte) (s : State) : (gotMatch b1 b2 s).busy = s.busy := rfl
@[simp] theorem gotMatch_done (b1 b2 : Byte) (s : State) : (gotMatch b1 b2 s).done = s.done := rfl
@[simp] theorem gotMatch_status (b1 b2 : Byte) (s : State) : (gotMatch b1 b2 s).status = s.status := rfl
@[simp] theorem gotMatch_outLen (b1 b2 : Byte) (s : State) : (gotMatch b1 b2 s).outLen = s.outLen := rfl
@[simp] theorem gotMatch_opl (b1 b2 : Byte) (s : State) : (gotMatch b1 b2 s).opl = s.opl := rfl
@[simp] theorem gotMatch_n (b1 b2 : Byte) (s : State) : (gotMatch b1 b2 s).n = s.n := rfl
@[simp] theorem gotMatch_cap (b1 b2 : Byte) (s : State) : (gotMatch b1 b2 s).cap = s.cap := rfl
@[simp] theorem gotMatch_wr (b1 b2 : Byte) (s : State) : (gotMatch b1 b2 s).wr = s.wr := rfl
@[simp] theorem gotMatch_cnt (b1 b2 : Byte) (s : State) : (gotMatch b1 b2 s).cnt = s.cnt := rfl
@[simp] theorem gotMatch_pos (b1 b2 : Byte) (s : State) : (gotMatch b1 b2 s).pos = s.pos := rfl
@[simp] theorem gotMatch_wStart (b1 b2 : Byte) (s : State) : (gotMatch b1 b2 s).wStart = s.wStart := rfl
@[simp] theorem gotMatch_wEnd (b1 b2 : Byte) (s : State) : (gotMatch b1 b2 s).wEnd = s.wEnd := rfl
@[simp] theorem gotMatch_ctrlAddr (b1 b2 : Byte) (s : State) : (gotMatch b1 b2 s).ctrlAddr = s.ctrlAddr := rfl
@[simp] theorem gotMatch_ctrlAcc (b1 b2 : Byte) (s : State) : (gotMatch b1 b2 s).ctrlAcc = s.ctrlAcc := rfl
@[simp] theorem gotMatch_mp (b1 b2 : Byte) (s : State) : (gotMatch b1 b2 s).mp = s.mp := rfl
@[simp] theorem gotMatch_ml (b1 b2 : Byte) (s : State) : (gotMatch b1 b2 s).ml = s.ml := rfl
@[simp] theorem gotMatch_isMatch (b1 b2 : Byte) (s : State) : (gotMatch b1 b2 s).isMatch = s.isMatch := rfl
@[simp] theorem gotMatch_offset (b1 b2 : Byte) (s : State) : (gotMatch b1 b2 s).offset = unpackOffset b1 b2 := rfl
@[simp] theorem gotMatch_length (b1 b2 : Byte) (s : State) : (gotMatch b1 b2 s).length = unpackLength b2 := rfl
@[simp] theorem gotMatch_c (b1 b2 : Byte) (s : State) : (gotMatch b1 b2 s).c = s.c := rfl
@[simp] theorem gotMatch_rd (b1 b2 : Byte) (s : State) : (gotMatch b1 b2 s).rd = s.rd + 2 := rfl
@[simp] theorem gotMatch_ctrl (b1 b2 : Byte) (s : State) : (gotMatch b1 b2 s).ctrl = s.ctrl := rfl
@[simp] theorem gotMatch_b1 (b1 b2 : Byte) (s : State) : (gotMatch b1 b2 s).b1 = b1 := rfl
@[simp] theorem gotMatch_b2 (b1 b2 : Byte) (s : State) : (gotMatch b1 b2 s).b2 = b2 := rfl
@[simp] theorem gotMatch_src (b1 b2 : Byte) (s : State) : (gotMatch b1 b2 s).src = s.src := rfl
@[simp] theorem gotMatch_i (b1 b2 : Byte) (s : State) : (gotMatch b1 b2 s).i = s.i := rfl
@[simp] theorem gotMatch_p (b1 b2 : Byte) (s : State) : (gotMatch b1 b2 s).p = s.p := rfl
@[simp] theorem gotMatch_k (b1 b2 : Byte) (s : State) : (gotMatch b1 b2 s).k = s.k := rfl
@[simp] theorem gotMatch_bestPos (b1 b2 : Byte) (s : State) : (gotMatch b1 b2 s).bestPos = s.bestPos := rfl
@[simp] theorem gotMatch_bestLen (b1 b2 : Byte) (s : State) : (gotMatch b1 b2 s).bestLen = s.bestLen := rfl
@[simp] theorem gotMatch_matchPosition (b1 b2 : Byte) (s : State) : (gotMatch b1 b2 s).matchPosition = s.matchPosition := rfl
@[simp] theorem gotMatch_matchLength (b1 b2 : Byte) (s : State) : (gotMatch b1 b2 s).matchLength = s.matchLength := rfl
@[simp] theorem gotMatch_inp (b1 b2 : Byte) (s : State) : (gotMatch b1 b2 s).inp = s.inp := rfl
@[simp] theorem gotMatch_out (b1 b2 : Byte) (s : State) : (gotMatch b1 b2 s).out = s.out := rfl
@[simp] theorem gotMatch_cfg (b1 b2 : Byte) (s : State) : (gotMatch b1 b2 s).cfg = s.cfg := rfl
@[simp] theorem gotMatch_host (b1 b2 : Byte) (s : State) : (gotMatch b1 b2 s).host = s.host := rfl
@[simp] theorem gotMatch_hostData (b1 b2 : Byte) (s : State) : (gotMatch b1 b2 s).hostData = s.hostData := rfl
@[simp] theorem gotMatch_inFill (b1 b2 : Byte) (s : State) : (gotMatch b1 b2 s).inFill = s.inFill := rfl
@[simp] theorem gotMatch_outFill (b1 b2 : Byte) (s : State) : (gotMatch b1 b2 s).outFill = s.outFill := rfl
@[simp] theorem gotMatch_drawn (b1 b2 : Byte) (s : State) : (gotMatch b1 b2 s).drawn = s.drawn := rfl

@[simp] theorem encStarted_op (s : State) : (encStarted s).op = s.op := rfl
@[simp] theorem encStarted_inLen (s : State) : (encStarted s).inLen = s.inLen := rfl
@[simp] theorem encStarted_outCap (s : State) : (encStarted s).outCap = s.outCap := rfl
@[simp] theorem encStarted_busy (s : State) : (encStarted s).busy = s.busy := rfl
@[simp] theorem encStarted_done (s : State) : (encStarted s).done = s.done := rfl
@[simp] theorem encStarted_status (s : State) : (encStarted s).status = s.status := rfl
@[simp] theorem encStarted_outLen (s : State) : (encStarted s).outLen = s.outLen := rfl
@[simp] theorem encStarted_opl (s : State) : (encStarted s).opl = s.opl := rfl
@[simp] theorem encStarted_n (s : State) : (encStarted s).n = s.n := rfl
@[simp] theorem encStarted_cap (s : State) : (encStarted s).cap = s.cap := rfl
@[simp] theorem encStarted_wr (s : State) : (encStarted s).wr = 0 := rfl
@[simp] theorem encStarted_cnt (s : State) : (encStarted s).cnt = 0 := rfl
@[simp] theorem encStarted_pos (s : State) : (encStarted s).pos = 0 := rfl
@[simp] theorem encStarted_wStart (s : State) : (encStarted s).wStart = 0 := rfl
@[simp] theorem encStarted_wEnd (s : State) : (encStarted s).wEnd = 0 := rfl
@[simp] theorem encStarted_ctrlAddr (s : State) : (encStarted s).ctrlAddr = s.ctrlAddr := rfl
@[simp] theorem encStarted_ctrlAcc (s : State) : (encStarted s).ctrlAcc = s.ctrlAcc := rfl
@[simp] theorem encStarted_mp (s : State) : (encStarted s).mp = s.mp := rfl
@[simp] theorem encStarted_ml (s : State) : (encStarted s).ml = s.ml := rfl
@[simp] theorem encStarted_isMatch (s : State) : (encStarted s).isMatch = s.isMatch := rfl
@[simp] theorem encStarted_offset (s : State) : (encStarted s).offset = s.offset := rfl
@[simp] theorem encStarted_length (s : State) : (encStarted s).length = s.length := rfl
@[simp] theorem encStarted_c (s : State) : (encStarted s).c = s.c := rfl
@[simp] theorem encStarted_rd (s : State) : (encStarted s).rd = s.rd := rfl
@[simp] theorem encStarted_ctrl (s : State) : (encStarted s).ctrl = s.ctrl := rfl
@[simp] theorem encStarted_b1 (s : State) : (encStarted s).b1 = s.b1 := rfl
@[simp] theorem encStarted_b2 (s : State) : (encStarted s).b2 = s.b2 := rfl
@[simp] theorem encStarted_src (s : State) : (encStarted s).src = s.src := rfl
@[simp] theorem encStarted_i (s : State) : (encStarted s).i = s.i := rfl
@[simp] theorem encStarted_p (s : State) : (encStarted s).p = s.p := rfl
@[simp] theorem encStarted_k (s : State) : (encStarted s).k = s.k := rfl
@[simp] theorem encStarted_bestPos (s : State) : (encStarted s).bestPos = s.bestPos := rfl
@[simp] theorem encStarted_bestLen (s : State) : (encStarted s).bestLen = s.bestLen := rfl
@[simp] theorem encStarted_matchPosition (s : State) : (encStarted s).matchPosition = s.matchPosition := rfl
@[simp] theorem encStarted_matchLength (s : State) : (encStarted s).matchLength = s.matchLength := rfl
@[simp] theorem encStarted_inp (s : State) : (encStarted s).inp = s.inp := rfl
@[simp] theorem encStarted_out (s : State) : (encStarted s).out = s.out := rfl
@[simp] theorem encStarted_cfg (s : State) : (encStarted s).cfg = s.cfg := rfl
@[simp] theorem encStarted_host (s : State) : (encStarted s).host = s.host := rfl
@[simp] theorem encStarted_hostData (s : State) : (encStarted s).hostData = s.hostData := rfl
@[simp] theorem encStarted_inFill (s : State) : (encStarted s).inFill = s.inFill := rfl
@[simp] theorem encStarted_outFill (s : State) : (encStarted s).outFill = s.outFill := rfl
@[simp] theorem encStarted_drawn (s : State) : (encStarted s).drawn = s.drawn := rfl

@[simp] theorem searched_op (s : State) : (searched s).op = s.op := rfl
@[simp] theorem searched_inLen (s : State) : (searched s).inLen = s.inLen := rfl
@[simp] theorem searched_outCap (s : State) : (searched s).outCap = s.outCap := rfl
@[simp] theorem searched_busy (s : State) : (searched s).busy = s.busy := rfl
@[simp] theorem searched_done (s : State) : (searched s).done = s.done := rfl
@[simp] theorem searched_status (s : State) : (searched s).status = s.status := rfl
@[simp] theorem searched_outLen (s : State) : (searched s).outLen = s.outLen := rfl
@[simp] theorem searched_opl (s : State) : (searched s).opl = s.opl := rfl
@[simp] theorem searched_n (s : State) : (searched s).n = s.n := rfl
@[simp] theorem searched_cap (s : State) : (searched s).cap = s.cap := rfl
@[simp] theorem searched_wr (s : State) : (searched s).wr = s.wr := rfl
@[simp] theorem searched_cnt (s : State) : (searched s).cnt = s.cnt := rfl
@[simp] theorem searched_pos (s : State) : (searched s).pos = s.pos := rfl
@[simp] theorem searched_wStart (s : State) : (searched s).wStart = s.wStart := rfl
@[simp] theorem searched_wEnd (s : State) : (searched s).wEnd = s.wEnd := rfl
@[simp] theorem searched_ctrlAddr (s : State) : (searched s).ctrlAddr = s.ctrlAddr := rfl
@[simp] theorem searched_ctrlAcc (s : State) : (searched s).ctrlAcc = s.ctrlAcc := rfl
@[simp] theorem searched_mp (s : State) : (searched s).mp = s.matchPosition := rfl
@[simp] theorem searched_ml (s : State) : (searched s).ml = s.matchLength := rfl
@[simp] theorem searched_isMatch (s : State) : (searched s).isMatch = s.isMatch := rfl
@[simp] theorem searched_offset (s : State) : (searched s).offset = s.offset := rfl
@[simp] theorem searched_length (s : State) : (searched s).length = s.length := rfl
@[simp] theorem searched_c (s : State) : (searched s).c = s.c := rfl
@[simp] theorem searched_rd (s : State) : (searched s).rd = s.rd := rfl
@[simp] theorem searched_ctrl (s : State) : (searched s).ctrl = s.ctrl := rfl
@[simp] theorem searched_b1 (s : State) : (searched s).b1 = s.b1 := rfl
@[simp] theorem searched_b2 (s : State) : (searched s).b2 = s.b2 := rfl
@[simp] theorem searched_src (s : State) : (searched s).src = s.src := rfl
@[simp] theorem searched_i (s : State) : (searched s).i = s.i := rfl
@[simp] theorem searched_p (s : State) : (searched s).p = s.p := rfl
@[simp] theorem searched_k (s : State) : (searched s).k = s.k := rfl
@[simp] theorem searched_bestPos (s : State) : (searched s).bestPos = s.bestPos := rfl
@[simp] theorem searched_bestLen (s : State) : (searched s).bestLen = s.bestLen := rfl
@[simp] theorem searched_matchPosition (s : State) : (searched s).matchPosition = s.matchPosition := rfl
@[simp] theorem searched_matchLength (s : State) : (searched s).matchLength = s.matchLength := rfl
@[simp] theorem searched_inp (s : State) : (searched s).inp = s.inp := rfl
@[simp] theorem searched_out (s : State) : (searched s).out = s.out := rfl
@[simp] theorem searched_cfg (s : State) : (searched s).cfg = s.cfg := rfl
@[simp] theorem searched_host (s : State) : (searched s).host = s.host := rfl
@[simp] theorem searched_hostData (s : State) : (searched s).hostData = s.hostData := rfl
@[simp] theorem searched_inFill (s : State) : (searched s).inFill = s.inFill := rfl
@[simp] theorem searched_outFill (s : State) : (searched s).outFill = s.outFill := rfl
@[simp] theorem searched_drawn (s : State) : (searched s).drawn = s.drawn := rfl

@[simp] theorem notSearched_op (s : State) : (notSearched s).op = s.op := rfl
@[simp] theorem notSearched_inLen (s : State) : (notSearched s).inLen = s.inLen := rfl
@[simp] theorem notSearched_outCap (s : State) : (notSearched s).outCap = s.outCap := rfl
@[simp] theorem notSearched_busy (s : State) : (notSearched s).busy = s.busy := rfl
@[simp] theorem notSearched_done (s : State) : (notSearched s).done = s.done := rfl
@[simp] theorem notSearched_status (s : State) : (notSearched s).status = s.status := rfl
@[simp] theorem notSearched_outLen (s : State) : (notSearched s).outLen = s.outLen := rfl
@[simp] theorem notSearched_opl (s : State) : (notSearched s).opl = s.opl := rfl
@[simp] theorem notSearched_n (s : State) : (notSearched s).n = s.n := rfl
@[simp] theorem notSearched_cap (s : State) : (notSearched s).cap = s.cap := rfl
@[simp] theorem notSearched_wr (s : State) : (notSearched s).wr = s.wr := rfl
@[simp] theorem notSearched_cnt (s : State) : (notSearched s).cnt = s.cnt := rfl
@[simp] theorem notSearched_pos (s : State) : (notSearched s).pos = s.pos := rfl
@[simp] theorem notSearched_wStart (s : State) : (notSearched s).wStart = s.wStart := rfl
@[simp] theorem notSearched_wEnd (s : State) : (notSearched s).wEnd = s.wEnd := rfl
@[simp] theorem notSearched_ctrlAddr (s : State) : (notSearched s).ctrlAddr = s.ctrlAddr := rfl
@[simp] theorem notSearched_ctrlAcc (s : State) : (notSearched s).ctrlAcc = s.ctrlAcc := rfl
@[simp] theorem notSearched_mp (s : State) : (notSearched s).mp = Config.unspecifiedIndex s.drawn := rfl
@[simp] theorem notSearched_ml (s : State) : (notSearched s).ml = 0 := rfl
@[simp] theorem notSearched_isMatch (s : State) : (notSearched s).isMatch = s.isMatch := rfl
@[simp] theorem notSearched_offset (s : State) : (notSearched s).offset = s.offset := rfl
@[simp] theorem notSearched_length (s : State) : (notSearched s).length = s.length := rfl
@[simp] theorem notSearched_c (s : State) : (notSearched s).c = s.c := rfl
@[simp] theorem notSearched_rd (s : State) : (notSearched s).rd = s.rd := rfl
@[simp] theorem notSearched_ctrl (s : State) : (notSearched s).ctrl = s.ctrl := rfl
@[simp] theorem notSearched_b1 (s : State) : (notSearched s).b1 = s.b1 := rfl
@[simp] theorem notSearched_b2 (s : State) : (notSearched s).b2 = s.b2 := rfl
@[simp] theorem notSearched_src (s : State) : (notSearched s).src = s.src := rfl
@[simp] theorem notSearched_i (s : State) : (notSearched s).i = s.i := rfl
@[simp] theorem notSearched_p (s : State) : (notSearched s).p = s.p := rfl
@[simp] theorem notSearched_k (s : State) : (notSearched s).k = s.k := rfl
@[simp] theorem notSearched_bestPos (s : State) : (notSearched s).bestPos = s.bestPos := rfl
@[simp] theorem notSearched_bestLen (s : State) : (notSearched s).bestLen = s.bestLen := rfl
@[simp] theorem notSearched_matchPosition (s : State) : (notSearched s).matchPosition = s.matchPosition := rfl
@[simp] theorem notSearched_matchLength (s : State) : (notSearched s).matchLength = s.matchLength := rfl
@[simp] theorem notSearched_inp (s : State) : (notSearched s).inp = s.inp := rfl
@[simp] theorem notSearched_out (s : State) : (notSearched s).out = s.out := rfl
@[simp] theorem notSearched_cfg (s : State) : (notSearched s).cfg = s.cfg := rfl
@[simp] theorem notSearched_host (s : State) : (notSearched s).host = s.host := rfl
@[simp] theorem notSearched_hostData (s : State) : (notSearched s).hostData = s.hostData := rfl
@[simp] theorem notSearched_inFill (s : State) : (notSearched s).inFill = s.inFill := rfl
@[simp] theorem notSearched_outFill (s : State) : (notSearched s).outFill = s.outFill := rfl
@[simp] theorem notSearched_drawn (s : State) : (notSearched s).drawn = s.drawn + 1 := rfl

@[simp] theorem consumedMatch_op (offset : Offset) (c : Byte) (s : State) : (consumedMatch offset c s).op = s.op := rfl
@[simp] theorem consumedMatch_inLen (offset : Offset) (c : Byte) (s : State) : (consumedMatch offset c s).inLen = s.inLen := rfl
@[simp] theorem consumedMatch_outCap (offset : Offset) (c : Byte) (s : State) : (consumedMatch offset c s).outCap = s.outCap := rfl
@[simp] theorem consumedMatch_busy (offset : Offset) (c : Byte) (s : State) : (consumedMatch offset c s).busy = s.busy := rfl
@[simp] theorem consumedMatch_done (offset : Offset) (c : Byte) (s : State) : (consumedMatch offset c s).done = s.done := rfl
@[simp] theorem consumedMatch_status (offset : Offset) (c : Byte) (s : State) : (consumedMatch offset c s).status = s.status := rfl
@[simp] theorem consumedMatch_outLen (offset : Offset) (c : Byte) (s : State) : (consumedMatch offset c s).outLen = s.outLen := rfl
@[simp] theorem consumedMatch_opl (offset : Offset) (c : Byte) (s : State) : (consumedMatch offset c s).opl = s.opl := rfl
@[simp] theorem consumedMatch_n (offset : Offset) (c : Byte) (s : State) : (consumedMatch offset c s).n = s.n := rfl
@[simp] theorem consumedMatch_cap (offset : Offset) (c : Byte) (s : State) : (consumedMatch offset c s).cap = s.cap := rfl
@[simp] theorem consumedMatch_wr (offset : Offset) (c : Byte) (s : State) : (consumedMatch offset c s).wr = s.wr := rfl
@[simp] theorem consumedMatch_cnt (offset : Offset) (c : Byte) (s : State) : (consumedMatch offset c s).cnt = s.cnt := rfl
@[simp] theorem consumedMatch_pos (offset : Offset) (c : Byte) (s : State) : (consumedMatch offset c s).pos = s.pos + s.ml.toNat + 1 := rfl
@[simp] theorem consumedMatch_wStart (offset : Offset) (c : Byte) (s : State) : (consumedMatch offset c s).wStart = s.wStart := rfl
@[simp] theorem consumedMatch_wEnd (offset : Offset) (c : Byte) (s : State) : (consumedMatch offset c s).wEnd = s.wEnd := rfl
@[simp] theorem consumedMatch_ctrlAddr (offset : Offset) (c : Byte) (s : State) : (consumedMatch offset c s).ctrlAddr = s.ctrlAddr := rfl
@[simp] theorem consumedMatch_ctrlAcc (offset : Offset) (c : Byte) (s : State) : (consumedMatch offset c s).ctrlAcc = s.ctrlAcc := rfl
@[simp] theorem consumedMatch_mp (offset : Offset) (c : Byte) (s : State) : (consumedMatch offset c s).mp = s.mp := rfl
@[simp] theorem consumedMatch_ml (offset : Offset) (c : Byte) (s : State) : (consumedMatch offset c s).ml = s.ml := rfl
@[simp] theorem consumedMatch_isMatch (offset : Offset) (c : Byte) (s : State) : (consumedMatch offset c s).isMatch = true := rfl
@[simp] theorem consumedMatch_offset (offset : Offset) (c : Byte) (s : State) : (consumedMatch offset c s).offset = offset := rfl
@[simp] theorem consumedMatch_length (offset : Offset) (c : Byte) (s : State) : (consumedMatch offset c s).length = s.ml := rfl
@[simp] theorem consumedMatch_c (offset : Offset) (c : Byte) (s : State) : (consumedMatch offset c s).c = c := rfl
@[simp] theorem consumedMatch_rd (offset : Offset) (c : Byte) (s : State) : (consumedMatch offset c s).rd = s.rd := rfl
@[simp] theorem consumedMatch_ctrl (offset : Offset) (c : Byte) (s : State) : (consumedMatch offset c s).ctrl = s.ctrl := rfl
@[simp] theorem consumedMatch_b1 (offset : Offset) (c : Byte) (s : State) : (consumedMatch offset c s).b1 = s.b1 := rfl
@[simp] theorem consumedMatch_b2 (offset : Offset) (c : Byte) (s : State) : (consumedMatch offset c s).b2 = s.b2 := rfl
@[simp] theorem consumedMatch_src (offset : Offset) (c : Byte) (s : State) : (consumedMatch offset c s).src = s.src := rfl
@[simp] theorem consumedMatch_i (offset : Offset) (c : Byte) (s : State) : (consumedMatch offset c s).i = s.i := rfl
@[simp] theorem consumedMatch_p (offset : Offset) (c : Byte) (s : State) : (consumedMatch offset c s).p = s.p := rfl
@[simp] theorem consumedMatch_k (offset : Offset) (c : Byte) (s : State) : (consumedMatch offset c s).k = s.k := rfl
@[simp] theorem consumedMatch_bestPos (offset : Offset) (c : Byte) (s : State) : (consumedMatch offset c s).bestPos = s.bestPos := rfl
@[simp] theorem consumedMatch_bestLen (offset : Offset) (c : Byte) (s : State) : (consumedMatch offset c s).bestLen = s.bestLen := rfl
@[simp] theorem consumedMatch_matchPosition (offset : Offset) (c : Byte) (s : State) : (consumedMatch offset c s).matchPosition = s.matchPosition := rfl
@[simp] theorem consumedMatch_matchLength (offset : Offset) (c : Byte) (s : State) : (consumedMatch offset c s).matchLength = s.matchLength := rfl
@[simp] theorem consumedMatch_inp (offset : Offset) (c : Byte) (s : State) : (consumedMatch offset c s).inp = s.inp := rfl
@[simp] theorem consumedMatch_out (offset : Offset) (c : Byte) (s : State) : (consumedMatch offset c s).out = s.out := rfl
@[simp] theorem consumedMatch_cfg (offset : Offset) (c : Byte) (s : State) : (consumedMatch offset c s).cfg = s.cfg := rfl
@[simp] theorem consumedMatch_host (offset : Offset) (c : Byte) (s : State) : (consumedMatch offset c s).host = s.host := rfl
@[simp] theorem consumedMatch_hostData (offset : Offset) (c : Byte) (s : State) : (consumedMatch offset c s).hostData = s.hostData := rfl
@[simp] theorem consumedMatch_inFill (offset : Offset) (c : Byte) (s : State) : (consumedMatch offset c s).inFill = s.inFill := rfl
@[simp] theorem consumedMatch_outFill (offset : Offset) (c : Byte) (s : State) : (consumedMatch offset c s).outFill = s.outFill := rfl
@[simp] theorem consumedMatch_drawn (offset : Offset) (c : Byte) (s : State) : (consumedMatch offset c s).drawn = s.drawn := rfl

@[simp] theorem consumedLiteral_op (c : Byte) (s : State) : (consumedLiteral c s).op = s.op := rfl
@[simp] theorem consumedLiteral_inLen (c : Byte) (s : State) : (consumedLiteral c s).inLen = s.inLen := rfl
@[simp] theorem consumedLiteral_outCap (c : Byte) (s : State) : (consumedLiteral c s).outCap = s.outCap := rfl
@[simp] theorem consumedLiteral_busy (c : Byte) (s : State) : (consumedLiteral c s).busy = s.busy := rfl
@[simp] theorem consumedLiteral_done (c : Byte) (s : State) : (consumedLiteral c s).done = s.done := rfl
@[simp] theorem consumedLiteral_status (c : Byte) (s : State) : (consumedLiteral c s).status = s.status := rfl
@[simp] theorem consumedLiteral_outLen (c : Byte) (s : State) : (consumedLiteral c s).outLen = s.outLen := rfl
@[simp] theorem consumedLiteral_opl (c : Byte) (s : State) : (consumedLiteral c s).opl = s.opl := rfl
@[simp] theorem consumedLiteral_n (c : Byte) (s : State) : (consumedLiteral c s).n = s.n := rfl
@[simp] theorem consumedLiteral_cap (c : Byte) (s : State) : (consumedLiteral c s).cap = s.cap := rfl
@[simp] theorem consumedLiteral_wr (c : Byte) (s : State) : (consumedLiteral c s).wr = s.wr := rfl
@[simp] theorem consumedLiteral_cnt (c : Byte) (s : State) : (consumedLiteral c s).cnt = s.cnt := rfl
@[simp] theorem consumedLiteral_pos (c : Byte) (s : State) : (consumedLiteral c s).pos = s.pos + 1 := rfl
@[simp] theorem consumedLiteral_wStart (c : Byte) (s : State) : (consumedLiteral c s).wStart = s.wStart := rfl
@[simp] theorem consumedLiteral_wEnd (c : Byte) (s : State) : (consumedLiteral c s).wEnd = s.wEnd := rfl
@[simp] theorem consumedLiteral_ctrlAddr (c : Byte) (s : State) : (consumedLiteral c s).ctrlAddr = s.ctrlAddr := rfl
@[simp] theorem consumedLiteral_ctrlAcc (c : Byte) (s : State) : (consumedLiteral c s).ctrlAcc = s.ctrlAcc := rfl
@[simp] theorem consumedLiteral_mp (c : Byte) (s : State) : (consumedLiteral c s).mp = s.mp := rfl
@[simp] theorem consumedLiteral_ml (c : Byte) (s : State) : (consumedLiteral c s).ml = s.ml := rfl
@[simp] theorem consumedLiteral_isMatch (c : Byte) (s : State) : (consumedLiteral c s).isMatch = false := rfl
@[simp] theorem consumedLiteral_offset (c : Byte) (s : State) : (consumedLiteral c s).offset = s.offset := rfl
@[simp] theorem consumedLiteral_length (c : Byte) (s : State) : (consumedLiteral c s).length = s.length := rfl
@[simp] theorem consumedLiteral_c (c : Byte) (s : State) : (consumedLiteral c s).c = c := rfl
@[simp] theorem consumedLiteral_rd (c : Byte) (s : State) : (consumedLiteral c s).rd = s.rd := rfl
@[simp] theorem consumedLiteral_ctrl (c : Byte) (s : State) : (consumedLiteral c s).ctrl = s.ctrl := rfl
@[simp] theorem consumedLiteral_b1 (c : Byte) (s : State) : (consumedLiteral c s).b1 = s.b1 := rfl
@[simp] theorem consumedLiteral_b2 (c : Byte) (s : State) : (consumedLiteral c s).b2 = s.b2 := rfl
@[simp] theorem consumedLiteral_src (c : Byte) (s : State) : (consumedLiteral c s).src = s.src := rfl
@[simp] theorem consumedLiteral_i (c : Byte) (s : State) : (consumedLiteral c s).i = s.i := rfl
@[simp] theorem consumedLiteral_p (c : Byte) (s : State) : (consumedLiteral c s).p = s.p := rfl
@[simp] theorem consumedLiteral_k (c : Byte) (s : State) : (consumedLiteral c s).k = s.k := rfl
@[simp] theorem consumedLiteral_bestPos (c : Byte) (s : State) : (consumedLiteral c s).bestPos = s.bestPos := rfl
@[simp] theorem consumedLiteral_bestLen (c : Byte) (s : State) : (consumedLiteral c s).bestLen = s.bestLen := rfl
@[simp] theorem consumedLiteral_matchPosition (c : Byte) (s : State) : (consumedLiteral c s).matchPosition = s.matchPosition := rfl
@[simp] theorem consumedLiteral_matchLength (c : Byte) (s : State) : (consumedLiteral c s).matchLength = s.matchLength := rfl
@[simp] theorem consumedLiteral_inp (c : Byte) (s : State) : (consumedLiteral c s).inp = s.inp := rfl
@[simp] theorem consumedLiteral_out (c : Byte) (s : State) : (consumedLiteral c s).out = s.out := rfl
@[simp] theorem consumedLiteral_cfg (c : Byte) (s : State) : (consumedLiteral c s).cfg = s.cfg := rfl
@[simp] theorem consumedLiteral_host (c : Byte) (s : State) : (consumedLiteral c s).host = s.host := rfl
@[simp] theorem consumedLiteral_hostData (c : Byte) (s : State) : (consumedLiteral c s).hostData = s.hostData := rfl
@[simp] theorem consumedLiteral_inFill (c : Byte) (s : State) : (consumedLiteral c s).inFill = s.inFill := rfl
@[simp] theorem consumedLiteral_outFill (c : Byte) (s : State) : (consumedLiteral c s).outFill = s.outFill := rfl
@[simp] theorem consumedLiteral_drawn (c : Byte) (s : State) : (consumedLiteral c s).drawn = s.drawn := rfl

@[simp] theorem windowMoved_op (w : Nat) (s : State) : (windowMoved w s).op = s.op := rfl
@[simp] theorem windowMoved_inLen (w : Nat) (s : State) : (windowMoved w s).inLen = s.inLen := rfl
@[simp] theorem windowMoved_outCap (w : Nat) (s : State) : (windowMoved w s).outCap = s.outCap := rfl
@[simp] theorem windowMoved_busy (w : Nat) (s : State) : (windowMoved w s).busy = s.busy := rfl
@[simp] theorem windowMoved_done (w : Nat) (s : State) : (windowMoved w s).done = s.done := rfl
@[simp] theorem windowMoved_status (w : Nat) (s : State) : (windowMoved w s).status = s.status := rfl
@[simp] theorem windowMoved_outLen (w : Nat) (s : State) : (windowMoved w s).outLen = s.outLen := rfl
@[simp] theorem windowMoved_opl (w : Nat) (s : State) : (windowMoved w s).opl = s.opl := rfl
@[simp] theorem windowMoved_n (w : Nat) (s : State) : (windowMoved w s).n = s.n := rfl
@[simp] theorem windowMoved_cap (w : Nat) (s : State) : (windowMoved w s).cap = s.cap := rfl
@[simp] theorem windowMoved_wr (w : Nat) (s : State) : (windowMoved w s).wr = s.wr := rfl
@[simp] theorem windowMoved_cnt (w : Nat) (s : State) : (windowMoved w s).cnt = s.cnt := rfl
@[simp] theorem windowMoved_pos (w : Nat) (s : State) : (windowMoved w s).pos = s.pos := rfl
@[simp] theorem windowMoved_wStart (w : Nat) (s : State) : (windowMoved w s).wStart = w := rfl
@[simp] theorem windowMoved_wEnd (w : Nat) (s : State) : (windowMoved w s).wEnd = s.pos - 1 := rfl
@[simp] theorem windowMoved_ctrlAddr (w : Nat) (s : State) : (windowMoved w s).ctrlAddr = s.ctrlAddr := rfl
@[simp] theorem windowMoved_ctrlAcc (w : Nat) (s : State) : (windowMoved w s).ctrlAcc = s.ctrlAcc := rfl
@[simp] theorem windowMoved_mp (w : Nat) (s : State) : (windowMoved w s).mp = s.mp := rfl
@[simp] theorem windowMoved_ml (w : Nat) (s : State) : (windowMoved w s).ml = s.ml := rfl
@[simp] theorem windowMoved_isMatch (w : Nat) (s : State) : (windowMoved w s).isMatch = s.isMatch := rfl
@[simp] theorem windowMoved_offset (w : Nat) (s : State) : (windowMoved w s).offset = s.offset := rfl
@[simp] theorem windowMoved_length (w : Nat) (s : State) : (windowMoved w s).length = s.length := rfl
@[simp] theorem windowMoved_c (w : Nat) (s : State) : (windowMoved w s).c = s.c := rfl
@[simp] theorem windowMoved_rd (w : Nat) (s : State) : (windowMoved w s).rd = s.rd := rfl
@[simp] theorem windowMoved_ctrl (w : Nat) (s : State) : (windowMoved w s).ctrl = s.ctrl := rfl
@[simp] theorem windowMoved_b1 (w : Nat) (s : State) : (windowMoved w s).b1 = s.b1 := rfl
@[simp] theorem windowMoved_b2 (w : Nat) (s : State) : (windowMoved w s).b2 = s.b2 := rfl
@[simp] theorem windowMoved_src (w : Nat) (s : State) : (windowMoved w s).src = s.src := rfl
@[simp] theorem windowMoved_i (w : Nat) (s : State) : (windowMoved w s).i = s.i := rfl
@[simp] theorem windowMoved_p (w : Nat) (s : State) : (windowMoved w s).p = s.p := rfl
@[simp] theorem windowMoved_k (w : Nat) (s : State) : (windowMoved w s).k = s.k := rfl
@[simp] theorem windowMoved_bestPos (w : Nat) (s : State) : (windowMoved w s).bestPos = s.bestPos := rfl
@[simp] theorem windowMoved_bestLen (w : Nat) (s : State) : (windowMoved w s).bestLen = s.bestLen := rfl
@[simp] theorem windowMoved_matchPosition (w : Nat) (s : State) : (windowMoved w s).matchPosition = s.matchPosition := rfl
@[simp] theorem windowMoved_matchLength (w : Nat) (s : State) : (windowMoved w s).matchLength = s.matchLength := rfl
@[simp] theorem windowMoved_inp (w : Nat) (s : State) : (windowMoved w s).inp = s.inp := rfl
@[simp] theorem windowMoved_out (w : Nat) (s : State) : (windowMoved w s).out = s.out := rfl
@[simp] theorem windowMoved_cfg (w : Nat) (s : State) : (windowMoved w s).cfg = s.cfg := rfl
@[simp] theorem windowMoved_host (w : Nat) (s : State) : (windowMoved w s).host = s.host := rfl
@[simp] theorem windowMoved_hostData (w : Nat) (s : State) : (windowMoved w s).hostData = s.hostData := rfl
@[simp] theorem windowMoved_inFill (w : Nat) (s : State) : (windowMoved w s).inFill = s.inFill := rfl
@[simp] theorem windowMoved_outFill (w : Nat) (s : State) : (windowMoved w s).outFill = s.outFill := rfl
@[simp] theorem windowMoved_drawn (w : Nat) (s : State) : (windowMoved w s).drawn = s.drawn := rfl

@[simp] theorem decStarted_op (s : State) : (decStarted s).op = s.op := rfl
@[simp] theorem decStarted_inLen (s : State) : (decStarted s).inLen = s.inLen := rfl
@[simp] theorem decStarted_outCap (s : State) : (decStarted s).outCap = s.outCap := rfl
@[simp] theorem decStarted_busy (s : State) : (decStarted s).busy = s.busy := rfl
@[simp] theorem decStarted_done (s : State) : (decStarted s).done = s.done := rfl
@[simp] theorem decStarted_status (s : State) : (decStarted s).status = s.status := rfl
@[simp] theorem decStarted_outLen (s : State) : (decStarted s).outLen = s.outLen := rfl
@[simp] theorem decStarted_opl (s : State) : (decStarted s).opl = s.opl := rfl
@[simp] theorem decStarted_n (s : State) : (decStarted s).n = s.n := rfl
@[simp] theorem decStarted_cap (s : State) : (decStarted s).cap = s.cap := rfl
@[simp] theorem decStarted_wr (s : State) : (decStarted s).wr = 0 := rfl
@[simp] theorem decStarted_cnt (s : State) : (decStarted s).cnt = 0 := rfl
@[simp] theorem decStarted_pos (s : State) : (decStarted s).pos = s.pos := rfl
@[simp] theorem decStarted_wStart (s : State) : (decStarted s).wStart = s.wStart := rfl
@[simp] theorem decStarted_wEnd (s : State) : (decStarted s).wEnd = s.wEnd := rfl
@[simp] theorem decStarted_ctrlAddr (s : State) : (decStarted s).ctrlAddr = s.ctrlAddr := rfl
@[simp] theorem decStarted_ctrlAcc (s : State) : (decStarted s).ctrlAcc = s.ctrlAcc := rfl
@[simp] theorem decStarted_mp (s : State) : (decStarted s).mp = s.mp := rfl
@[simp] theorem decStarted_ml (s : State) : (decStarted s).ml = s.ml := rfl
@[simp] theorem decStarted_isMatch (s : State) : (decStarted s).isMatch = s.isMatch := rfl
@[simp] theorem decStarted_offset (s : State) : (decStarted s).offset = s.offset := rfl
@[simp] theorem decStarted_length (s : State) : (decStarted s).length = s.length := rfl
@[simp] theorem decStarted_c (s : State) : (decStarted s).c = s.c := rfl
@[simp] theorem decStarted_rd (s : State) : (decStarted s).rd = 0 := rfl
@[simp] theorem decStarted_ctrl (s : State) : (decStarted s).ctrl = s.ctrl := rfl
@[simp] theorem decStarted_b1 (s : State) : (decStarted s).b1 = s.b1 := rfl
@[simp] theorem decStarted_b2 (s : State) : (decStarted s).b2 = s.b2 := rfl
@[simp] theorem decStarted_src (s : State) : (decStarted s).src = s.src := rfl
@[simp] theorem decStarted_i (s : State) : (decStarted s).i = s.i := rfl
@[simp] theorem decStarted_p (s : State) : (decStarted s).p = s.p := rfl
@[simp] theorem decStarted_k (s : State) : (decStarted s).k = s.k := rfl
@[simp] theorem decStarted_bestPos (s : State) : (decStarted s).bestPos = s.bestPos := rfl
@[simp] theorem decStarted_bestLen (s : State) : (decStarted s).bestLen = s.bestLen := rfl
@[simp] theorem decStarted_matchPosition (s : State) : (decStarted s).matchPosition = s.matchPosition := rfl
@[simp] theorem decStarted_matchLength (s : State) : (decStarted s).matchLength = s.matchLength := rfl
@[simp] theorem decStarted_inp (s : State) : (decStarted s).inp = s.inp := rfl
@[simp] theorem decStarted_out (s : State) : (decStarted s).out = s.out := rfl
@[simp] theorem decStarted_cfg (s : State) : (decStarted s).cfg = s.cfg := rfl
@[simp] theorem decStarted_host (s : State) : (decStarted s).host = s.host := rfl
@[simp] theorem decStarted_hostData (s : State) : (decStarted s).hostData = s.hostData := rfl
@[simp] theorem decStarted_inFill (s : State) : (decStarted s).inFill = s.inFill := rfl
@[simp] theorem decStarted_outFill (s : State) : (decStarted s).outFill = s.outFill := rfl
@[simp] theorem decStarted_drawn (s : State) : (decStarted s).drawn = s.drawn := rfl

@[simp] theorem copied_op (s : State) : (copied s).op = s.op := rfl
@[simp] theorem copied_inLen (s : State) : (copied s).inLen = s.inLen := rfl
@[simp] theorem copied_outCap (s : State) : (copied s).outCap = s.outCap := rfl
@[simp] theorem copied_busy (s : State) : (copied s).busy = s.busy := rfl
@[simp] theorem copied_done (s : State) : (copied s).done = s.done := rfl
@[simp] theorem copied_status (s : State) : (copied s).status = s.status := rfl
@[simp] theorem copied_outLen (s : State) : (copied s).outLen = s.outLen := rfl
@[simp] theorem copied_opl (s : State) : (copied s).opl = s.opl := rfl
@[simp] theorem copied_n (s : State) : (copied s).n = s.n := rfl
@[simp] theorem copied_cap (s : State) : (copied s).cap = s.cap := rfl
@[simp] theorem copied_wr (s : State) : (copied s).wr = s.wr := rfl
@[simp] theorem copied_cnt (s : State) : (copied s).cnt = s.cnt := rfl
@[simp] theorem copied_pos (s : State) : (copied s).pos = s.pos := rfl
@[simp] theorem copied_wStart (s : State) : (copied s).wStart = s.wStart := rfl
@[simp] theorem copied_wEnd (s : State) : (copied s).wEnd = s.wEnd := rfl
@[simp] theorem copied_ctrlAddr (s : State) : (copied s).ctrlAddr = s.ctrlAddr := rfl
@[simp] theorem copied_ctrlAcc (s : State) : (copied s).ctrlAcc = s.ctrlAcc := rfl
@[simp] theorem copied_mp (s : State) : (copied s).mp = s.mp := rfl
@[simp] theorem copied_ml (s : State) : (copied s).ml = s.ml := rfl
@[simp] theorem copied_isMatch (s : State) : (copied s).isMatch = s.isMatch := rfl
@[simp] theorem copied_offset (s : State) : (copied s).offset = s.offset := rfl
@[simp] theorem copied_length (s : State) : (copied s).length = s.length := rfl
@[simp] theorem copied_c (s : State) : (copied s).c = s.c := rfl
@[simp] theorem copied_rd (s : State) : (copied s).rd = s.rd := rfl
@[simp] theorem copied_ctrl (s : State) : (copied s).ctrl = s.ctrl := rfl
@[simp] theorem copied_b1 (s : State) : (copied s).b1 = s.b1 := rfl
@[simp] theorem copied_b2 (s : State) : (copied s).b2 = s.b2 := rfl
@[simp] theorem copied_src (s : State) : (copied s).src = s.src := rfl
@[simp] theorem copied_i (s : State) : (copied s).i = s.i + 1 := rfl
@[simp] theorem copied_p (s : State) : (copied s).p = s.p := rfl
@[simp] theorem copied_k (s : State) : (copied s).k = s.k := rfl
@[simp] theorem copied_bestPos (s : State) : (copied s).bestPos = s.bestPos := rfl
@[simp] theorem copied_bestLen (s : State) : (copied s).bestLen = s.bestLen := rfl
@[simp] theorem copied_matchPosition (s : State) : (copied s).matchPosition = s.matchPosition := rfl
@[simp] theorem copied_matchLength (s : State) : (copied s).matchLength = s.matchLength := rfl
@[simp] theorem copied_inp (s : State) : (copied s).inp = s.inp := rfl
@[simp] theorem copied_out (s : State) : (copied s).out = s.out := rfl
@[simp] theorem copied_cfg (s : State) : (copied s).cfg = s.cfg := rfl
@[simp] theorem copied_host (s : State) : (copied s).host = s.host := rfl
@[simp] theorem copied_hostData (s : State) : (copied s).hostData = s.hostData := rfl
@[simp] theorem copied_inFill (s : State) : (copied s).inFill = s.inFill := rfl
@[simp] theorem copied_outFill (s : State) : (copied s).outFill = s.outFill := rfl
@[simp] theorem copied_drawn (s : State) : (copied s).drawn = s.drawn := rfl

@[simp] theorem copyReady_op (offset : Offset) (s : State) : (copyReady offset s).op = s.op := rfl
@[simp] theorem copyReady_inLen (offset : Offset) (s : State) : (copyReady offset s).inLen = s.inLen := rfl
@[simp] theorem copyReady_outCap (offset : Offset) (s : State) : (copyReady offset s).outCap = s.outCap := rfl
@[simp] theorem copyReady_busy (offset : Offset) (s : State) : (copyReady offset s).busy = s.busy := rfl
@[simp] theorem copyReady_done (offset : Offset) (s : State) : (copyReady offset s).done = s.done := rfl
@[simp] theorem copyReady_status (offset : Offset) (s : State) : (copyReady offset s).status = s.status := rfl
@[simp] theorem copyReady_outLen (offset : Offset) (s : State) : (copyReady offset s).outLen = s.outLen := rfl
@[simp] theorem copyReady_opl (offset : Offset) (s : State) : (copyReady offset s).opl = s.opl := rfl
@[simp] theorem copyReady_n (offset : Offset) (s : State) : (copyReady offset s).n = s.n := rfl
@[simp] theorem copyReady_cap (offset : Offset) (s : State) : (copyReady offset s).cap = s.cap := rfl
@[simp] theorem copyReady_wr (offset : Offset) (s : State) : (copyReady offset s).wr = s.wr := rfl
@[simp] theorem copyReady_cnt (offset : Offset) (s : State) : (copyReady offset s).cnt = s.cnt := rfl
@[simp] theorem copyReady_pos (offset : Offset) (s : State) : (copyReady offset s).pos = s.pos := rfl
@[simp] theorem copyReady_wStart (offset : Offset) (s : State) : (copyReady offset s).wStart = s.wStart := rfl
@[simp] theorem copyReady_wEnd (offset : Offset) (s : State) : (copyReady offset s).wEnd = s.wEnd := rfl
@[simp] theorem copyReady_ctrlAddr (offset : Offset) (s : State) : (copyReady offset s).ctrlAddr = s.ctrlAddr := rfl
@[simp] theorem copyReady_ctrlAcc (offset : Offset) (s : State) : (copyReady offset s).ctrlAcc = s.ctrlAcc := rfl
@[simp] theorem copyReady_mp (offset : Offset) (s : State) : (copyReady offset s).mp = s.mp := rfl
@[simp] theorem copyReady_ml (offset : Offset) (s : State) : (copyReady offset s).ml = s.ml := rfl
@[simp] theorem copyReady_isMatch (offset : Offset) (s : State) : (copyReady offset s).isMatch = s.isMatch := rfl
@[simp] theorem copyReady_offset (offset : Offset) (s : State) : (copyReady offset s).offset = s.offset := rfl
@[simp] theorem copyReady_length (offset : Offset) (s : State) : (copyReady offset s).length = s.length := rfl
@[simp] theorem copyReady_c (offset : Offset) (s : State) : (copyReady offset s).c = s.c := rfl
@[simp] theorem copyReady_rd (offset : Offset) (s : State) : (copyReady offset s).rd = s.rd := rfl
@[simp] theorem copyReady_ctrl (offset : Offset) (s : State) : (copyReady offset s).ctrl = s.ctrl := rfl
@[simp] theorem copyReady_b1 (offset : Offset) (s : State) : (copyReady offset s).b1 = s.b1 := rfl
@[simp] theorem copyReady_b2 (offset : Offset) (s : State) : (copyReady offset s).b2 = s.b2 := rfl
@[simp] theorem copyReady_src (offset : Offset) (s : State) : (copyReady offset s).src = copySource s.wr offset := rfl
@[simp] theorem copyReady_i (offset : Offset) (s : State) : (copyReady offset s).i = 0 := rfl
@[simp] theorem copyReady_p (offset : Offset) (s : State) : (copyReady offset s).p = s.p := rfl
@[simp] theorem copyReady_k (offset : Offset) (s : State) : (copyReady offset s).k = s.k := rfl
@[simp] theorem copyReady_bestPos (offset : Offset) (s : State) : (copyReady offset s).bestPos = s.bestPos := rfl
@[simp] theorem copyReady_bestLen (offset : Offset) (s : State) : (copyReady offset s).bestLen = s.bestLen := rfl
@[simp] theorem copyReady_matchPosition (offset : Offset) (s : State) : (copyReady offset s).matchPosition = s.matchPosition := rfl
@[simp] theorem copyReady_matchLength (offset : Offset) (s : State) : (copyReady offset s).matchLength = s.matchLength := rfl
@[simp] theorem copyReady_inp (offset : Offset) (s : State) : (copyReady offset s).inp = s.inp := rfl
@[simp] theorem copyReady_out (offset : Offset) (s : State) : (copyReady offset s).out = s.out := rfl
@[simp] theorem copyReady_cfg (offset : Offset) (s : State) : (copyReady offset s).cfg = s.cfg := rfl
@[simp] theorem copyReady_host (offset : Offset) (s : State) : (copyReady offset s).host = s.host := rfl
@[simp] theorem copyReady_hostData (offset : Offset) (s : State) : (copyReady offset s).hostData = s.hostData := rfl
@[simp] theorem copyReady_inFill (offset : Offset) (s : State) : (copyReady offset s).inFill = s.inFill := rfl
@[simp] theorem copyReady_outFill (offset : Offset) (s : State) : (copyReady offset s).outFill = s.outFill := rfl
@[simp] theorem copyReady_drawn (offset : Offset) (s : State) : (copyReady offset s).drawn = s.drawn := rfl

@[simp] theorem fetched_op (c : Byte) (s : State) : (fetched c s).op = s.op := rfl
@[simp] theorem fetched_inLen (c : Byte) (s : State) : (fetched c s).inLen = s.inLen := rfl
@[simp] theorem fetched_outCap (c : Byte) (s : State) : (fetched c s).outCap = s.outCap := rfl
@[simp] theorem fetched_busy (c : Byte) (s : State) : (fetched c s).busy = s.busy := rfl
@[simp] theorem fetched_done (c : Byte) (s : State) : (fetched c s).done = s.done := rfl
@[simp] theorem fetched_status (c : Byte) (s : State) : (fetched c s).status = s.status := rfl
@[simp] theorem fetched_outLen (c : Byte) (s : State) : (fetched c s).outLen = s.outLen := rfl
@[simp] theorem fetched_opl (c : Byte) (s : State) : (fetched c s).opl = s.opl := rfl
@[simp] theorem fetched_n (c : Byte) (s : State) : (fetched c s).n = s.n := rfl
@[simp] theorem fetched_cap (c : Byte) (s : State) : (fetched c s).cap = s.cap := rfl
@[simp] theorem fetched_wr (c : Byte) (s : State) : (fetched c s).wr = s.wr := rfl
@[simp] theorem fetched_cnt (c : Byte) (s : State) : (fetched c s).cnt = s.cnt := rfl
@[simp] theorem fetched_pos (c : Byte) (s : State) : (fetched c s).pos = s.pos := rfl
@[simp] theorem fetched_wStart (c : Byte) (s : State) : (fetched c s).wStart = s.wStart := rfl
@[simp] theorem fetched_wEnd (c : Byte) (s : State) : (fetched c s).wEnd = s.wEnd := rfl
@[simp] theorem fetched_ctrlAddr (c : Byte) (s : State) : (fetched c s).ctrlAddr = s.ctrlAddr := rfl
@[simp] theorem fetched_ctrlAcc (c : Byte) (s : State) : (fetched c s).ctrlAcc = s.ctrlAcc := rfl
@[simp] theorem fetched_mp (c : Byte) (s : State) : (fetched c s).mp = s.mp := rfl
@[simp] theorem fetched_ml (c : Byte) (s : State) : (fetched c s).ml = s.ml := rfl
@[simp] theorem fetched_isMatch (c : Byte) (s : State) : (fetched c s).isMatch = s.isMatch := rfl
@[simp] theorem fetched_offset (c : Byte) (s : State) : (fetched c s).offset = s.offset := rfl
@[simp] theorem fetched_length (c : Byte) (s : State) : (fetched c s).length = s.length := rfl
@[simp] theorem fetched_c (c : Byte) (s : State) : (fetched c s).c = c := rfl
@[simp] theorem fetched_rd (c : Byte) (s : State) : (fetched c s).rd = s.rd + 1 := rfl
@[simp] theorem fetched_ctrl (c : Byte) (s : State) : (fetched c s).ctrl = s.ctrl := rfl
@[simp] theorem fetched_b1 (c : Byte) (s : State) : (fetched c s).b1 = s.b1 := rfl
@[simp] theorem fetched_b2 (c : Byte) (s : State) : (fetched c s).b2 = s.b2 := rfl
@[simp] theorem fetched_src (c : Byte) (s : State) : (fetched c s).src = s.src := rfl
@[simp] theorem fetched_i (c : Byte) (s : State) : (fetched c s).i = s.i := rfl
@[simp] theorem fetched_p (c : Byte) (s : State) : (fetched c s).p = s.p := rfl
@[simp] theorem fetched_k (c : Byte) (s : State) : (fetched c s).k = s.k := rfl
@[simp] theorem fetched_bestPos (c : Byte) (s : State) : (fetched c s).bestPos = s.bestPos := rfl
@[simp] theorem fetched_bestLen (c : Byte) (s : State) : (fetched c s).bestLen = s.bestLen := rfl
@[simp] theorem fetched_matchPosition (c : Byte) (s : State) : (fetched c s).matchPosition = s.matchPosition := rfl
@[simp] theorem fetched_matchLength (c : Byte) (s : State) : (fetched c s).matchLength = s.matchLength := rfl
@[simp] theorem fetched_inp (c : Byte) (s : State) : (fetched c s).inp = s.inp := rfl
@[simp] theorem fetched_out (c : Byte) (s : State) : (fetched c s).out = s.out := rfl
@[simp] theorem fetched_cfg (c : Byte) (s : State) : (fetched c s).cfg = s.cfg := rfl
@[simp] theorem fetched_host (c : Byte) (s : State) : (fetched c s).host = s.host := rfl
@[simp] theorem fetched_hostData (c : Byte) (s : State) : (fetched c s).hostData = s.hostData := rfl
@[simp] theorem fetched_inFill (c : Byte) (s : State) : (fetched c s).inFill = s.inFill := rfl
@[simp] theorem fetched_outFill (c : Byte) (s : State) : (fetched c s).outFill = s.outFill := rfl
@[simp] theorem fetched_drawn (c : Byte) (s : State) : (fetched c s).drawn = s.drawn := rfl

end Sys2Proof.Machine
end

