-- ==== Sys2Proof/Laws/Memory.lean ====
section
/-! SUPPORT. The laws of a buffer: a read after a write, the canonical form, a buffer made from bytes. -/

namespace Sys2Proof.Machine

@[simp] theorem Memory.read_nil (a : Nat) : Memory.read [] a = none := rfl

@[simp] theorem Memory.read_write_same (m : Memory) (a : Nat) (v : Byte) :
    (m.write a v).read a = some v := by
  induction m with
  | nil => simp [Memory.write, Memory.read]
  | cons x m ih =>
    obtain ⟨y, w⟩ := x
    simp only [Memory.write]
    split_ifs with h1 h2
    · simp [Memory.read]
    · simp [Memory.read]
    · have : y ≠ a := fun h => h2 h.symm
      simp [Memory.read, this, ih]

theorem Memory.read_write_other (m : Memory) {a b : Nat} (v : Byte) (h : b ≠ a) :
    (m.write a v).read b = m.read b := by
  induction m with
  | nil => simp [Memory.write, Memory.read, h.symm]
  | cons x m ih =>
    obtain ⟨y, w⟩ := x
    simp only [Memory.write]
    split_ifs with h1 h2
    · simp [Memory.read, h.symm]
    · subst h2
      simp [Memory.read, h.symm]
    · simp [Memory.read, ih]

theorem Memory.read_write (m : Memory) (a b : Nat) (v : Byte) :
    (m.write a v).read b = if b = a then some v else m.read b := by
  split_ifs with h
  · subst h; simp
  · exact Memory.read_write_other m v h

/-- The canonical form of a cons: the tail is canonical and its entries lie above the head. -/
theorem Memory.wf_cons (x : Nat) (v : Byte) (m : Memory) :
    Memory.wf ((x, v) :: m) = true ↔ Memory.wf m = true ∧ ∀ c ∈ m, x < c.1 := by
  induction m generalizing x v with
  | nil => simp [Memory.wf]
  | cons y m ih =>
    obtain ⟨y, w⟩ := y
    simp only [Memory.wf, Bool.and_eq_true, decide_eq_true_eq, List.mem_cons, forall_eq_or_imp]
    constructor
    · rintro ⟨h, hw⟩
      refine ⟨hw, h, fun c hc => ?_⟩
      exact h.trans (((ih y w).mp hw).2 c hc)
    · rintro ⟨hw, h, -⟩
      exact ⟨h, hw⟩

/-- Every entry of a written memory is the new one or an old one. -/
theorem Memory.mem_write {m : Memory} {a : Nat} {v : Byte} {c : Host.Cell} (h : c ∈ m.write a v) :
    c.1 = a ∨ c ∈ m := by
  induction m with
  | nil => simp [Memory.write] at h; simp [h]
  | cons x m ih =>
    obtain ⟨y, w⟩ := x
    simp only [Memory.write] at h
    split_ifs at h with h1 h2
    · simp only [List.mem_cons] at h ⊢
      rcases h with h | h | h <;> simp [h]
    · simp only [List.mem_cons] at h ⊢
      rcases h with h | h <;> simp [h]
    · simp only [List.mem_cons] at h ⊢
      rcases h with h | h
      · simp [h]
      · rcases ih h with h | h <;> simp [h]

/-- A write keeps the canonical form. -/
theorem Memory.wf_write {m : Memory} (a : Nat) (v : Byte) (h : m.wf = true) :
    (m.write a v).wf = true := by
  induction m with
  | nil => simp [Memory.write, Memory.wf]
  | cons x m ih =>
    obtain ⟨y, w⟩ := x
    have hm := (Memory.wf_cons y w m).mp h
    simp only [Memory.write]
    split_ifs with h1 h2
    · refine (Memory.wf_cons _ _ _).mpr ⟨h, ?_⟩
      intro c hc
      rcases List.mem_cons.mp hc with rfl | hc
      · exact h1
      · exact h1.trans (hm.2 c hc)
    · subst h2
      exact (Memory.wf_cons _ _ _).mpr hm
    · refine (Memory.wf_cons _ _ _).mpr ⟨ih hm.1, ?_⟩
      intro c hc
      rcases Memory.mem_write hc with hc | hc
      · omega
      · exact hm.2 c hc

theorem Memory.mem_ofBytes {a : Nat} {vs : List Byte} {c : Host.Cell}
    (h : c ∈ Memory.ofBytes a vs) : a ≤ c.1 := by
  induction vs generalizing a with
  | nil => simp [Memory.ofBytes] at h
  | cons v vs ih =>
    rcases List.mem_cons.mp h with h | h
    · simp [h]
    · exact Nat.le_of_succ_le (ih h)

/-- A buffer made from bytes is canonical. -/
theorem Memory.wf_ofBytes (a : Nat) (vs : List Byte) : (Memory.ofBytes a vs).wf = true := by
  induction vs generalizing a with
  | nil => rfl
  | cons v vs ih =>
    exact (Memory.wf_cons _ _ _).mpr ⟨ih _, fun c hc => Memory.mem_ofBytes hc⟩

/-- A buffer made from bytes holds them from its first index on. -/
theorem Memory.read_ofBytes (a : Nat) (vs : List Byte) (j : Nat) :
    (Memory.ofBytes a vs).read (a + j) = vs[j]? := by
  induction vs generalizing a j with
  | nil => simp [Memory.ofBytes]
  | cons v vs ih =>
    cases j with
    | zero => simp [Memory.ofBytes, Memory.read]
    | succ j =>
      have : a ≠ a + (j + 1) := by omega
      have h := ih (a + 1) j
      simp only [Memory.ofBytes, Memory.read, this, if_false, List.getElem?_cons_succ]
      rw [← h]; congr 1; omega

/-! ### Bytes of OUT after a store -/

@[simp] theorem outByte_stored_same (s : State) (a : Nat) (v : Byte) : (stored s a v).outByte a = v := by
  simp [State.outByte]

theorem outByte_stored_other (s : State) {a b : Nat} (v : Byte) (h : b ≠ a) :
    (stored s a v).outByte b = s.outByte b := by
  simp [State.outByte, Memory.read_write_other _ _ h]

@[simp] theorem outByte_appended_same (s : State) (v : Byte) : (appended s v).outByte s.wr = v := by
  simp [State.outByte]

theorem outByte_appended_other (s : State) {b : Nat} (v : Byte) (h : b ≠ s.wr) :
    (appended s v).outByte b = s.outByte b := by
  simp [State.outByte, Memory.read_write_other _ _ h]

@[simp] theorem inByte_stored (s : State) (a b : Nat) (v : Byte) : (stored s a v).inByte b = s.inByte b := rfl

@[simp] theorem inByte_appended (s : State) (b : Nat) (v : Byte) : (appended s v).inByte b = s.inByte b := rfl

/-- The reads of IN depend on nothing but its contents. -/
theorem inByte_congr {s t : State} (h : t.inp = s.inp) (hf : t.inFill = s.inFill) (a : Nat) :
    t.inByte a = s.inByte a := by
  simp [State.inByte, h, hf]

/-- The reads of OUT depend on nothing but its contents. -/
theorem outByte_congr {s t : State} (h : t.out = s.out) (hf : t.outFill = s.outFill) (a : Nat) :
    t.outByte a = s.outByte a := by
  simp [State.outByte, h, hf]

end Sys2Proof.Machine
end

