-- ==== Sys2Proof/Laws/Ops.lean ====
section
/-! SUPPORT. What each shared operation can do, said once. -/

namespace Sys2Proof.Machine

/-! ### Accesses -/

theorem readIn_ok {s : State} {a : Nat} (h : a < s.n) : readIn s a = .ok (s.inByte a) := by
  simp [readIn, h]

theorem readIn_eq_ok {s : State} {a : Nat} {v : Byte} :
    readIn s a = .ok v ↔ a < s.n ∧ v = s.inByte a := by
  unfold readIn; split_ifs with h <;> simp [h, eq_comm]

theorem readOut_ok {s : State} {a : Nat} (h : a < s.wr) : readOut s a = .ok (s.outByte a) := by
  simp [readOut, h]

theorem writeOut_ok {s : State} {a : Nat} (v : Byte) (h : a < s.cap) :
    writeOut s a v = .ok (stored s a v) := by
  simp [writeOut, h]

theorem writeOut_eq_ok {s t : State} {a : Nat} {v : Byte} :
    writeOut s a v = .ok t ↔ a < s.cap ∧ t = stored s a v := by
  unfold writeOut; split_ifs with h <;> simp [h, eq_comm]

theorem append_ok {s : State} (v : Byte) (h : s.wr < s.cap) : append s v = .ok (appended s v) := by
  simp [append, h]

theorem append_eq_ok {s t : State} {v : Byte} :
    append s v = .ok t ↔ s.wr < s.cap ∧ t = appended s v := by
  unfold append; split_ifs with h <;> simp [h, eq_comm]

/-! ### Order -/

@[simp] theorem attempt_ok {α : Type} (x : α) (f : α → Result) : attempt (.ok x) f = f x := rfl

@[simp] theorem attempt_error {α : Type} (e : Fault) (f : α → Result) :
    attempt (.error e : Except Fault α) f = .fault e := rfl

@[simp] theorem thenDo_next (s : State) (f : State → Result) : thenDo (.next s) f = f s := rfl

@[simp] theorem thenDo_fault (e : Fault) (f : State → Result) : thenDo (.fault e) f = .fault e := rfl

@[simp] theorem thenDo_refused (r : Refusal) (f : State → Result) : thenDo (.refused r) f = .refused r := rfl

@[simp] theorem unlessOver_fault (e : Fault) (f : State → Result) : unlessOver (.fault e) f = .fault e := rfl

@[simp] theorem unlessOver_refused (r : Refusal) (f : State → Result) :
    unlessOver (.refused r) f = .refused r := rfl

theorem unlessOver_busy {s : State} (f : State → Result) (h : s.busy = true) :
    unlessOver (.next s) f = f s := by
  simp [unlessOver, h]

theorem unlessOver_over {s : State} (f : State → Result) (h : s.busy = false) :
    unlessOver (.next s) f = .next s := by
  simp [unlessOver, h]

theorem attempt_eq_next {α : Type} {r : Except Fault α} {f : α → Result} {t : State}
    (h : attempt r f = .next t) : ∃ x, r = .ok x ∧ f x = .next t := by
  cases r with
  | ok x => exact ⟨x, rfl, h⟩
  | error e => cases h

theorem thenDo_eq_next {o : Result} {f : State → Result} {t : State} (h : thenDo o f = .next t) :
    ∃ s, o = .next s ∧ f s = .next t := by
  cases o with
  | next s => exact ⟨s, rfl, h⟩
  | fault e => cases h
  | refused r => cases h

/-- What follows a micro-operation: the next one, or the end that a `raise` has made. -/
theorem unlessOver_eq_next {o : Result} {f : State → Result} {t : State} (h : unlessOver o f = .next t) :
    ∃ s, o = .next s ∧ ((s.busy = true ∧ f s = .next t) ∨ (s.busy = false ∧ s = t)) := by
  obtain ⟨s, hs, h⟩ := thenDo_eq_next h
  refine ⟨s, hs, ?_⟩
  cases hb : s.busy with
  | true => exact .inl ⟨rfl, by simpa [hb] using h⟩
  | false => exact .inr ⟨rfl, by simpa [hb] using h⟩

/-! ### Start, raise, finish -/

@[simp] theorem raise_eq (f : Status) (s : State) : raise f s = .next (raised f s) := rfl

@[simp] theorem finish_eq (s : State) : finish s = .next (finished s) := rfl

theorem start_busy (o : OpCode) (init : State → Result) {s : State} (h : s.busy = true) :
    start o init s = .next s := by
  simp [start, h]

/-- START in full, where the launch premises hold. -/
theorem start_ready (o : OpCode) (init : State → Result) {s : State} (hb : s.busy = false)
    (h1 : withinBound s.cfg s.inLen = true) (h2 : withinBound s.cfg s.outCap = true)
    (h3 : buffersDisjoint s.cfg s.inLen s.outCap = true) :
    start o init s = init (latch o s) := by
  simp [start, hb, h1, h2, h3]

/-- START: ignored, refused, or the latches and `init`. -/
theorem start_cases (o : OpCode) (init : State → Result) (s : State) :
    (s.busy = true ∧ start o init s = .next s) ∨
    (s.busy = false ∧ (start o init s = .refused .indexBound ∨ start o init s = .refused .buffersOverlap)) ∨
    (s.busy = false ∧ start o init s = init (latch o s)) := by
  unfold start
  cases hb : s.busy with
  | true => simp
  | false =>
    simp only [Bool.false_eq_true, if_false, false_and, true_and, false_or]
    split_ifs <;> simp

end Sys2Proof.Machine
end

