-- ==== Sys2Proof/Laws/MatchFinder.lean ====
section
/-! SUPPORT. What the Match Finder does: the run of one candidate is the maximal common prefix, the scan
keeps the longest run and the latest candidate that has it, and `FIND_PREFIX` in full. -/

namespace Sys2Proof.Machine

/-- A run length is unique. -/
theorem IsRun.unique {s : State} {we ss se p k k' : Nat} (h : IsRun s we ss se p k)
    (h' : IsRun s we ss se p k') : k = k' := by
  have aux : ∀ {a b : Nat}, IsRun s we ss se p a → IsRun s we ss se p b → ¬ a < b := by
    intro a b ha hb hab
    rcases ha.maximal with hm | hm | hm | hm
    · have := hb.capped; omega
    · have := hb.inWindow; omega
    · have := hb.inSeq; omega
    · exact hm (hb.equal a hab)
  rcases Nat.lt_trichotomy k k' with hlt | heq | hlt
  · exact absurd hlt (aux h h')
  · exact heq
  · exact absurd hlt (aux h' h)

/-- The run from `k` equal bytes on, when what the comparison may read lies in IN. -/
theorem runLength_spec {s : State} {we ss se p : Nat} (hw : we < s.n) (hs : se < s.n) :
    ∀ fuel k, fuel + k = s.cfg.maxSeqSize →
      (k = 0 ∨ p + k ≤ we + 1) → (k = 0 ∨ ss + k ≤ se + 1) →
      (∀ j, j < k → s.inByte (p + j) = s.inByte (ss + j)) →
      ∃ r, runLength s we ss se p fuel k = .ok r ∧ IsRun s we ss se p r := by
  intro fuel
  induction fuel with
  | zero =>
    intro k hk h1 h2 h3
    exact ⟨k, rfl, ⟨by omega, h1, h2, h3, .inl (by omega)⟩⟩
  | succ fuel ih =>
    intro k hk h1 h2 h3
    simp only [runLength]
    split_ifs with hc
    · rw [readIn_ok (show p + k < s.n by omega), readIn_ok (show ss + k < s.n by omega)]
      by_cases he : s.inByte (p + k) = s.inByte (ss + k)
      · simp only [he, if_true]
        refine ih (k + 1) (by omega) (.inr (by omega)) (.inr (by omega)) ?_
        intro j hj
        rcases Nat.lt_succ_iff_lt_or_eq.mp hj with hj | rfl
        · exact h3 j hj
        · exact he
      · simp only [he, if_false]
        exact ⟨k, rfl, ⟨by omega, h1, h2, h3, .inr (.inr (.inr he))⟩⟩
    · refine ⟨k, rfl, ⟨by omega, h1, h2, h3, ?_⟩⟩
      by_cases hp : p + k ≤ we
      · exact .inr (.inr (.inl (by omega)))
      · exact .inr (.inl (by omega))

/-- `run(p)` over ranges that lie in IN. -/
theorem runLength_isRun {s : State} {we ss se : Nat} (hw : we < s.n) (hs : se < s.n) (p : Nat) :
    ∃ r, runLength s we ss se p s.cfg.maxSeqSize 0 = .ok r ∧ IsRun s we ss se p r :=
  runLength_spec hw hs _ 0 (by omega) (.inl rfl) (.inl rfl) (by omega)

/-- With an empty sequence no byte is read and every run is 0 (R89). -/
theorem runLength_emptySeq (s : State) {we ss se : Nat} (h : se < ss) (p fuel : Nat) :
    runLength s we ss se p fuel 0 = .ok 0 := by
  cases fuel with
  | zero => rfl
  | succ fuel =>
    have : ¬ (p + 0 ≤ we ∧ ss + 0 ≤ se) := by omega
    simp only [runLength, this, if_false]

/-- The best pair is right for the candidates `lo` to `hi - 1`. -/
structure BestOf (s : State) (we ss se lo hi : Nat) (b : Scan) : Prop where
  inRange : lo ≤ b.bestPos ∧ b.bestPos < hi
  run     : IsRun s we ss se b.bestPos b.bestLen
  best    : ∀ p k, lo ≤ p → p < hi → IsRun s we ss se p k →
              k < b.bestLen ∨ (k = b.bestLen ∧ p ≤ b.bestPos)

/-- One more candidate keeps the best pair right. -/
theorem BestOf.visit {s : State} {we ss se lo hi k : Nat} {b : Scan}
    (h : (lo = hi ∧ b.bestLen = 0) ∨ BestOf s we ss se lo hi b) (hlo : lo ≤ hi)
    (hk : IsRun s we ss se hi k) : BestOf s we ss se lo (hi + 1) (b.visit hi k) := by
  unfold Scan.visit
  split_ifs with hb
  · refine ⟨⟨hlo, by simp⟩, hk, ?_⟩
    intro p k' hp hp' hr
    rcases Nat.lt_succ_iff_lt_or_eq.mp hp' with hlt | rfl
    · rcases h with ⟨rfl, _⟩ | h
      · omega
      · rcases h.best p k' hp hlt hr with hh | ⟨hh, _⟩ <;> simp only <;> omega
    · right; exact ⟨hr.unique hk, le_refl _⟩
  · rcases h with ⟨_, h0⟩ | h
    · omega
    · refine ⟨⟨h.inRange.1, Nat.lt_succ_of_lt h.inRange.2⟩, h.run, ?_⟩
      intro p k' hp hp' hr
      rcases Nat.lt_succ_iff_lt_or_eq.mp hp' with hlt | rfl
      · exact h.best p k' hp hlt hr
      · left; have := hr.unique hk; simp only; omega

/-- The scan over candidates whose reads lie in IN finds the longest run and the latest candidate that
has it (R82, R84, R87). -/
theorem scan_spec {s : State} {we ss se lo : Nat} (hw : we < s.n) (hs : se < s.n) :
    ∀ count p b, lo ≤ p → ((lo = p ∧ b.bestLen = 0) ∨ BestOf s we ss se lo p b) → 0 < count + (p - lo) →
      ∃ b', scan s we ss se count p b = .ok b' ∧ BestOf s we ss se lo (p + count) b' := by
  intro count
  induction count with
  | zero =>
    intro p b hp hb hpos
    rcases hb with ⟨rfl, _⟩ | hb
    · omega
    · exact ⟨b, rfl, hb⟩
  | succ count ih =>
    intro p b hp hb _
    obtain ⟨r, hr, hrun⟩ := runLength_isRun hw hs p
    obtain ⟨b', h1, h2⟩ := ih (p + 1) (b.visit p r) (by omega) (.inr (BestOf.visit hb hp hrun)) (by omega)
    refine ⟨b', by simp only [scan, hr]; exact h1, ?_⟩
    have : p + (count + 1) = p + 1 + count := by omega
    rw [this]; exact h2

/-- `FIND_PREFIX` over ranges that lie in IN, with at least one candidate. -/
theorem execFindPrefix_spec {s : State} {ws we ss se : Nat} (hww : ws ≤ we) (hw : we < s.n)
    (hs : se < s.n) :
    ∃ b : Scan, BestOf s we ss se ws (we + 1) b ∧
      execFindPrefix ws we ss se s = .next (found b s) := by
  obtain ⟨b, h1, h2⟩ := scan_spec hw hs (we + 1 - ws) ws ⟨s.p, s.k.toNat, ws, 0⟩ (le_refl _)
    (.inl ⟨rfl, rfl⟩) (by omega)
  have hc : ws + (we + 1 - ws) = we + 1 := by omega
  rw [hc] at h2
  exact ⟨b, h2, by simp only [execFindPrefix, h1, attempt_ok]⟩

/-- `FIND_PREFIX` always answers next when what it may read lies in IN, and changes nothing but its own
registers and ports (R88). -/
theorem execFindPrefix_frame {s t : State} {ws we ss se : Nat}
    (h : execFindPrefix ws we ss se s = .next t) :
    t = { s with p := t.p, k := t.k, bestPos := t.bestPos, bestLen := t.bestLen,
                 matchPosition := t.matchPosition, matchLength := t.matchLength } := by
  obtain ⟨b, _, hb⟩ := attempt_eq_next h
  cases hb; rfl

theorem reportedLength_le (m b : Nat) : reportedLength m b ≤ b := by
  unfold reportedLength; split_ifs <;> omega

end Sys2Proof.Machine
end

