-- ==== Sys2Proof/Laws/Framer.lean ====
section
/-! SUPPORT. What each operation of the Framer answers. -/

namespace Sys2Proof.Machine

theorem count_wraps (k : Count) : k + 1 = 0 ↔ k.toNat = 7 := by
  revert k; decide

theorem count_next (k : Count) (h : k.toNat < 7) : (k + 1).toNat = k.toNat + 1 := by
  revert k; decide

theorem frOpen_full {s : State} (h : s.cap < s.wr + 1) :
    frOpen s = .next (raised .outputBufferExhausted s) := by
  simp only [frOpen, gt_iff_lt, h, if_true, raise_eq]

theorem frOpen_room {s : State} (h : s.wr + 1 ≤ s.cap) : frOpen s = .next (opened s) := by
  simp only [frOpen, gt_iff_lt, Nat.not_lt.mpr h, if_false,
    writeOut_ok 0 (show s.wr < s.cap by omega), attempt_ok]

/-- `FR.OPEN` raises or opens; it does nothing else. -/
theorem frOpen_cases (s : State) :
    (s.cap < s.wr + 1 ∧ frOpen s = .next (raised .outputBufferExhausted s)) ∨
    (s.wr + 1 ≤ s.cap ∧ frOpen s = .next (opened s)) := by
  rcases Nat.lt_or_ge s.cap (s.wr + 1) with h | h
  · exact .inl ⟨h, frOpen_full h⟩
  · exact .inr ⟨h, frOpen_room h⟩

@[simp] theorem frMark_literal (s : State) : frMark false s = .next s := rfl

theorem frMark_match {s : State} (h : s.ctrlAddr < s.cap) : frMark true s = .next (marked s) := by
  simp only [frMark, if_true, writeOut_ok _ h, attempt_ok]

/-- The bits of a marked control byte (R101). -/
theorem controlBit_marked (acc : Byte) (cnt k : Count) :
    controlBit (markedControl acc cnt) k = (controlBit acc k || decide (k = cnt)) := by
  have h8 : k.toNat < 8 := k.isLt
  simp only [controlBit, markedControl, BitVec.getLsbD_or]
  congr 1
  revert k cnt; decide

/-- Bit `j` of a marked control byte, for any `j`. -/
theorem getLsbD_marked (acc : Byte) (cnt : Count) (j : Nat) :
    (markedControl acc cnt).getLsbD j = (acc.getLsbD j || decide (j = cnt.toNat)) := by
  rcases Nat.lt_or_ge j 8 with h | h
  · have h' : (BitVec.ofNat 3 j).toNat = j := by simp; omega
    have := controlBit_marked acc cnt (BitVec.ofNat 3 j)
    simp only [controlBit, h'] at this
    rw [this]
    congr 1
    simp only [decide_eq_decide]
    constructor
    · intro e; rw [← e, h']
    · intro e; apply BitVec.eq_of_toNat_eq; rw [h', e]
  · rw [BitVec.getLsbD_of_ge _ _ h, BitVec.getLsbD_of_ge _ _ h]
    have : cnt.toNat < 8 := cnt.isLt
    simp; omega

/-- The state after the bytes of one token are appended (R102). -/
def putBytes (c : Byte) (isMatch : Bool) (offset : Offset) (length : Length) (s : State) : State :=
  if isMatch then appended (appended (appended s c) (packHigh offset)) (packLow offset length)
  else appended s c

theorem frPut_room {s : State} (c : Byte) (isMatch : Bool) (offset : Offset) (length : Length)
    (h : s.wr + tokenNeed isMatch ≤ s.cap) :
    frPut c isMatch offset length s = .next (putBytes c isMatch offset length s) := by
  cases isMatch with
  | false =>
    simp only [tokenNeed, Bool.false_eq_true, if_false] at h
    simp only [frPut, putBytes, append_ok c (show s.wr < s.cap by omega), attempt_ok,
      Bool.false_eq_true, if_false]
  | true =>
    simp only [tokenNeed, if_true] at h
    simp only [frPut, putBytes, if_true]
    rw [append_ok c (show s.wr < s.cap by omega), attempt_ok, append_ok _ (by simp; omega), attempt_ok,
      append_ok _ (by simp; omega), attempt_ok]

theorem frNextEnc_inside {s : State} (h : s.cnt.toNat < 7) : frNextEnc s = .next (counted s) := by
  have : ¬ s.cnt + 1 = 0 := fun e => by have := (count_wraps _).mp e; omega
  simp only [frNextEnc, this, false_and, if_false]

theorem frNextEnc_eighth {s : State} (h : s.cnt.toNat = 7) : frNextEnc s = frOpen (counted s) := by
  simp only [frNextEnc, (count_wraps _).mpr h, Config.eagerCtrl, and_self, if_true]

theorem frLoad_ok {s : State} (h : s.rd < s.n) : frLoad s = .next (loaded (s.inByte s.rd) s) := by
  simp only [frLoad, readIn_ok h, attempt_ok, execCtrl]

theorem frGetMatch_cut {s : State} (go : State → Result) (h : s.n < s.rd + 2) :
    frGetMatch s go = .next (raised .corruptStream s) := by
  simp only [frGetMatch, gt_iff_lt, h, if_true, raise_eq]

theorem frGetMatch_ok {s : State} (go : State → Result) (h : s.rd + 2 ≤ s.n) :
    frGetMatch s go = go (gotMatch (s.inByte s.rd) (s.inByte (s.rd + 1)) s) := by
  simp only [frGetMatch, gt_iff_lt, Nat.not_lt.mpr h, if_false,
    readIn_ok (show s.rd < s.n by omega), readIn_ok (show s.rd + 1 < s.n by omega), attempt_ok]

theorem frNextDec_inside {s : State} (h : s.cnt.toNat < 7) : frNextDec s = .next (counted s) := by
  have : ¬ s.cnt + 1 = 0 := fun e => by have := (count_wraps _).mp e; omega
  simp only [frNextDec, this, false_and, if_false]

theorem frNextDec_load {s : State} (h : s.cnt.toNat = 7) (hr : s.rd < s.n) :
    frNextDec s = .next (loaded (s.inByte s.rd) (counted s)) := by
  simp only [frNextDec, (count_wraps _).mpr h, hr, and_self, if_true]
  exact frLoad_ok (s := counted s) hr

/-- With no byte left there is no next control byte, and none is required. -/
theorem frNextDec_end {s : State} (hr : s.n ≤ s.rd) :
    frNextDec s = .next (counted s) := by
  simp only [frNextDec, Nat.not_lt.mpr hr, and_false, if_false]

end Sys2Proof.Machine
end

