-- ==== Sys2Proof/Laws/Decoder.lean ====
section
/-! SUPPORT. What each operation of the Decoder answers. -/

namespace Sys2Proof.Machine

theorem execLit_room {s : State} (c : Byte) (h : s.wr + 1 ≤ s.cap) :
    execLit c s = .next (appended s c) := by
  simp only [execLit, gt_iff_lt, Nat.not_lt.mpr h, if_false, append_ok c (show s.wr < s.cap by omega),
    attempt_ok]

theorem execLit_full {s : State} (c : Byte) (h : s.cap < s.wr + 1) :
    execLit c s = .next (raised .outputBufferExhausted s) := by
  simp only [execLit, gt_iff_lt, h, if_true, raise_eq]

/-- What a partly run copy loop has done: `j` bytes appended from `src` on, the rest untouched. -/
structure CopyDone (s : State) (j : Nat) (t : State) : Prop where
  frame  : t = { s with out := t.out, wr := s.wr + j, i := s.i + BitVec.ofNat 4 j }
  before : ∀ a, a < s.wr ∨ s.wr + j ≤ a → t.out.read a = s.out.read a
  copied : ∀ m, m < j → t.outByte (s.wr + m) = t.outByte (s.src + s.i.toNat + m)
  outWf  : s.out.wf = true → t.out.wf = true

theorem CopyDone.wr {s t : State} {j : Nat} (h : CopyDone s j t) : t.wr = s.wr + j := by rw [h.frame]
theorem CopyDone.cap {s t : State} {j : Nat} (h : CopyDone s j t) : t.cap = s.cap := by rw [h.frame]
theorem CopyDone.outFill {s t : State} {j : Nat} (h : CopyDone s j t) : t.outFill = s.outFill := by
  rw [h.frame]

theorem CopyDone.outByte {s t : State} {j : Nat} (h : CopyDone s j t) {a : Nat}
    (ha : a < s.wr ∨ s.wr + j ≤ a) : t.outByte a = s.outByte a := by
  simp [State.outByte, h.before a ha, h.outFill]

/-- The copy loop (R157): with its source below the write cursor and room for its bytes it completes,
and each copied byte equals the byte it was copied from. -/
theorem copyBytes_spec : ∀ (j : Nat) (s : State), s.src + s.i.toNat < s.wr → s.wr + j ≤ s.cap →
    s.i.toNat + j < 16 → ∃ t, copyBytes j s = .next t ∧ CopyDone s j t := by
  intro j
  induction j with
  | zero =>
    intro s _ _ _
    refine ⟨s, rfl, ⟨?_, fun _ _ => rfl, by simp, id⟩⟩
    simp
  | succ j ih =>
    intro s hs hr hi
    have hi1 : (s.i + 1).toNat = s.i.toNat + 1 := by simp [BitVec.toNat_add]; omega
    obtain ⟨t, ht, hd⟩ := ih (copied (appended s (s.outByte (s.src + s.i.toNat))))
      (by simp only [copied_src, appended_src, copied_i, appended_i, copied_wr, appended_wr, hi1]; omega)
      (by simp only [copied_wr, appended_wr, copied_cap, appended_cap]; omega)
      (by simp only [copied_i, appended_i, hi1]; omega)
    refine ⟨t, ?_, ?_, ?_, ?_, fun hw => hd.outWf (Memory.wf_write _ _ hw)⟩
    · simp only [copyBytes, readOut_ok hs, attempt_ok, append_ok _ (show s.wr < s.cap by omega)]
      exact ht
    · have h := hd.frame
      have e1 : s.wr + 1 + j = s.wr + (j + 1) := by omega
      have e2 : s.i + 1 + BitVec.ofNat 4 j = s.i + BitVec.ofNat 4 (j + 1) := by
        rw [BitVec.add_assoc]; congr 1; apply BitVec.eq_of_toNat_eq; simp [BitVec.toNat_add]; omega
      rw [copied_wr, appended_wr, copied_i, appended_i, e1, e2] at h
      exact h
    · intro a ha
      have h := hd.before a (by simp only [copied_wr, appended_wr]; omega)
      rw [h]
      exact Memory.read_write_other _ _ (by omega)
    · intro m hm
      rcases m with _ | m
      · have h1 := hd.outByte (a := s.wr) (by simp)
        have h2 := hd.outByte (a := s.src + s.i.toNat) (by simp; omega)
        simp only [Nat.add_zero, h1, h2]
        have : s.src + s.i.toNat ≠ s.wr := by omega
        simp only [State.outByte, copied_out, appended_out, copied_outFill, appended_outFill,
          Memory.read_write_same, Memory.read_write_other _ _ this, Option.getD_some]
      · have h := hd.copied m (by omega)
        simp only [copied_wr, appended_wr, copied_src, appended_src, copied_i, appended_i, hi1] at h
        have e1 : s.wr + (m + 1) = s.wr + 1 + m := by omega
        have e2 : s.src + s.i.toNat + (m + 1) = s.src + (s.i.toNat + 1) + m := by omega
        rw [e1, e2]; exact h

/-- A chain of copies from `d` places back repeats the last `d` bytes (R157). -/
theorem periodic_of_copy {f : Nat → Byte} {wr d n : Nat} (hd : 0 < d) (hw : d ≤ wr)
    (h : ∀ m, m < n → f (wr + m) = f (wr - d + m)) :
    ∀ m, m < n → f (wr + m) = f (wr - d + m % d) := by
  intro m
  induction m using Nat.strong_induction_on with
  | _ m ih =>
    intro hm
    rw [h m hm]
    rcases Nat.lt_or_ge m d with hlt | hge
    · rw [Nat.mod_eq_of_lt hlt]
    · have e : wr - d + m = wr + (m - d) := by omega
      rw [e, ih (m - d) (by omega) (by omega), Nat.mod_eq_sub_mod hge]

/-- `MATCH` whose guards pass. -/
theorem execMatch_ok {s : State} (c : Byte) {offset : Offset} {length : Length}
    (h1 : offset.toNat + 1 ≤ s.wr) (h2 : tooShort s.cfg length = false)
    (h3 : s.wr + length.toNat + 1 ≤ s.cap) :
    ∃ t, CopyDone (copyReady offset s) length.toNat t ∧
      execMatch c offset length s = .next (appended t c) := by
  have hl : length.toNat < 16 := length.isLt
  obtain ⟨t, ht, hd⟩ := copyBytes_spec length.toNat (copyReady offset s)
    (by simp [copySource]; omega) (by simp; omega) (by simp; omega)
  refine ⟨t, hd, ?_⟩
  simp only [execMatch, gt_iff_lt, Nat.not_lt.mpr h1, if_false, h2, Nat.not_lt.mpr h3,
    Bool.false_eq_true, ht, thenDo_next]
  rw [append_ok c (by rw [hd.wr, hd.cap]; simp; omega), attempt_ok]

theorem execMatch_badOffset {s : State} (c : Byte) {offset : Offset} (length : Length)
    (h : s.wr < offset.toNat + 1) :
    execMatch c offset length s = .next (raised .corruptStream s) := by
  simp only [execMatch, gt_iff_lt, h, if_true, raise_eq]

theorem execMatch_tooShort {s : State} (c : Byte) {offset : Offset} {length : Length}
    (h1 : offset.toNat + 1 ≤ s.wr) (h2 : tooShort s.cfg length = true) :
    execMatch c offset length s = .next (raised .corruptStream s) := by
  simp only [execMatch, gt_iff_lt, Nat.not_lt.mpr h1, if_false, h2, if_true, raise_eq]

theorem execMatch_full {s : State} (c : Byte) {offset : Offset} {length : Length}
    (h1 : offset.toNat + 1 ≤ s.wr) (h2 : tooShort s.cfg length = false)
    (h3 : s.cap < s.wr + length.toNat + 1) :
    execMatch c offset length s = .next (raised .outputBufferExhausted s) := by
  simp only [execMatch, gt_iff_lt, Nat.not_lt.mpr h1, if_false, h2, h3, if_true, raise_eq,
    Bool.false_eq_true]

/-- The fetch of a token (R153, R155): a literal, a whole match token, or one cut by the end. -/
theorem fetchToken_cases {s : State} (go : Instr → State → Result) (h : s.rd < s.n) :
    (frTest s = false ∧ fetchToken s go = go (.lit (s.inByte s.rd)) (fetched (s.inByte s.rd) s)) ∨
    (frTest s = true ∧ s.n < s.rd + 3 ∧
      fetchToken s go = .next (raised .corruptStream (fetched (s.inByte s.rd) s))) ∨
    (frTest s = true ∧ s.rd + 3 ≤ s.n ∧
      fetchToken s go =
        go (decodeMatch (s.inByte s.rd) (s.inByte (s.rd + 1)) (s.inByte (s.rd + 2)))
          (gotMatch (s.inByte (s.rd + 1)) (s.inByte (s.rd + 2)) (fetched (s.inByte s.rd) s))) := by
  simp only [fetchToken, readIn_ok h, attempt_ok]
  cases ht : frTest s with
  | false => simp only [Bool.false_eq_true, if_false, decodeLit, and_self, true_or]
  | true =>
    simp only [if_true]
    rcases Nat.lt_or_ge s.n (s.rd + 3) with hc | hc
    · exact Or.inr (.inl ⟨trivial, hc, frGetMatch_cut _ (by simp; omega)⟩)
    · exact Or.inr (.inr ⟨trivial, hc, frGetMatch_ok _ (by simp; omega)⟩)

end Sys2Proof.Machine
end

