-- ==== Sys2Proof/Laws/Encoder.lean ====
section
/-! SUPPORT. What each micro-operation of the Encoder answers, and `ENC.STEP` in full from a state that
meets the invariant. -/

namespace Sys2Proof.Machine

/-! ### ENC.SEARCH -/

theorem encSearch_none {s : State} (h : s.n ≤ s.pos + 1) : encSearch s = .next (notSearched s) := by
  have : searches s = false := decide_eq_false (show ¬ s.pos + 1 < s.n by omega)
  simp only [encSearch, this, Bool.false_eq_true, if_false]

theorem encSearch_some {s : State} (h : s.pos + 1 < s.n) :
    encSearch s = thenDo (execFindPrefix s.wStart s.wEnd s.pos (s.n - 2) s) fun s => .next (searched s) := by
  have h1 : searches s = true := decide_eq_true (show s.pos + 1 < s.n from h)
  have h2 : sequenceEnd s = s.n - 2 := show s.n - 1 - 1 = s.n - 2 by omega
  simp only [encSearch, h1, if_true, h2]

/-- What a search leaves for `ENC.CONSUME`: nothing that `MIN_MATCH` reaches, or a match that lies in
the window and leaves a trailing byte (R135 item 5). -/
inductive SearchResult (s : State) : State → Prop where
  /-- no search was made: one byte is left -/
  | unsearched (h : s.n ≤ s.pos + 1) : SearchResult s (notSearched s)
  /-- the best run is below `MIN_MATCH` -/
  | short (b : Scan) (h : s.pos + 1 < s.n)
      (hb : BestOf s s.wEnd s.pos (s.n - 2) s.wStart (s.wEnd + 1) b) (hl : b.bestLen < s.cfg.minMatch) :
      SearchResult s (searched (found b s))
  /-- a match -/
  | found (b : Scan) (h : s.pos + 1 < s.n)
      (hb : BestOf s s.wEnd s.pos (s.n - 2) s.wStart (s.wEnd + 1) b) (hl : s.cfg.minMatch ≤ b.bestLen)
      (hlen : b.bestLen ≤ 15) (hp : 0 < s.pos) (hsrc : b.bestPos + b.bestLen ≤ s.pos)
      (hoff : s.pos - b.bestPos ≤ s.cfg.windowSize) (hend : s.pos + b.bestLen ≤ s.n - 1) :
      SearchResult s (searched (found b s))

theorem encSearch_spec {s : State} (hI : Inv s) (hE : EncInv s) :
    ∃ u, encSearch s = .next u ∧ SearchResult s u := by
  rcases Nat.lt_or_ge (s.pos + 1) s.n with h | h
  · have hwe : s.wEnd < s.n ∧ s.wStart ≤ s.wEnd ∧ s.wEnd ≤ s.pos := by
      rcases Nat.eq_zero_or_pos s.pos with h0 | h0
      · have := hE.atStart h0; omega
      · have := hE.window h0; have := hI.params.1; omega
    obtain ⟨b, hb, hx⟩ := execFindPrefix_spec (s := s) (ws := s.wStart) (we := s.wEnd) (ss := s.pos)
      (se := s.n - 2) hwe.2.1 hwe.1 (by omega)
    refine ⟨searched (found b s), by rw [encSearch_some h, hx, thenDo_next], ?_⟩
    rcases Nat.lt_or_ge b.bestLen s.cfg.minMatch with hl | hl
    · exact .short b h hb hl
    · have hmin := hI.realRun
      have hcap := hb.run.capped
      have hmax := hI.params.2.2.2.2
      have hw := hb.run.inWindow
      have hs := hb.run.inSeq
      have hr := hb.inRange
      have h0 : 0 < s.pos := by
        rcases Nat.eq_zero_or_pos s.pos with h0 | h0
        · have := hE.atStart h0; omega
        · exact h0
      have := hE.window h0
      exact .found b h hb hl (by omega) h0 (by omega) (by omega) (by omega)
  · exact ⟨_, encSearch_none h, .unsearched h⟩

/-! ### ENC.CONSUME -/

/-- What `ENC.SEARCH` and `ENC.CONSUME` leave: a literal or a match token in the registers. -/
inductive Consumed (s : State) : State → Prop where
  | literal (u : State) (hu : SearchResult s u) (h : u.ml = 0 ∨ u.ml.toNat < s.cfg.minMatch) :
      Consumed s (consumedLiteral (s.inByte s.pos) u)
  | matched (b : Scan) (h : s.pos + 1 < s.n)
      (hb : BestOf s s.wEnd s.pos (s.n - 2) s.wStart (s.wEnd + 1) b) (hl : s.cfg.minMatch ≤ b.bestLen)
      (hlen : b.bestLen ≤ 15) (hp : 0 < s.pos) (hsrc : b.bestPos + b.bestLen ≤ s.pos)
      (hoff : s.pos - b.bestPos ≤ s.cfg.windowSize) (hend : s.pos + b.bestLen ≤ s.n - 1) :
      Consumed s (consumedMatch (BitVec.ofNat 12 (s.pos - b.bestPos - 1))
        (s.inByte (s.pos + b.bestLen)) (searched (found b s)))

theorem reportedLength_toNat {m b : Nat} (h : b ≤ 15) :
    (BitVec.ofNat 4 (reportedLength m b)).toNat = if b < m then 0 else b := by
  unfold reportedLength
  split_ifs
  · simp
  · simp; omega

theorem inByte_searched (b : Scan) (s : State) (a : Nat) :
    (searched (found b s)).inByte a = s.inByte a := rfl

theorem encConsume_spec {s u : State} (hI : Inv s) (hp : s.pos < s.n) (hu : SearchResult s u) :
    ∃ v, encConsume u = .next v ∧ Consumed s v := by
  have hmin := hI.realRun
  have hW := hI.params.2.1
  have lit : ∀ u, SearchResult s u → u.cfg = s.cfg → u.pos = s.pos → u.n = s.n →
      (∀ a, u.inByte a = s.inByte a) → u.ml.toNat < s.cfg.minMatch →
      ∃ v, encConsume u = .next v ∧ Consumed s v := by
    intro u hu hc hpu hnu hin hm
    refine ⟨_, ?_, .literal u hu (.inr hm)⟩
    have : ¬ u.cfg.minMatch ≤ u.ml.toNat := by rw [hc]; omega
    rw [encConsume, if_neg this, encConsumeLiteral, readIn_ok (by rw [hpu, hnu]; exact hp), attempt_ok,
      hpu, hin]
  cases hu with
  | unsearched h =>
    exact lit _ (.unsearched h) rfl rfl rfl (fun _ => rfl) (by simp; omega)
  | short b h hb hl =>
    refine lit _ (.short b h hb hl) rfl rfl rfl (fun _ => rfl) ?_
    have h15 : b.bestLen ≤ 15 := hb.run.capped.trans hI.params.2.2.2.2
    simp only [searched_ml, found_matchLength]
    rw [reportedLength_toNat h15, if_pos hl]
    omega
  | found b h hb hl hlen h0 hsrc hoff hend =>
    refine ⟨_, ?_, .matched b h hb hl hlen h0 hsrc hoff hend⟩
    have hml : (searched (found b s)).ml.toNat = b.bestLen := by
      simp only [searched_ml, found_matchLength]
      rw [reportedLength_toNat hlen, if_neg (by omega)]
    have hmo : matchOffset (searched (found b s)).pos (searched (found b s)).mp =
        some (BitVec.ofNat 12 (s.pos - b.bestPos - 1)) := by
      rw [matchOffset, if_pos (by simp only [searched_pos, searched_mp, found_pos, found_matchPosition]; omega)]
      rfl
    rw [encConsume, if_pos (by rw [hml]; exact hl), encConsumeMatch, hmo]
    simp only
    rw [hml, readIn_ok (by simp only [searched_pos, found_pos, searched_n, found_n]; omega), attempt_ok]
    simp only [searched_pos, found_pos, inByte_searched]

/-! ### ENC.CHECK to ENC.WINDOW -/

/-- The token in the registers written out, with its control bit (R127). -/
def emitted (v : State) : State :=
  putBytes v.c v.isMatch v.offset v.length (if v.isMatch then marked v else v)

theorem encEmit_ok {v : State} (hr : v.wr + tokenNeed v.isMatch ≤ v.cap) (ha : v.ctrlAddr < v.cap) :
    encEmit v = .next (emitted v) := by
  unfold encEmit emitted
  cases hm : v.isMatch with
  | false =>
    rw [hm] at hr
    simp only [frMark_literal, thenDo_next, hm, Bool.false_eq_true, if_false]
    exact frPut_room _ _ _ _ hr
  | true =>
    rw [hm] at hr
    simp only [frMark_match ha, thenDo_next, marked_c, marked_isMatch, marked_offset, marked_length, hm,
      if_true]
    exact frPut_room _ _ _ _ hr

theorem encWindow_exact (b : Bool) {w : State} (h : w.cfg.windowPolicy = .exact) :
    encWindow b w = .next (windowMoved (exactWindowStart w.cfg.windowSize w.wStart (w.pos - 1)) w) := by
  simp only [encWindow, h]

/-- The window moved by the exact policy. -/
def slid (w : State) : State :=
  windowMoved (exactWindowStart w.cfg.windowSize w.wStart (w.pos - 1)) w

/-- What an encoder iteration answers once its token is in the registers `v`. -/
inductive IterationEnd (v : State) : State → Prop where
  /-- the token does not fit (R126) -/
  | full (h : v.cap < v.wr + tokenNeed v.isMatch) : IterationEnd v (raised .outputBufferExhausted v)
  /-- the token is written, its group goes on -/
  | inGroup (h : v.wr + tokenNeed v.isMatch ≤ v.cap) (hc : v.cnt.toNat < 7) :
      IterationEnd v (slid (counted (emitted v)))
  /-- the token is written and was the group's 8th, the next control byte does not fit (R128) -/
  | groupFull (h : v.wr + tokenNeed v.isMatch ≤ v.cap) (hc : v.cnt.toNat = 7)
      (hr : v.cap < v.wr + tokenNeed v.isMatch + 1) :
      IterationEnd v (raised .outputBufferExhausted (counted (emitted v)))
  /-- the token is written and was the group's 8th, the next group is opened -/
  | newGroup (h : v.wr + tokenNeed v.isMatch ≤ v.cap) (hc : v.cnt.toNat = 7)
      (hr : v.wr + tokenNeed v.isMatch + 1 ≤ v.cap) :
      IterationEnd v (slid (opened (counted (emitted v))))

/-- The fields of a state after its token is written, but OUT. -/
theorem emitted_frame (v : State) :
    emitted v = { v with out := (emitted v).out, wr := v.wr + tokenNeed v.isMatch,
                         ctrlAcc := if v.isMatch then markedControl v.ctrlAcc v.cnt else v.ctrlAcc } := by
  unfold emitted putBytes
  cases h : v.isMatch <;> simp [tokenNeed, appended, marked, h]

theorem emitted_wr (v : State) : (emitted v).wr = v.wr + tokenNeed v.isMatch := by rw [emitted_frame]
theorem emitted_cap (v : State) : (emitted v).cap = v.cap := by rw [emitted_frame]
theorem emitted_cnt (v : State) : (emitted v).cnt = v.cnt := by rw [emitted_frame]
theorem emitted_busy (v : State) : (emitted v).busy = v.busy := by rw [emitted_frame]
theorem emitted_cfg (v : State) : (emitted v).cfg = v.cfg := by rw [emitted_frame]
theorem emitted_pos (v : State) : (emitted v).pos = v.pos := by rw [emitted_frame]
theorem emitted_wStart (v : State) : (emitted v).wStart = v.wStart := by rw [emitted_frame]
theorem emitted_ctrlAddr (v : State) : (emitted v).ctrlAddr = v.ctrlAddr := by rw [emitted_frame]
theorem emitted_ctrlAcc (v : State) :
    (emitted v).ctrlAcc = if v.isMatch then markedControl v.ctrlAcc v.cnt else v.ctrlAcc := by
  rw [emitted_frame]
theorem emitted_isMatch (v : State) : (emitted v).isMatch = v.isMatch := by rw [emitted_frame]

theorem encTail_spec (b : Bool) {v : State} (hb : v.busy = true) (hp : v.cfg.windowPolicy = .exact)
    (ha : v.ctrlAddr < v.cap) :
    ∃ t, inOrder [encCheck, encEmit, encGroup, encWindow b] v = .next t ∧ IterationEnd v t := by
  rcases Nat.lt_or_ge v.cap (v.wr + tokenNeed v.isMatch) with h | h
  · refine ⟨_, ?_, .full h⟩
    simp only [inOrder, encCheck, gt_iff_lt, h, if_true, raise_eq]
    exact unlessOver_over _ rfl
  · have hcheck : encCheck v = .next v := by
      simp only [encCheck, gt_iff_lt, Nat.not_lt.mpr h, if_false]
    have hemit := encEmit_ok h ha
    have hbe : (emitted v).busy = true := by rw [emitted_busy, hb]
    have tail : ∀ w, w.busy = true → w.cfg.windowPolicy = .exact →
        unlessOver (encWindow b w) (inOrder []) = .next (slid w) := by
      intro w hw hpw
      rw [encWindow_exact b hpw, unlessOver_busy _ (by simpa using hw)]
      rfl
    have hpe : (emitted v).cfg.windowPolicy = .exact := by rw [emitted_cfg, hp]
    rcases Nat.lt_or_ge (v.cnt.toNat) 7 with hc | hc
    · refine ⟨_, ?_, .inGroup h hc⟩
      have hg : encGroup (emitted v) = .next (counted (emitted v)) :=
        frNextEnc_inside (by rw [emitted_cnt]; exact hc)
      simp only [inOrder, hcheck, unlessOver_busy _ hb, hemit, unlessOver_busy _ hbe, hg]
      rw [unlessOver_busy _ (by simpa using hbe)]
      exact tail _ hbe hpe
    · have hc7 : v.cnt.toNat = 7 := by have : v.cnt.toNat < 8 := v.cnt.isLt; omega
      have hg : encGroup (emitted v) = frOpen (counted (emitted v)) :=
        frNextEnc_eighth (by rw [emitted_cnt]; exact hc7)
      rcases frOpen_cases (counted (emitted v)) with ⟨hr, ho⟩ | ⟨hr, ho⟩
      · simp only [counted_cap, counted_wr, emitted_cap, emitted_wr] at hr
        refine ⟨_, ?_, .groupFull h hc7 hr⟩
        simp only [inOrder, hcheck, unlessOver_busy _ hb, hemit, unlessOver_busy _ hbe, hg, ho]
        exact unlessOver_over _ rfl
      · simp only [counted_cap, counted_wr, emitted_cap, emitted_wr] at hr
        refine ⟨_, ?_, .newGroup h hc7 hr⟩
        simp only [inOrder, hcheck, unlessOver_busy _ hb, hemit, unlessOver_busy _ hbe, hg, ho]
        rw [unlessOver_busy _ (by simpa using hbe)]
        exact tail _ hbe hpe

/-- What `ENC.SEARCH` and `ENC.CONSUME` never touch. -/
structure SameAround (s v : State) : Prop where
  frame : v = { s with p := v.p, k := v.k, bestPos := v.bestPos, bestLen := v.bestLen,
                       matchPosition := v.matchPosition, matchLength := v.matchLength,
                       mp := v.mp, ml := v.ml, drawn := v.drawn, isMatch := v.isMatch,
                       offset := v.offset, length := v.length, pos := v.pos, c := v.c }

theorem Consumed.around {s v : State} (h : Consumed s v) : SameAround s v := by
  cases h with
  | literal u hu h =>
    refine ⟨?_⟩
    cases hu <;> rfl
  | matched b h hb hl hlen h0 hsrc hoff hend => exact ⟨rfl⟩

/-- `ENC.STEP` (R138) from a state that meets the invariant: the token it takes, then how it ends. -/
theorem encStep_spec {s : State} (hI : Inv s) (hE : EncInv s) (hb : s.busy = true) (hp : s.pos < s.n) :
    ∃ v t, encStep s = .next t ∧ Consumed s v ∧ IterationEnd v t := by
  obtain ⟨u, h1, hu⟩ := encSearch_spec hI hE
  obtain ⟨v, h2, hv⟩ := encConsume_spec hI hp hu
  have hf := hv.around.frame
  have hvb : v.busy = true := by rw [hf]; exact hb
  have hub : u.busy = true := by cases hu <;> exact hb
  have hvp : v.cfg.windowPolicy = .exact := by rw [hf]; exact hI.policy
  have hva : v.ctrlAddr < v.cap := by
    have e1 : v.ctrlAddr = s.ctrlAddr := by rw [hf]
    have e2 : v.cap = s.cap := by rw [hf]
    rw [e1, e2]
    exact lt_of_lt_of_le (hE.group (by omega)) hE.room
  obtain ⟨t, h3, ht⟩ := encTail_spec (searches s) hvb hvp hva
  refine ⟨v, t, ?_, hv, ht⟩
  unfold encStep
  rw [inOrder, h1, unlessOver_busy _ hub, inOrder, h2, unlessOver_busy _ hvb]
  exact h3

/-- The cursor after a token (R124, R125). -/
theorem Consumed.pos {s v : State} (h : Consumed s v) :
    v.pos = s.pos + (if v.isMatch then v.length.toNat + 1 else 1) ∧ (s.pos < s.n → v.pos ≤ s.n) ∧
      v.c = s.inByte (v.pos - 1) := by
  cases h with
  | literal u hu h =>
    have : u.pos = s.pos := by cases hu <;> rfl
    simp only [consumedLiteral_pos, consumedLiteral_isMatch, consumedLiteral_c, this, Bool.false_eq_true,
      if_false, true_and, Nat.add_sub_cancel, and_true]
    omega
  | matched b h hb hl hlen h0 hsrc hoff hend =>
    have hml : (searched (found b s)).ml.toNat = b.bestLen := by
      simp only [searched_ml, found_matchLength]
      rw [reportedLength_toNat hlen, if_neg (by omega)]
    simp only [consumedMatch_pos, consumedMatch_isMatch, consumedMatch_c, consumedMatch_length, hml,
      searched_pos, found_pos, if_true, Nat.add_sub_cancel, and_true]
    refine ⟨by omega, by omega⟩

/-- The exact policy leaves the window on the last `min(pos, WINDOW_SIZE)` bytes (R129). -/
theorem exactWindowStart_spec {W q pos ws : Nat} (hW : 1 ≤ W) (hq : q < pos)
    (h : (q = 0 ∧ ws = 0) ∨ (0 < q ∧ ws = q - W)) : exactWindowStart W ws (pos - 1) = pos - W := by
  unfold exactWindowStart
  split_ifs <;> omega

/-- The token of an iteration stays in the registers, however it ends (R124, R125). -/
theorem IterationEnd.token {v t : State} (h : IterationEnd v t) :
    t.isMatch = v.isMatch ∧ t.offset = v.offset ∧ t.length = v.length ∧ t.c = v.c ∧ t.pos = v.pos := by
  have hf := emitted_frame v
  cases h with
  | full h => exact ⟨rfl, rfl, rfl, rfl, rfl⟩
  | groupFull h hc hr => rw [hf]; exact ⟨rfl, rfl, rfl, rfl, rfl⟩
  | inGroup h hc => simp only [slid]; rw [hf]; exact ⟨rfl, rfl, rfl, rfl, rfl⟩
  | newGroup h hc hr => simp only [slid]; rw [hf]; exact ⟨rfl, rfl, rfl, rfl, rfl⟩

theorem slid_outByte (w : State) (a : Nat) : (slid w).outByte a = w.outByte a := rfl

theorem counted_outByte (w : State) (a : Nat) : (counted w).outByte a = w.outByte a := rfl

theorem opened_outByte_self (w : State) : (opened w).outByte w.wr = 0 := by
  simp only [State.outByte, opened, Memory.read_write_same, Option.getD_some]

theorem opened_outByte_other {w : State} {a : Nat} (h : a ≠ w.wr) : (opened w).outByte a = w.outByte a := by
  simp only [State.outByte, opened, Memory.read_write_other _ _ h]

/-- The bytes of OUT after an iteration, from its token `v` on: those the token leaves where it fits, the zero
byte of a group that is opened, and otherwise what was there (R126 to R128, R187). -/
theorem IterationEnd.outByte {v t : State} (h : IterationEnd v t) (a : Nat) :
    t.outByte a =
      if v.cap < v.wr + tokenNeed v.isMatch then v.outByte a
      else if v.cnt.toNat = 7 ∧ v.wr + tokenNeed v.isMatch + 1 ≤ v.cap ∧ a = v.wr + tokenNeed v.isMatch then 0
      else (emitted v).outByte a := by
  cases h with
  | full h => rw [if_pos h]; rfl
  | groupFull h hc hr => rw [if_neg (by omega), if_neg (by omega)]; rfl
  | inGroup h hc => rw [if_neg (by omega), if_neg (by omega)]; rfl
  | newGroup h hc hr =>
    rw [if_neg (by omega), slid_outByte]
    have hw : (counted (emitted v)).wr = v.wr + tokenNeed v.isMatch := emitted_wr v
    rcases eq_or_ne a (v.wr + tokenNeed v.isMatch) with rfl | ha
    · rw [if_pos ⟨hc, hr, rfl⟩, ← hw]; exact opened_outByte_self _
    · rw [if_neg (by omega), opened_outByte_other (by rw [hw]; exact ha)]; rfl

/-- The cursor and the running control byte after an iteration, from its token `v` on (R100 to R103, R126). -/
theorem IterationEnd.cursor {v t : State} (h : IterationEnd v t) (hb : v.busy = true) :
    (v.cap < v.wr + tokenNeed v.isMatch ∧ t.busy = false ∧ t.out = v.out ∧ t.wr = v.wr ∧ t.cnt = v.cnt ∧
      t.ctrlAddr = v.ctrlAddr ∧ t.ctrlAcc = v.ctrlAcc) ∨
    (v.wr + tokenNeed v.isMatch ≤ v.cap ∧ t.cnt = v.cnt + 1 ∧
      ((v.cnt.toNat = 7 ∧ v.wr + tokenNeed v.isMatch + 1 ≤ v.cap ∧ t.busy = true ∧
          t.wr = v.wr + tokenNeed v.isMatch + 1 ∧ t.ctrlAddr = v.wr + tokenNeed v.isMatch ∧ t.ctrlAcc = 0) ∨
        ((v.cnt.toNat < 7 ∨ (v.cnt.toNat = 7 ∧ v.cap < v.wr + tokenNeed v.isMatch + 1)) ∧
          t.busy = decide (v.cnt.toNat < 7) ∧ t.wr = v.wr + tokenNeed v.isMatch ∧ t.ctrlAddr = v.ctrlAddr ∧
          t.ctrlAcc = if v.isMatch then markedControl v.ctrlAcc v.cnt else v.ctrlAcc))) := by
  cases h with
  | full h => exact .inl ⟨h, rfl, rfl, rfl, rfl, rfl, rfl⟩
  | groupFull h hc hr =>
    refine .inr ⟨h, congrArg (· + 1) (emitted_cnt v), .inr ⟨.inr ⟨hc, hr⟩, ?_, emitted_wr v, emitted_ctrlAddr v,
      emitted_ctrlAcc v⟩⟩
    rw [decide_eq_false (by omega)]; rfl
  | inGroup h hc =>
    refine .inr ⟨h, congrArg (· + 1) (emitted_cnt v), .inr ⟨.inl hc, ?_, emitted_wr v, emitted_ctrlAddr v,
      emitted_ctrlAcc v⟩⟩
    rw [decide_eq_true hc]; exact (emitted_busy v).trans hb
  | newGroup h hc hr =>
    exact .inr ⟨h, congrArg (· + 1) (emitted_cnt v), .inl ⟨hc, hr, (emitted_busy v).trans hb,
      congrArg (· + 1) (emitted_wr v), emitted_wr v, rfl⟩⟩

/-- What an iteration that goes on leaves in the registers, from its token `v` on (R126 to R129). -/
structure Went (v t : State) : Prop where
  busy     : t.busy = v.busy
  pos      : t.pos = v.pos
  wEnd     : t.wEnd = v.pos - 1
  wStart   : t.wStart = exactWindowStart v.cfg.windowSize v.wStart (v.pos - 1)
  cnt      : t.cnt = v.cnt + 1
  wr       : t.wr = v.wr + tokenNeed v.isMatch + (if v.cnt.toNat = 7 then 1 else 0)
  room     : t.wr ≤ v.cap
  ctrlAddr : t.ctrlAddr = if v.cnt.toNat = 7 then v.wr + tokenNeed v.isMatch else v.ctrlAddr
  ctrlAcc  : t.ctrlAcc = if v.cnt.toNat = 7 then 0
               else if v.isMatch then markedControl v.ctrlAcc v.cnt else v.ctrlAcc
  token    : t.isMatch = v.isMatch ∧ t.offset = v.offset ∧ t.length = v.length ∧ t.c = v.c
  rest     : t.n = v.n ∧ t.cap = v.cap ∧ t.status = v.status ∧ t.outLen = v.outLen ∧ t.op = v.op ∧
               t.rd = v.rd ∧ t.ctrl = v.ctrl ∧ t.opl = v.opl ∧ t.done = v.done

theorem IterationEnd.went {v t : State} (h : IterationEnd v t) (hb : t.busy = true) : Went v t := by
  have hf := emitted_frame v
  cases h with
  | full h => cases hb
  | groupFull h hc hr => cases hb
  | inGroup h hc =>
    have hc' : ¬ v.cnt.toNat = 7 := by omega
    constructor <;> simp only [slid, hc', if_false] <;> rw [hf] <;> simp
    exact h
  | newGroup h hc hr =>
    constructor <;> simp only [slid, hc, if_true] <;> rw [hf] <;> simp
    exact hr

/-- An iteration that does not go on has ended the operation. -/
theorem IterationEnd.over {v t : State} (h : IterationEnd v t) (hb : t.busy = false) (hv : v.busy = true) :
    t.done = true ∧ t.status = .outputBufferExhausted ∧ t.outLen = 0 := by
  cases h with
  | full h => exact ⟨rfl, rfl, rfl⟩
  | groupFull h hc hr => exact ⟨rfl, rfl, rfl⟩
  | inGroup h hc =>
    have : (slid (counted (emitted v))).busy = v.busy := emitted_busy v
    rw [this, hv] at hb; cases hb
  | newGroup h hc hr =>
    have : (slid (opened (counted (emitted v)))).busy = v.busy := emitted_busy v
    rw [this, hv] at hb; cases hb

/-- The bytes of OUT after a token is written: its encoding at the write cursor, its bit in the control
byte, the rest as before (R127). -/
theorem emitted_bytes (v : State) (ha : v.ctrlAddr < v.wr) :
    (List.range (tokenNeed v.isMatch)).map (fun j => (emitted v).outByte (v.wr + j)) =
      streamEncoding (if v.isMatch then .matchTok v.c v.offset v.length else .lit v.c) ∧
    (emitted v).outByte v.ctrlAddr =
      (if v.isMatch then markedControl v.ctrlAcc v.cnt else v.outByte v.ctrlAddr) ∧
    ∀ a, a ≠ v.ctrlAddr → a < v.wr ∨ v.wr + tokenNeed v.isMatch ≤ a →
      (emitted v).outByte a = v.outByte a := by
  unfold emitted putBytes
  cases hm : v.isMatch with
  | false =>
    simp only [tokenNeed, Bool.false_eq_true, if_false]
    refine ⟨?_, outByte_appended_other _ _ (by omega), fun a h1 h2 => outByte_appended_other _ _ (by omega)⟩
    simp [streamEncoding, List.range_succ]
  | true =>
    simp only [tokenNeed, if_true]
    refine ⟨?_, ?_, fun a h1 h2 => ?_⟩
    · simp [streamEncoding, List.range_succ, State.outByte, Memory.read_write]
      rw [if_neg (by omega)]; rfl
    · simp only [State.outByte, appended_out, appended_wr, appended_outFill, marked_out, marked_wr, marked_outFill,
        Memory.read_write]
      rw [if_neg (by omega), if_neg (by omega), if_neg (by omega), if_pos trivial]; rfl
    · simp only [State.outByte, appended_out, appended_wr, appended_outFill, marked_out, marked_wr, marked_outFill,
        Memory.read_write]
      rw [if_neg (by omega), if_neg (by omega), if_neg (by omega), if_neg h1]

theorem emitted_wf {v : State} (h : v.out.wf = true) : (emitted v).out.wf = true := by
  unfold emitted putBytes
  cases v.isMatch with
  | false => exact Memory.wf_write _ _ h
  | true => exact Memory.wf_write _ _ (Memory.wf_write _ _ (Memory.wf_write _ _ (Memory.wf_write _ _ h)))

theorem IterationEnd.outWf {v t : State} (h : IterationEnd v t) (hw : v.out.wf = true) :
    t.out.wf = true := by
  cases h with
  | full h => exact hw
  | groupFull h hc hr => exact emitted_wf hw
  | inGroup h hc => exact emitted_wf hw
  | newGroup h hc hr => exact Memory.wf_write _ _ (emitted_wf hw)

end Sys2Proof.Machine
end

