-- ==== Sys2Proof/Laws/Step.lean ====
section
/-! SUPPORT. What one step can do: `DEC.STEP` in full, the steps of the sequencer, the host's steps. -/

namespace Sys2Proof.Machine

/-! ### DEC.STEP -/

/-- What `DEC.GROUP` leaves (R107, R159). -/
def grouped (w : State) : State :=
  if w.cnt.toNat = 7 ∧ w.rd < w.n then loaded (w.inByte w.rd) (counted w) else counted w

theorem decGroup_eq (w : State) : decGroup w = .next (grouped w) := by
  unfold decGroup grouped
  rcases Nat.lt_or_ge w.rd w.n with hr | hr
  · rcases Nat.lt_or_ge w.cnt.toNat 7 with hc | hc
    · rw [frNextDec_inside hc, if_neg (by omega)]
    · have h7 : w.cnt.toNat = 7 := by have : w.cnt.toNat < 8 := w.cnt.isLt; omega
      rw [frNextDec_load h7 hr, if_pos ⟨h7, hr⟩]
  · rw [frNextDec_end hr, if_neg (by omega)]

/-- The fields of `grouped`, but the four it concerns. -/
theorem grouped_frame (w : State) :
    grouped w = { w with cnt := w.cnt + 1, ctrl := (grouped w).ctrl, rd := (grouped w).rd } := by
  unfold grouped; split_ifs <;> rfl

theorem grouped_rd (w : State) :
    (grouped w).rd = if w.cnt.toNat = 7 ∧ w.rd < w.n then w.rd + 1 else w.rd := by
  unfold grouped; split_ifs <;> rfl

theorem grouped_ctrl (w : State) :
    (grouped w).ctrl = if w.cnt.toNat = 7 ∧ w.rd < w.n then w.inByte w.rd else w.ctrl := by
  unfold grouped; split_ifs <;> rfl

/-- A literal token fetched. -/
def litFetched (s : State) : State := fetched (s.inByte s.rd) s

/-- A match token fetched. -/
def matchFetched (s : State) : State :=
  gotMatch (s.inByte (s.rd + 1)) (s.inByte (s.rd + 2)) (fetched (s.inByte s.rd) s)

/-- How a decoder step ends. -/
inductive TokenEnd (s : State) : State → Prop where
  /-- a literal without room (R154) -/
  | litFull (hk : frTest s = false) (h : s.cap < s.wr + 1) :
      TokenEnd s (raised .outputBufferExhausted (litFetched s))
  /-- a literal (R154) -/
  | lit (hk : frTest s = false) (h : s.wr + 1 ≤ s.cap) :
      TokenEnd s (grouped (appended (litFetched s) (s.inByte s.rd)))
  /-- a match token cut by the end (R106) -/
  | cut (hk : frTest s = true) (h : s.n < s.rd + 3) : TokenEnd s (raised .corruptStream (litFetched s))
  /-- a copy source before the start of OUT (R156), or a length refused by `STRICT_LENGTH` (R164) -/
  | corrupt (hk : frTest s = true) (hn : s.rd + 3 ≤ s.n)
      (h : s.wr < (matchFetched s).offset.toNat + 1 ∨
        ((matchFetched s).offset.toNat + 1 ≤ s.wr ∧ tooShort s.cfg (matchFetched s).length = true)) :
      TokenEnd s (raised .corruptStream (matchFetched s))
  /-- a match token without room (R156) -/
  | matchFull (hk : frTest s = true) (hn : s.rd + 3 ≤ s.n)
      (h1 : (matchFetched s).offset.toNat + 1 ≤ s.wr) (h2 : tooShort s.cfg (matchFetched s).length = false)
      (h3 : s.cap < s.wr + (matchFetched s).length.toNat + 1) :
      TokenEnd s (raised .outputBufferExhausted (matchFetched s))
  /-- a match token (R158) -/
  | matched (u : State) (hk : frTest s = true) (hn : s.rd + 3 ≤ s.n)
      (h1 : (matchFetched s).offset.toNat + 1 ≤ s.wr) (h2 : tooShort s.cfg (matchFetched s).length = false)
      (h3 : s.wr + (matchFetched s).length.toNat + 1 ≤ s.cap)
      (hd : CopyDone (copyReady (matchFetched s).offset (matchFetched s)) (matchFetched s).length.toNat u) :
      TokenEnd s (grouped (appended u (s.inByte s.rd)))

/-- `DEC.STEP` (R166): it always answers next, in one of six ways. -/
theorem decStep_spec {s : State} (hb : s.busy = true) (hr : s.rd < s.n) :
    ∃ t, decStep s = .next t ∧ TokenEnd s t := by
  unfold decStep
  rcases fetchToken_cases (fun i t => unlessOver (exec i t) decGroup) hr with
    ⟨hk, h⟩ | ⟨hk, hn, h⟩ | ⟨hk, hn, h⟩
  · rw [h]
    rcases Nat.lt_or_ge s.cap (s.wr + 1) with hc | hc
    · refine ⟨_, ?_, .litFull hk hc⟩
      show unlessOver (execLit _ _) _ = _
      rw [execLit_full _ (by simpa using hc)]
      exact unlessOver_over _ rfl
    · refine ⟨_, ?_, .lit hk hc⟩
      show unlessOver (execLit _ _) _ = _
      rw [execLit_room _ (by simpa using hc), unlessOver_busy _ (by simpa using hb), decGroup_eq]
      rfl
  · exact ⟨_, h, .cut hk hn⟩
  · rw [h]
    show ∃ t, unlessOver (execMatch _ (matchFetched s).offset (matchFetched s).length (matchFetched s)) _ =
      .next t ∧ TokenEnd s t
    rcases Nat.lt_or_ge s.wr ((matchFetched s).offset.toNat + 1) with h1 | h1
    · refine ⟨_, ?_, .corrupt hk hn (.inl h1)⟩
      rw [execMatch_badOffset (s := matchFetched s) _ _ h1]
      exact unlessOver_over _ rfl
    · cases h2 : tooShort s.cfg (matchFetched s).length with
      | true =>
        refine ⟨_, ?_, .corrupt hk hn (.inr ⟨h1, h2⟩)⟩
        rw [execMatch_tooShort (s := matchFetched s) _ h1 h2]
        exact unlessOver_over _ rfl
      | false =>
        rcases Nat.lt_or_ge s.cap (s.wr + (matchFetched s).length.toNat + 1) with h3 | h3
        · refine ⟨_, ?_, .matchFull hk hn h1 h2 h3⟩
          rw [execMatch_full (s := matchFetched s) _ h1 h2 h3]
          exact unlessOver_over _ rfl
        · obtain ⟨u, hd, hx⟩ := execMatch_ok (s := matchFetched s) (s.inByte s.rd) h1 h2 h3
          refine ⟨_, ?_, .matched u hk hn h1 h2 h3 hd⟩
          have hub : (appended u (s.inByte s.rd)).busy = true := by
            show u.busy = true; rw [hd.frame]; exact hb
          rw [hx, unlessOver_busy _ hub, decGroup_eq]

/-! ### The sequencer -/

theorem step_eq_sequencer {s : State} (h : s.host = []) : step s = sequencer s := by
  simp only [step, advance, h]

theorem step_eq_hostStep {s : State} {a : HostAction} {rest : List HostAction} (h : s.host = a :: rest) :
    step s = hostStep a { s with host := rest } := by
  simp only [step, advance, h]

theorem sequencer_idle {s : State} (h : s.busy = false) : sequencer s = .next s := by
  simp only [sequencer, h, Bool.false_eq_true, if_false]

theorem sequencer_encode {s : State} (hb : s.busy = true) (ho : s.opl = 0) :
    sequencer s = encAdvance s := by
  simp only [sequencer, hb, ho, if_true]

theorem sequencer_decode {s : State} (hb : s.busy = true) (ho : s.opl = 1) :
    sequencer s = decAdvance s := by
  have : ¬ s.opl = 0 := by rw [ho]; decide
  simp only [sequencer, hb, this, if_true, if_false]

/-- The latched operation is one of two. -/
theorem opl_cases (o : OpCode) : o = 0 ∨ o = 1 := by revert o; decide

theorem encAdvance_step {s : State} (h : s.pos < s.n) : encAdvance s = encStep s := by
  simp only [encAdvance, h, if_true]

theorem encAdvance_finish {s : State} (h : s.n ≤ s.pos) : encAdvance s = .next (finished s) := by
  simp only [encAdvance, Nat.not_lt.mpr h, if_false, encFinish, finish_eq]

theorem decAdvance_step {s : State} (h : s.rd < s.n) : decAdvance s = decStep s := by
  simp only [decAdvance, h, if_true]

theorem decAdvance_finish {s : State} (h : s.n ≤ s.rd) : decAdvance s = .next (finished s) := by
  simp only [decAdvance, Nat.not_lt.mpr h, if_false, decFinish, finish_eq]

/-- One step of the sequencer from a state that meets the invariant: idle, or one of the four rules of
R11. -/
inductive SequencerStep (s : State) : State → Prop where
  | idle (h : s.busy = false) : SequencerStep s s
  | encFinish (h : s.busy = true) (ho : s.opl = 0) (hn : s.n ≤ s.pos) : SequencerStep s (finished s)
  | decFinish (h : s.busy = true) (ho : s.opl = 1) (hn : s.n ≤ s.rd) : SequencerStep s (finished s)
  | encStep (v t : State) (h : s.busy = true) (ho : s.opl = 0) (hn : s.pos < s.n)
      (hv : Consumed s v) (ht : IterationEnd v t) : SequencerStep s t
  | decStep (t : State) (h : s.busy = true) (ho : s.opl = 1) (hn : s.rd < s.n) (ht : TokenEnd s t) :
      SequencerStep s t

theorem sequencer_spec {s : State} (hI : Inv s) : ∃ t, sequencer s = .next t ∧ SequencerStep s t := by
  cases hb : s.busy with
  | false => exact ⟨s, sequencer_idle hb, .idle hb⟩
  | true =>
    rcases opl_cases s.opl with ho | ho
    · rw [sequencer_encode hb ho]
      rcases Nat.lt_or_ge s.pos s.n with hn | hn
      · rw [encAdvance_step hn]
        obtain ⟨v, t, h, hv, ht⟩ := encStep_spec hI (hI.encoding hb ho) hb hn
        exact ⟨t, h, .encStep v t hb ho hn hv ht⟩
      · exact ⟨_, encAdvance_finish hn, .encFinish hb ho hn⟩
    · rw [sequencer_decode hb ho]
      rcases Nat.lt_or_ge s.rd s.n with hn | hn
      · rw [decAdvance_step hn]
        obtain ⟨t, h, ht⟩ := decStep_spec hb hn
        exact ⟨t, h, .decStep t hb ho hn ht⟩
      · exact ⟨_, decAdvance_finish hn, .decFinish hb ho hn⟩

/-! ### START -/

/-- `ENC.INIT` after the latches (R121). -/
theorem encInit_cases (s : State) :
    (s.n = 0 ∧ encInit s = .next (encStarted s)) ∨
    (0 < s.n ∧ s.cap = 0 ∧ encInit s = .next (raised .outputBufferExhausted (encStarted s))) ∨
    (0 < s.n ∧ 0 < s.cap ∧ encInit s = .next (opened (encStarted s))) := by
  unfold encInit
  rcases Nat.eq_zero_or_pos s.n with h | h
  · simp only [h, gt_iff_lt, lt_irrefl, if_false, true_and, true_or]
  · simp only [gt_iff_lt, h, if_true, true_and]
    rcases frOpen_cases (encStarted s) with ⟨hr, ho⟩ | ⟨hr, ho⟩
    · simp only [encStarted_cap, encStarted_wr] at hr
      exact .inr (.inl ⟨by omega, ho⟩)
    · simp only [encStarted_cap, encStarted_wr] at hr
      exact .inr (.inr ⟨by omega, ho⟩)

/-- `DEC.INIT` after the latches (R151). -/
theorem decInit_cases (s : State) :
    (s.n = 0 ∧ decInit s = .next (decStarted s)) ∨
    (0 < s.n ∧ decInit s = .next (loaded (s.inByte 0) (decStarted s))) := by
  unfold decInit
  rcases Nat.eq_zero_or_pos s.n with h | h
  · simp only [h, gt_iff_lt, lt_irrefl, if_false, true_and, true_or]
  · simp only [gt_iff_lt, h, if_true, true_and]
    exact .inr (frLoad_ok (s := decStarted s) h)

end Sys2Proof.Machine
end

