-- ==== Sys2Proof/Laws/Kept.lean ====
section
/-! SUPPORT. What a step of the sequencer keeps from any state at all, reachable or not: the inputs of the
operation, the report until the operation ends, and every byte of OUT at and above its capacity. -/

namespace Sys2Proof.Machine

/-- The report as an operation that has ended leaves it (60_exceptions R180, R186). -/
structure Reported (s t : State) : Prop where
  idle   : t.busy = false
  done   : t.done = true
  status : t.status = .ok ∨
    (t.outLen = 0 ∧ (t.status = .outputBufferExhausted ∨ (t.status = .corruptStream ∧ s.opl = 1)))

/-- What the rules of an operation keep. -/
structure Kept (s t : State) : Prop where
  inp    : t.inp = s.inp
  inFill : t.inFill = s.inFill
  op     : t.op = s.op
  inLen  : t.inLen = s.inLen
  outCap : t.outCap = s.outCap
  cfg    : t.cfg = s.cfg
  opl    : t.opl = s.opl
  n      : t.n = s.n
  cap    : t.cap = s.cap
  host   : t.host = s.host
  fill   : t.outFill = s.outFill
  stores : ∀ a, s.cap ≤ a → t.out.read a = s.out.read a
  report : (t.busy = s.busy ∧ t.done = s.done ∧ t.status = s.status ∧ t.outLen = s.outLen) ∨ Reported s t

theorem Kept.refl (s : State) : Kept s s :=
  ⟨rfl, rfl, rfl, rfl, rfl, rfl, rfl, rfl, rfl, rfl, rfl, fun _ _ => rfl, .inl ⟨rfl, rfl, rfl, rfl⟩⟩

/-- Keeping is transitive. -/
theorem Kept.trans {s u t : State} (h : Kept s u) (h' : Kept u t) :
    Kept s t := by
  refine ⟨h'.inp.trans h.inp, h'.inFill.trans h.inFill, h'.op.trans h.op, h'.inLen.trans h.inLen,
    h'.outCap.trans h.outCap, h'.cfg.trans h.cfg, h'.opl.trans h.opl, h'.n.trans h.n,
    h'.cap.trans h.cap, h'.host.trans h.host, h'.fill.trans h.fill, ?_, ?_⟩
  · intro a ha
    rw [h'.stores a (by rw [h.cap]; exact ha), h.stores a ha]
  · have mine : ∀ {x}, Reported u x → Reported s x := fun r => ⟨r.idle, r.done, by rw [← h.opl]; exact r.status⟩
    rcases h'.report with ⟨b1, d1, s1, o1⟩ | r
    · rcases h.report with ⟨b2, d2, s2, o2⟩ | r
      · exact .inl ⟨b1.trans b2, d1.trans d2, s1.trans s2, o1.trans o2⟩
      · exact .inr ⟨b1.trans r.idle, d1.trans r.done, by rw [s1, o1]; exact r.status⟩
    · exact .inr (mine r)

theorem kept_raised_full (s : State) : Kept s (raised .outputBufferExhausted s) :=
  ⟨rfl, rfl, rfl, rfl, rfl, rfl, rfl, rfl, rfl, rfl, rfl, fun _ _ => rfl,
    .inr ⟨rfl, rfl, .inr ⟨rfl, .inl rfl⟩⟩⟩

theorem kept_raised_corrupt {s : State} (h : s.opl = 1) : Kept s (raised .corruptStream s) :=
  ⟨rfl, rfl, rfl, rfl, rfl, rfl, rfl, rfl, rfl, rfl, rfl, fun _ _ => rfl,
    .inr ⟨rfl, rfl, .inr ⟨rfl, .inr ⟨rfl, h⟩⟩⟩⟩

theorem kept_finished (s : State) : Kept s (finished s) :=
  ⟨rfl, rfl, rfl, rfl, rfl, rfl, rfl, rfl, rfl, rfl, rfl, fun _ _ => rfl, .inr ⟨rfl, rfl, .inl rfl⟩⟩

/-- A change of working registers only keeps everything. -/
theorem kept_of_frame {s t : State} (h1 : t.inp = s.inp) (h2 : t.inFill = s.inFill) (h3 : t.op = s.op)
    (h4 : t.inLen = s.inLen) (h5 : t.outCap = s.outCap) (h6 : t.cfg = s.cfg) (h7 : t.opl = s.opl)
    (h8 : t.n = s.n) (h9 : t.cap = s.cap) (h10 : t.host = s.host) (h11 : t.outFill = s.outFill)
    (h12 : ∀ a, s.cap ≤ a → t.out.read a = s.out.read a) (h13 : t.busy = s.busy) (h14 : t.done = s.done)
    (h15 : t.status = s.status) (h16 : t.outLen = s.outLen) : Kept s t :=
  ⟨h1, h2, h3, h4, h5, h6, h7, h8, h9, h10, h11, h12, .inl ⟨h13, h14, h15, h16⟩⟩

theorem kept_stored {s : State} {a : Nat} (v : Byte) (h : a < s.cap) : Kept s (stored s a v) :=
  kept_of_frame rfl rfl rfl rfl rfl rfl rfl rfl rfl rfl rfl
    (fun _ hb => Memory.read_write_other _ _ (by omega)) rfl rfl rfl rfl

theorem kept_appended {s : State} (v : Byte) (h : s.wr < s.cap) : Kept s (appended s v) :=
  kept_of_frame rfl rfl rfl rfl rfl rfl rfl rfl rfl rfl rfl
    (fun _ hb => Memory.read_write_other _ _ (by omega)) rfl rfl rfl rfl

/-- Everything an operation answers next, it has kept the rest for. -/
def Keeps (f : State → Result) : Prop := ∀ s t, f s = .next t → Kept s t

theorem keeps_frOpen : Keeps frOpen := by
  intro s t h
  rcases frOpen_cases s with ⟨_, ho⟩ | ⟨hr, ho⟩ <;> rw [ho] at h <;> cases h
  · exact kept_raised_full s
  · exact kept_of_frame rfl rfl rfl rfl rfl rfl rfl rfl rfl rfl rfl
      (fun _ hb => Memory.read_write_other _ _ (by omega)) rfl rfl rfl rfl

theorem counted_kept (s : State) : Kept s (counted s) :=
  kept_of_frame rfl rfl rfl rfl rfl rfl rfl rfl rfl rfl rfl (fun _ _ => rfl) rfl rfl rfl rfl

theorem keeps_encGroup : Keeps encGroup := by
  intro s t h
  unfold encGroup frNextEnc at h
  split_ifs at h
  · exact (counted_kept s).trans (keeps_frOpen _ _ h)
  · cases h; exact counted_kept s

theorem keeps_encSearch : Keeps encSearch := by
  intro s t h
  unfold encSearch at h
  split_ifs at h
  · obtain ⟨u, hu, h⟩ := thenDo_eq_next h
    cases h
    obtain ⟨b, _, hb⟩ := attempt_eq_next hu
    cases hb
    exact kept_of_frame rfl rfl rfl rfl rfl rfl rfl rfl rfl rfl rfl (fun _ _ => rfl) rfl rfl rfl rfl
  · cases h
    exact kept_of_frame rfl rfl rfl rfl rfl rfl rfl rfl rfl rfl rfl (fun _ _ => rfl) rfl rfl rfl rfl

theorem keeps_encConsume : Keeps encConsume := by
  intro s t h
  unfold encConsume encConsumeMatch encConsumeLiteral at h
  split_ifs at h
  · split at h
    · cases h
    · obtain ⟨c, _, h⟩ := attempt_eq_next h
      cases h
      exact kept_of_frame rfl rfl rfl rfl rfl rfl rfl rfl rfl rfl rfl (fun _ _ => rfl) rfl rfl rfl rfl
  · obtain ⟨c, _, h⟩ := attempt_eq_next h
    cases h
    exact kept_of_frame rfl rfl rfl rfl rfl rfl rfl rfl rfl rfl rfl (fun _ _ => rfl) rfl rfl rfl rfl

theorem keeps_encCheck : Keeps encCheck := by
  intro s t h
  unfold encCheck at h
  split_ifs at h
  · cases h; exact kept_raised_full s
  · cases h; exact Kept.refl s

theorem keeps_encEmit : Keeps encEmit := by
  intro s t h
  obtain ⟨u, hu, h⟩ := thenDo_eq_next h
  have k1 : Kept s u := by
    unfold frMark at hu
    split_ifs at hu
    · obtain ⟨x, hx, hu⟩ := attempt_eq_next hu
      obtain ⟨ha, _⟩ := writeOut_eq_ok.mp hx
      cases hu
      exact kept_of_frame rfl rfl rfl rfl rfl rfl rfl rfl rfl rfl rfl
        (fun _ hb => Memory.read_write_other _ _ (by omega)) rfl rfl rfl rfl
    · cases hu; exact Kept.refl s
  refine k1.trans ?_
  unfold frPut at h
  obtain ⟨x, hx, h⟩ := attempt_eq_next h
  obtain ⟨hr, rfl⟩ := append_eq_ok.mp hx
  split_ifs at h
  · obtain ⟨y, hy, h⟩ := attempt_eq_next h
    obtain ⟨hr', rfl⟩ := append_eq_ok.mp hy
    obtain ⟨z, hz, h⟩ := attempt_eq_next h
    obtain ⟨hr'', rfl⟩ := append_eq_ok.mp hz
    cases h
    exact ((kept_appended _ hr).trans (kept_appended _ hr')).trans (kept_appended _ hr'')
  · cases h; exact kept_appended _ hr

theorem keeps_encWindow (d : Bool) : Keeps (encWindow d) := by
  intro s t h
  unfold encWindow inheritedShrink at h
  split at h
  · cases h
    exact kept_of_frame rfl rfl rfl rfl rfl rfl rfl rfl rfl rfl rfl (fun _ _ => rfl) rfl rfl rfl rfl
  · split_ifs at h <;> cases h <;>
    exact kept_of_frame rfl rfl rfl rfl rfl rfl rfl rfl rfl rfl rfl (fun _ _ => rfl) rfl rfl rfl rfl

/-- A sequence of micro-operations keeps what each of them keeps. -/
theorem keeps_inOrder : ∀ {fs : List (State → Result)}, (∀ f ∈ fs, Keeps f) → Keeps (inOrder fs) := by
  intro fs
  induction fs with
  | nil => intro _ s t h; cases h; exact Kept.refl s
  | cons f fs ih =>
    intro hf s t h
    obtain ⟨u, hu, h⟩ := unlessOver_eq_next h
    have ku := hf f (List.mem_cons_self ..) s u hu
    rcases h with ⟨hb, h⟩ | ⟨hb, rfl⟩
    · exact ku.trans (ih (fun g hg => hf g (List.mem_cons_of_mem _ hg)) u t h)
    · exact ku

theorem keeps_encStep : Keeps encStep := by
  intro s t h
  refine keeps_inOrder ?_ s t h
  intro f hf
  simp only [List.mem_cons, List.not_mem_nil, or_false] at hf
  rcases hf with rfl | rfl | rfl | rfl | rfl | rfl
  · exact keeps_encSearch
  · exact keeps_encConsume
  · exact keeps_encCheck
  · exact keeps_encEmit
  · exact keeps_encGroup
  · exact keeps_encWindow _

theorem grouped_kept (s : State) : Kept s (grouped s) := by
  rw [grouped_frame]
  exact kept_of_frame rfl rfl rfl rfl rfl rfl rfl rfl rfl rfl rfl (fun _ _ => rfl) rfl rfl rfl rfl

/-- What a decoder step keeps. -/
theorem TokenEnd.kept {s t : State} (ho : s.opl = 1) (h : TokenEnd s t) : Kept s t := by
  have kl : Kept s (litFetched s) :=
    kept_of_frame rfl rfl rfl rfl rfl rfl rfl rfl rfl rfl rfl (fun _ _ => rfl) rfl rfl rfl rfl
  have km : Kept s (matchFetched s) :=
    kept_of_frame rfl rfl rfl rfl rfl rfl rfl rfl rfl rfl rfl (fun _ _ => rfl) rfl rfl rfl rfl
  cases h with
  | litFull hk h => exact kl.trans (kept_raised_full _)
  | lit hk h =>
    exact (kl.trans (kept_appended (s := litFetched s) _ (show s.wr < s.cap by omega))).trans (grouped_kept _)
  | cut hk h => exact kl.trans (kept_raised_corrupt (s := litFetched s) ho)
  | corrupt hk hn h => exact km.trans (kept_raised_corrupt (s := matchFetched s) ho)
  | matchFull hk hn h1 h2 h3 => exact km.trans (kept_raised_full _)
  | matched u hk hn h1 h2 h3 hd =>
    have hf := hd.frame
    have ku : Kept s u := by
      rw [hf]
      refine kept_of_frame rfl rfl rfl rfl rfl rfl rfl rfl rfl rfl rfl ?_ rfl rfl rfl rfl
      intro a ha
      refine hd.before a (.inr ?_)
      show s.wr + (matchFetched s).length.toNat ≤ a
      omega
    have hwr : u.wr < u.cap := by
      rw [hd.wr, hd.cap]
      show s.wr + _ < s.cap
      omega
    exact (ku.trans (kept_appended _ hwr)).trans (grouped_kept _)

/-- What a step of the sequencer keeps, from any state. -/
theorem keeps_sequencer : Keeps sequencer := by
  intro s t h
  cases hb : s.busy with
  | false => rw [sequencer_idle hb] at h; cases h; exact Kept.refl s
  | true =>
    rcases opl_cases s.opl with ho | ho
    · rw [sequencer_encode hb ho] at h
      rcases Nat.lt_or_ge s.pos s.n with hn | hn
      · rw [encAdvance_step hn] at h; exact keeps_encStep _ _ h
      · rw [encAdvance_finish hn] at h; cases h; exact kept_finished s
    · rw [sequencer_decode hb ho] at h
      rcases Nat.lt_or_ge s.rd s.n with hn | hn
      · rw [decAdvance_step hn] at h
        obtain ⟨u, hu, ht⟩ := decStep_spec hb hn
        rw [hu] at h; cases h
        exact ht.kept ho
      · rw [decAdvance_finish hn] at h; cases h; exact kept_finished s

end Sys2Proof.Machine
end

