-- ==== Sys2Proof/Laws/Blind.lean ====
section
/-! SUPPORT. What the sequencer does not look at: what the host does later, and, in an ENCODE, the contents of
OUT (20_memory R46). -/

namespace Sys2Proof.Machine

/-! ### ENCODE: another queue of the host and other contents of OUT -/

/-- The state beside another queue of the host and other contents of OUT. -/
def State.aside (s : State) (h : List HostAction) (m : Memory) : State := { s with host := h, out := m }

/-- `y` has gone with `x` since they were `m` and `o`: each byte is the same in both, or changed in neither. -/
structure Agree (o m x y : Memory) : Prop where
  bytes : ∀ a, y.read a = x.read a ∨ (y.read a = m.read a ∧ x.read a = o.read a)
  same  : m = o → y = x

theorem Agree.refl (o m : Memory) : Agree o m o m := ⟨fun _ => .inr ⟨rfl, rfl⟩, id⟩

/-- The same store keeps the two together. -/
theorem Agree.write {o m x y : Memory} (h : Agree o m x y) (a : Nat) (v : Byte) :
    Agree o m (x.write a v) (y.write a v) where
  bytes b := by
    rcases eq_or_ne b a with rfl | hb
    · exact .inl (by simp only [Memory.read_write_same])
    · simpa only [Memory.read_write_other _ _ hb] using h.bytes b
  same e := by rw [h.same e]

/-- Beside another queue and other contents of OUT it does the same to everything else, and stores the same. -/
def Follows (f : State → Result) : Prop :=
  ∀ h o m s m₁ t, Agree o m s.out m₁ → f s = .next t →
    ∃ m₂, f (s.aside h m₁) = .next (t.aside h m₂) ∧ Agree o m t.out m₂

theorem Follows.unlessOver {f g : State → Result} (hf : Follows f) (hg : Follows g) :
    Follows fun s => unlessOver (f s) g := by
  intro h o m s m₁ t ha e
  obtain ⟨u, hu, e⟩ := unlessOver_eq_next e
  obtain ⟨m₂, h₂, ha₂⟩ := hf h o m s m₁ u ha hu
  rcases e with ⟨hb, e⟩ | ⟨hb, rfl⟩
  · obtain ⟨m₃, h₃, ha₃⟩ := hg h o m u m₂ t ha₂ e
    exact ⟨m₃, by simp only [h₂, unlessOver_busy (s := u.aside h m₂) g hb, h₃], ha₃⟩
  · exact ⟨m₂, by simp only [h₂, unlessOver_over (s := u.aside h m₂) g hb], ha₂⟩

theorem Follows.thenDo {f g : State → Result} (hf : Follows f) (hg : Follows g) :
    Follows fun s => thenDo (f s) g := by
  intro h o m s m₁ t ha e
  obtain ⟨u, hu, e⟩ := thenDo_eq_next e
  obtain ⟨m₂, h₂, ha₂⟩ := hf h o m s m₁ u ha hu
  obtain ⟨m₃, h₃, ha₃⟩ := hg h o m u m₂ t ha₂ e
  exact ⟨m₃, by simp only [h₂, thenDo_next, h₃], ha₃⟩

theorem Follows.inOrder : ∀ {fs : List (State → Result)}, (∀ f ∈ fs, Follows f) → Follows (inOrder fs) := by
  intro fs
  induction fs with
  | nil => intro _ h o m s m₁ t ha e; cases e; exact ⟨m₁, rfl, ha⟩
  | cons f fs ih =>
    intro hf
    exact (hf f (List.mem_cons_self ..)).unlessOver (ih fun g hg => hf g (List.mem_cons_of_mem _ hg))

/-- What answers with no look at OUT or the queue, and leaves both, follows. -/
theorem follows_of_registers {f : State → Result}
    (h : ∀ s t, f s = .next t → t.out = s.out ∧ ∀ q m, f (s.aside q m) = .next (t.aside q m)) : Follows f := by
  intro q o m s m₁ t ha e
  obtain ⟨h1, h2⟩ := h s t e
  exact ⟨m₁, h2 q m₁, by rw [h1]; exact ha⟩

theorem runLength_aside (s : State) (h : List HostAction) (m : Memory) (we ss se p : Nat) :
    ∀ fuel k, runLength (s.aside h m) we ss se p fuel k = runLength s we ss se p fuel k := by
  intro fuel
  induction fuel with
  | zero => intro k; rfl
  | succ fuel ih => intro k; simp only [runLength, ih]; rfl

theorem scan_aside (s : State) (h : List HostAction) (m : Memory) (we ss se : Nat) :
    ∀ count p b, scan (s.aside h m) we ss se count p b = scan s we ss se count p b := by
  intro count
  induction count with
  | zero => intro p b; rfl
  | succ count ih => intro p b; simp only [scan, ih, runLength_aside]; rfl

theorem follows_encSearch : Follows encSearch := by
  refine follows_of_registers fun s t e => ?_
  unfold encSearch at e
  split_ifs at e with hs
  · obtain ⟨u, hu, e⟩ := thenDo_eq_next e
    obtain ⟨b, hb, hu⟩ := attempt_eq_next hu
    cases hu; cases e
    refine ⟨rfl, fun q m => ?_⟩
    unfold encSearch
    rw [if_pos (show searches (s.aside q m) = true from hs)]
    simp only [execFindPrefix, scan_aside]
    simp only [State.aside, sequenceEnd] at hb ⊢
    rw [hb]; rfl
  · cases e
    refine ⟨rfl, fun q m => ?_⟩
    unfold encSearch
    rw [if_neg (show ¬ searches (s.aside q m) = true from hs)]
    rfl

theorem follows_encConsume : Follows encConsume := by
  refine follows_of_registers fun s t e => ?_
  unfold encConsume at e
  split_ifs at e with hm
  · unfold encConsumeMatch at e
    split at e
    · cases e
    · rename_i offset ho
      obtain ⟨c, hc, e⟩ := attempt_eq_next e
      cases e
      refine ⟨rfl, fun q m => ?_⟩
      unfold encConsume encConsumeMatch
      rw [if_pos (show (s.aside q m).cfg.minMatch ≤ (s.aside q m).ml.toNat from hm)]
      simp only [show matchOffset (s.aside q m).pos (s.aside q m).mp = some offset from ho,
        show readIn (s.aside q m) ((s.aside q m).pos + (s.aside q m).ml.toNat) = .ok c from hc, attempt_ok]
      rfl
  · obtain ⟨c, hc, e⟩ := attempt_eq_next e
    cases e
    refine ⟨rfl, fun q m => ?_⟩
    unfold encConsume encConsumeLiteral
    rw [if_neg (show ¬ (s.aside q m).cfg.minMatch ≤ (s.aside q m).ml.toNat from hm)]
    simp only [show readIn (s.aside q m) (s.aside q m).pos = .ok c from hc, attempt_ok]
    rfl

theorem follows_encCheck : Follows encCheck := by
  refine follows_of_registers fun s t e => ?_
  unfold encCheck at e
  split_ifs at e with h
  · cases e; exact ⟨rfl, fun q m => if_pos h⟩
  · cases e; exact ⟨rfl, fun q m => if_neg h⟩

theorem follows_frOpen : Follows frOpen := by
  intro h o m s m₁ t ha e
  rcases frOpen_cases s with ⟨hr, ho⟩ | ⟨hr, ho⟩ <;> rw [ho] at e <;> cases e
  · exact ⟨m₁, frOpen_full (s := s.aside h m₁) hr, ha⟩
  · exact ⟨m₁.write s.wr 0, frOpen_room (s := s.aside h m₁) hr, ha.write _ _⟩

theorem follows_encGroup : Follows encGroup := by
  intro h o m s m₁ t ha e
  unfold encGroup frNextEnc at e ⊢
  split_ifs at e with hc
  · rw [if_pos (show (s.aside h m₁).cnt + 1 = 0 ∧ _ from hc)]
    exact follows_frOpen h o m (counted s) m₁ t ha e
  · rw [if_neg (show ¬ ((s.aside h m₁).cnt + 1 = 0 ∧ _) from hc)]
    cases e; exact ⟨m₁, rfl, ha⟩

/-- An append follows. -/
theorem follows_append {s t : State} {v : Byte} {h : List HostAction} {o m m₁ : Memory}
    (ha : Agree o m s.out m₁) (e : append s v = .ok t) :
    ∃ m₂, append (s.aside h m₁) v = .ok (t.aside h m₂) ∧ Agree o m t.out m₂ := by
  obtain ⟨hr, rfl⟩ := append_eq_ok.mp e
  exact ⟨m₁.write s.wr v, append_ok (s := s.aside h m₁) v hr, ha.write _ _⟩

theorem follows_encEmit : Follows encEmit := by
  intro h o m s m₁ t ha e
  obtain ⟨u, hu, e⟩ := thenDo_eq_next e
  have mark : ∃ m₂, frMark (s.aside h m₁).isMatch (s.aside h m₁) = .next (u.aside h m₂) ∧ Agree o m u.out m₂ := by
    unfold frMark at hu ⊢
    split_ifs at hu with hm
    · obtain ⟨x, hx, hu⟩ := attempt_eq_next hu
      obtain ⟨hc, -⟩ := writeOut_eq_ok.mp hx
      cases hu
      refine ⟨m₁.write s.ctrlAddr (markedControl s.ctrlAcc s.cnt), ?_, ha.write _ _⟩
      rw [if_pos (show (s.aside h m₁).isMatch = true from hm)]
      simp only [writeOut_ok (s := s.aside h m₁) (a := (s.aside h m₁).ctrlAddr) _ hc, attempt_ok]
      rfl
    · cases hu
      exact ⟨m₁, if_neg (show ¬ (s.aside h m₁).isMatch = true from hm), ha⟩
  obtain ⟨m₂, h₂, ha₂⟩ := mark
  unfold encEmit
  rw [h₂, thenDo_next]
  unfold frPut at e ⊢
  obtain ⟨x, hx, e⟩ := attempt_eq_next e
  obtain ⟨m₃, h₃, ha₃⟩ := follows_append (h := h) ha₂ hx
  simp only [show (u.aside h m₂).c = u.c from rfl, show (u.aside h m₂).isMatch = u.isMatch from rfl,
    show (u.aside h m₂).offset = u.offset from rfl, show (u.aside h m₂).length = u.length from rfl, h₃, attempt_ok]
  split_ifs at e ⊢
  · obtain ⟨y, hy, e⟩ := attempt_eq_next e
    obtain ⟨m₄, h₄, ha₄⟩ := follows_append (h := h) ha₃ hy
    obtain ⟨z, hz, e⟩ := attempt_eq_next e
    obtain ⟨m₅, h₅, ha₅⟩ := follows_append (h := h) ha₄ hz
    cases e
    exact ⟨m₅, by simp only [h₄, h₅, attempt_ok], ha₅⟩
  · cases e; exact ⟨m₃, rfl, ha₃⟩

theorem follows_encWindow (d : Bool) : Follows (encWindow d) := by
  refine follows_of_registers fun s t e => ?_
  unfold encWindow inheritedShrink at e
  split at e
  · rename_i hp
    cases e
    exact ⟨rfl, fun q m => by simp only [encWindow, show (s.aside q m).cfg.windowPolicy = .exact from hp]; rfl⟩
  · rename_i hp
    have hp' : ∀ q m, (s.aside q m).cfg.windowPolicy = .inherited := fun _ _ => hp
    split_ifs at e with h1 h2 h3 <;> cases e <;> refine ⟨rfl, fun q m => ?_⟩ <;>
      simp only [encWindow, hp', inheritedShrink]
    · exact (if_pos h1).trans ((if_pos h2).trans (if_neg h3))
    · exact (if_pos h1).trans (if_neg h2)
    · exact if_neg h1

/-- An iteration that takes its token beside another queue and other contents of OUT (R138). -/
theorem follows_encStep : Follows encStep := by
  intro h o m s m₁ t ha e
  refine Follows.inOrder (fs := [encSearch, encConsume, encCheck, encEmit, encGroup, encWindow (searches s)]) ?_
    h o m s m₁ t ha e
  intro f hf
  simp only [List.mem_cons, List.not_mem_nil, or_false] at hf
  rcases hf with rfl | rfl | rfl | rfl | rfl | rfl
  · exact follows_encSearch
  · exact follows_encConsume
  · exact follows_encCheck
  · exact follows_encEmit
  · exact follows_encGroup
  · exact follows_encWindow _

/-! ### DECODE: another queue of the host -/

/-- The state beside another queue of the host. -/
def State.queued (s : State) (h : List HostAction) : State := { s with host := h }

/-- With another queue the same, and that queue left in place. -/
def HostBlind (f : State → Result) : Prop :=
  ∀ s t h, f s = .next t → f (s.queued h) = .next (t.queued h)

theorem HostBlind.unlessOver {s t : State} {h : List HostAction} {f g : State → Result}
    (hf : HostBlind f) (hg : HostBlind g) (e : unlessOver (f s) g = .next t) :
    unlessOver (f (s.queued h)) g = .next (t.queued h) := by
  obtain ⟨u, hu, e⟩ := unlessOver_eq_next e
  rw [hf s u h hu]
  rcases e with ⟨hb, e⟩ | ⟨hb, rfl⟩
  · rw [unlessOver_busy (s := u.queued h) g hb]; exact hg u t h e
  · exact unlessOver_over (s := u.queued h) g hb

theorem append_queued {s t : State} {v : Byte} (h : List HostAction) (e : append s v = .ok t) :
    append (s.queued h) v = .ok (t.queued h) := by
  obtain ⟨hr, rfl⟩ := append_eq_ok.mp e
  exact append_ok (s := s.queued h) v hr

theorem hostBlind_execLit (c : Byte) : HostBlind (execLit c) := by
  intro s t h e
  unfold execLit at e ⊢
  split_ifs at e with hr
  · cases e; exact if_pos hr
  · obtain ⟨u, hu, e⟩ := attempt_eq_next e
    cases e
    rw [if_neg (show ¬ (s.queued h).wr + 1 > (s.queued h).cap from hr), append_queued h hu]
    rfl

theorem hostBlind_copyBytes : ∀ j, HostBlind (copyBytes j) := by
  intro j
  induction j with
  | zero => intro s t h e; cases e; rfl
  | succ j ih =>
    intro s t h e
    obtain ⟨v, hv, e⟩ := attempt_eq_next e
    obtain ⟨u, hu, e⟩ := attempt_eq_next e
    simp only [copyBytes, show readOut (s.queued h) ((s.queued h).src + (s.queued h).i.toNat) = .ok v from hv,
      attempt_ok, append_queued h hu]
    exact ih (copied u) t h e

theorem hostBlind_execMatch (c : Byte) (offset : Offset) (length : Length) :
    HostBlind (execMatch c offset length) := by
  intro s t h e
  unfold execMatch at e ⊢
  split_ifs at e with h1 h2 h3
  · cases e; exact if_pos h1
  · cases e; exact (if_neg h1).trans (if_pos h2)
  · cases e; exact (if_neg h1).trans ((if_neg h2).trans (if_pos h3))
  · obtain ⟨u, hu, e⟩ := thenDo_eq_next e
    obtain ⟨x, hx, e⟩ := attempt_eq_next e
    cases e
    refine (if_neg h1).trans ((if_neg h2).trans ((if_neg h3).trans ?_))
    rw [show copyReady offset (s.queued h) = (copyReady offset s).queued h from rfl,
      hostBlind_copyBytes _ _ u h hu, thenDo_next, append_queued h hx]
    rfl

theorem grouped_queued (s : State) (h : List HostAction) : grouped (s.queued h) = (grouped s).queued h := by
  unfold grouped
  split_ifs with h1 h2 h2
  · rfl
  · exact absurd h1 h2
  · exact absurd h2 h1
  · rfl

theorem hostBlind_decGroup : HostBlind decGroup := by
  intro s t h e
  rw [decGroup_eq] at e ⊢
  cases e
  rw [grouped_queued]

theorem hostBlind_decStep {s : State} (hr : s.rd < s.n) (t : State) (h : List HostAction)
    (e : decStep s = .next t) : decStep (s.queued h) = .next (t.queued h) := by
  unfold decStep at e ⊢
  have test : frTest (s.queued h) = frTest s := rfl
  rcases fetchToken_cases (fun i t => unlessOver (exec i t) decGroup) hr with
    ⟨hk, hf⟩ | ⟨hk, hn, hf⟩ | ⟨hk, hn, hf⟩ <;> rw [hf] at e <;>
  rcases fetchToken_cases (s := s.queued h) (fun i t => unlessOver (exec i t) decGroup) hr with
    ⟨hk', hf'⟩ | ⟨hk', hn', hf'⟩ | ⟨hk', hn', hf'⟩ <;> rw [hf'] <;> rw [test, hk] at hk'
  · exact (hostBlind_execLit (s.inByte s.rd)).unlessOver hostBlind_decGroup e
  · cases hk'
  · cases hk'
  · cases hk'
  · cases e; rfl
  · exact absurd (show s.rd + 3 ≤ s.n from hn') (by omega)
  · cases hk'
  · exact absurd (show s.n < s.rd + 3 from hn') (by omega)
  · exact (hostBlind_execMatch (s.inByte s.rd) _ _).unlessOver hostBlind_decGroup e

/-! ### The sequencer -/

/-- The sequencer's step beside another queue of the host. -/
theorem hostBlind_sequencer : HostBlind sequencer := by
  intro s t h e
  cases hb : s.busy with
  | false =>
    rw [sequencer_idle hb] at e
    cases e
    exact sequencer_idle (s := s.queued h) hb
  | true =>
    rcases opl_cases s.opl with ho | ho
    · rw [sequencer_encode hb ho] at e
      rw [sequencer_encode (s := s.queued h) hb ho]
      rcases Nat.lt_or_ge s.pos s.n with hn | hn
      · rw [encAdvance_step hn] at e
        rw [encAdvance_step (s := s.queued h) hn]
        obtain ⟨m, hm, ha⟩ := follows_encStep h s.out s.out s s.out t (.refl _ _) e
        rw [show s.queued h = s.aside h s.out from rfl, hm, ha.same rfl]
        rfl
      · rw [encAdvance_finish hn] at e
        cases e
        exact encAdvance_finish (s := s.queued h) hn
    · rw [sequencer_decode hb ho] at e
      rw [sequencer_decode (s := s.queued h) hb ho]
      rcases Nat.lt_or_ge s.rd s.n with hn | hn
      · rw [decAdvance_step hn] at e
        rw [decAdvance_step (s := s.queued h) hn]
        exact hostBlind_decStep hn t h e
      · rw [decAdvance_finish hn] at e
        cases e
        exact decAdvance_finish (s := s.queued h) hn

end Sys2Proof.Machine
end

