-- ==== Sys2Proof/Laws/Framing.lean ====
section
/-! SUPPORT. Streams as lists: the open group, one more token, the length. -/

namespace Sys2Proof

/-- The control byte of a group with one more token (R101). -/
theorem groupControl_snoc (t : Instr) : ∀ (l : List Instr) (k : Nat),
    groupControl k (l ++ [t]) =
      groupControl k l ||| (if t.kind then (1 : Byte) <<< (k + l.length) else 0) := by
  intro l
  induction l with
  | nil => intro k; simp [groupControl]
  | cons x l ih =>
    intro k
    simp only [List.cons_append, groupControl, ih (k + 1), List.length_cons]
    rw [BitVec.or_assoc, show k + 1 + l.length = k + (l.length + 1) by omega]

/-- A last group of fewer than 8 tokens. -/
theorem groups_short {l : List Instr} (h : l.length < 8) : groups l = .ctrl (groupControl 0 l) :: l := by
  rcases l with _ | ⟨a, _ | ⟨b, _ | ⟨c, _ | ⟨d, _ | ⟨e, _ | ⟨f, _ | ⟨g, _ | ⟨i, l⟩⟩⟩⟩⟩⟩⟩⟩ <;> try rfl
  simp only [List.length_cons] at h; omega

/-- A full group, then the rest. -/
theorem groups_eight {l m : List Instr} (h : l.length = 8) :
    groups (l ++ m) = .ctrl (groupControl 0 l) :: l ++ groups m := by
  rcases l with _ | ⟨a, _ | ⟨b, _ | ⟨c, _ | ⟨d, _ | ⟨e, _ | ⟨f, _ | ⟨g, _ | ⟨i, l⟩⟩⟩⟩⟩⟩⟩⟩ <;> simp at h
  subst h; rfl

/-- Full groups do not depend on what follows. -/
theorem groups_split : ∀ (q : Nat) (pre : List Instr), pre.length = 8 * q →
    ∃ G : List Instr, ∀ m, groups (pre ++ m) = G ++ groups m := by
  intro q
  induction q with
  | zero =>
    intro pre h
    obtain rfl : pre = [] := List.length_eq_zero_iff.mp (by omega)
    exact ⟨[], fun _ => rfl⟩
  | succ q ih =>
    intro pre h
    obtain ⟨G, hG⟩ := ih (pre.drop 8) (by simp; omega)
    refine ⟨.ctrl (groupControl 0 (pre.take 8)) :: pre.take 8 ++ G, fun m => ?_⟩
    have : pre ++ m = pre.take 8 ++ (pre.drop 8 ++ m) := by
      rw [← List.append_assoc, List.take_append_drop]
    rw [this, groups_eight (by simp; omega), hG]; simp

/-- `last` is the group that is open after `toks`, and `G` the full groups before it. One more token goes
into it, and closes it as its 8th, when a new empty group follows (R103). -/
structure OpenGroup (toks G last : List Instr) : Prop where
  size   : last.length = toks.length % 8
  now    : groups toks = G ++ .ctrl (groupControl 0 last) :: last
  goesOn : ∀ t, toks.length % 8 < 7 →
    groups (toks ++ [t]) = G ++ .ctrl (groupControl 0 (last ++ [t])) :: (last ++ [t])
  closes : ∀ t, toks.length % 8 = 7 →
    groups (toks ++ [t]) = G ++ .ctrl (groupControl 0 (last ++ [t])) :: (last ++ [t]) ++ [.ctrl 0]

theorem openGroup_exists (toks : List Instr) : ∃ G last, OpenGroup toks G last := by
  obtain ⟨G, hG⟩ := groups_split (toks.length / 8) (toks.take (8 * (toks.length / 8))) (by simp; omega)
  have hl : (toks.drop (8 * (toks.length / 8))).length = toks.length % 8 := by simp; omega
  refine ⟨G, toks.drop (8 * (toks.length / 8)), hl, ?_, fun t h => ?_, fun t h => ?_⟩
  · rw [← groups_short (by omega), ← hG, List.take_append_drop]
  · rw [← groups_short (by simp; omega), ← hG, ← List.append_assoc, List.take_append_drop]
  · have := hG (toks.drop (8 * (toks.length / 8)) ++ [t])
    rw [← List.append_assoc, List.take_append_drop] at this
    rw [this]
    have e := groups_eight (l := toks.drop (8 * (toks.length / 8)) ++ [t]) (m := []) (by simp; omega)
    rw [List.append_nil] at e
    rw [e]; simp [groups, groupControl]

/-- The open group is determined by the tokens. -/
theorem OpenGroup.unique {toks G last G' last' : List Instr} (h : OpenGroup toks G last)
    (e : groups toks = G' ++ .ctrl (groupControl 0 last') :: last') (hl : last'.length = last.length) :
    G' = G ∧ last' = last := by
  have : (G' ++ [.ctrl (groupControl 0 last')]) ++ last' = (G ++ [.ctrl (groupControl 0 last)]) ++ last := by
    rw [List.append_assoc, List.append_assoc]; exact e.symm.trans h.now
  obtain ⟨k1, k2⟩ := List.append_inj' this hl
  exact ⟨(List.append_inj' k1 rfl).1, k2⟩

theorem encodeStream_append (a b : List Instr) : encodeStream (a ++ b) = encodeStream a ++ encodeStream b := by
  simp [encodeStream]

theorem encodeStream_cons (a : Instr) (b : List Instr) :
    encodeStream (a :: b) = streamEncoding a ++ encodeStream b := by
  simp [encodeStream]

/-- The length of a framed stream with one more token (R76). -/
theorem groups_length_snoc (toks : List Instr) (t : Instr) :
    (encodeStream (groups (toks ++ [t]))).length =
      (encodeStream (groups toks)).length + (streamEncoding t).length +
        (if toks.length % 8 = 7 then 1 else 0) := by
  obtain ⟨G, last, h⟩ := openGroup_exists toks
  rcases Nat.lt_or_ge (toks.length % 8) 7 with h7 | h7
  · rw [h.goesOn t h7, h.now, if_neg (by omega)]; simp [encodeStream, streamEncoding]; omega
  · rw [h.closes t (by omega), h.now, if_pos (by omega)]; simp [encodeStream, streamEncoding]; omega

/-- A framed stream does not get shorter with more tokens. -/
theorem groups_length_mono (toks m : List Instr) :
    (encodeStream (groups toks)).length ≤ (encodeStream (groups (toks ++ m))).length := by
  induction m generalizing toks with
  | nil => simp
  | cons t m ih =>
    have h1 := groups_length_snoc toks t
    have h2 := ih (toks ++ [t])
    rw [List.append_assoc, List.singleton_append] at h2
    omega

end Sys2Proof
end

