-- ==== Sys2Proof/Laws/Reference.lean ====
section
/-! SUPPORT. The reference functions of Sys2Proof.Machine.Reference beside what the machine's steps do. -/

namespace Sys2Proof.Machine

/-! ### Runs of the machine -/

theorem run_zero (s : State) : Sys2Proof.core.run 0 s = .next s := rfl

theorem run_succ {s t : State} (h : step s = .next t) (k : Nat) :
    Sys2Proof.core.run (k + 1) s = Sys2Proof.core.run k t := by
  have h' : Sys2Proof.core.step s = .next t := h
  simp only [Host.Core.run, h']

/-! ### Byte lists read from the buffers -/

theorem outputBytes_succ (s : State) (n : Nat) : outputBytes s (n + 1) = outputBytes s n ++ [s.outByte n] := by
  simp [outputBytes, List.range_succ]

theorem outputBytes_congr {s t : State} {n : Nat} (h : ∀ a, a < n → t.outByte a = s.outByte a) :
    outputBytes t n = outputBytes s n := by
  unfold outputBytes
  exact List.map_congr_left fun a ha => h a (List.mem_range.mp ha)

theorem outputBytes_length (s : State) (n : Nat) : (outputBytes s n).length = n := by simp [outputBytes]

theorem outputBytes_getD (s : State) {n a : Nat} (h : a < n) : (outputBytes s n).getD a 0 = s.outByte a := by
  simp [outputBytes, h]

/-! ### DECODE -/

/-- The data that a copy stands for, as any indexing that starts with the data before and repeats from
`offset + 1` places back (R157). -/
theorem copyData_eq_map {f : Nat → Byte} {offset : Nat} : ∀ (j : Nat) (out : List Byte),
    offset + 1 ≤ out.length → (∀ a, a < out.length → out.getD a 0 = f a) →
    (∀ m, m < j → f (out.length + m) = f (out.length + m - offset - 1)) →
    copyData offset j out = (List.range (out.length + j)).map f := by
  intro j
  induction j with
  | zero =>
    intro out ho hf _
    apply List.ext_getElem
    · simp [copyData]
    · intro a h1 h2
      simp only [copyData] at h1
      simp [copyData, ← hf a h1, h1]
  | succ j ih =>
    intro out ho hf hm
    simp only [copyData]
    have h0 : out.getD (out.length - offset - 1) 0 = f out.length := by
      rw [hf _ (by omega)]
      have := hm 0 (by omega)
      simpa using this.symm
    rw [h0, ih]
    · simp only [List.length_append, List.length_cons, List.length_nil]
      rw [show out.length + (0 + 1) + j = out.length + (j + 1) by omega]
    · simp; omega
    · intro a ha
      simp only [List.length_append, List.length_cons, List.length_nil] at ha
      rcases Nat.lt_or_ge a out.length with h | h
      · rw [← hf a h]; simp [List.getElem?_append_left h]
      · obtain rfl : a = out.length := by omega
        simp
    · intro m hmj
      have := hm (m + 1) (by omega)
      simp only [List.length_append, List.length_cons, List.length_nil]
      rw [show out.length + (0 + 1) + m = out.length + (m + 1) by omega]; exact this

/-- The copy loop appends what the reference copy appends. -/
theorem CopyDone.data {s t : State} {offset : Offset} {j : Nat} (hd : CopyDone (copyReady offset s) j t)
    (h : offset.toNat + 1 ≤ s.wr) : outputBytes t (s.wr + j) = copyData offset.toNat j (outputBytes s s.wr) := by
  have hsrc : (copyReady offset s).src = s.wr - offset.toNat - 1 := rfl
  symm
  have := copyData_eq_map (f := t.outByte) (offset := offset.toNat) j (outputBytes s s.wr)
    (by rw [outputBytes_length]; exact h)
    (by
      intro a ha
      rw [outputBytes_length] at ha
      rw [outputBytes_getD s ha, hd.outByte (by left; exact ha)]; rfl)
    (by
      intro m hm
      rw [outputBytes_length]
      have e := hd.copied m hm
      rw [hsrc] at e
      simp only [copyReady_wr, copyReady_i] at e
      rw [e]; congr 1; simp; omega)
  rw [this, outputBytes_length]; rfl

theorem inputBytes_drop {s : State} {n a : Nat} (h : a < n) :
    (inputBytes s n).drop a = s.inByte a :: (inputBytes s n).drop (a + 1) := by
  rw [List.drop_eq_getElem_cons (by simp [inputBytes, h])]
  simp [inputBytes]

theorem inputBytes_drop_end {s : State} {n a : Nat} (h : n ≤ a) : (inputBytes s n).drop a = [] := by
  simp [inputBytes, h]

/-- After a token the reference goes on from where `DEC.GROUP` leaves the machine (R107, R159). -/
theorem decodeData_grouped (w : State) (out : List Byte) (inp : List Byte) (hw : inputBytes w w.n = inp) :
    decodeData w.cfg w.cap (nextInGroup w.ctrl w.cnt) out (inp.drop w.rd) =
    decodeData w.cfg w.cap (some ((grouped w).ctrl, (grouped w).cnt)) out (inp.drop (grouped w).rd) := by
  subst hw
  have hc : (grouped w).cnt = w.cnt + 1 := by rw [grouped_frame]
  rw [grouped_rd, grouped_ctrl, hc]
  unfold nextInGroup
  rcases Nat.lt_or_ge w.rd w.n with hr | hr
  · by_cases h7 : w.cnt.toNat = 7
    · rw [if_pos ((count_wraps _).mpr h7), if_pos ⟨h7, hr⟩, if_pos ⟨h7, hr⟩, inputBytes_drop hr,
        (count_wraps _).mpr h7]
      rfl
    · rw [if_neg (fun e => h7 ((count_wraps _).mp e)), if_neg (fun e => h7 e.1), if_neg (fun e => h7 e.1)]
  · have : ¬ (w.cnt.toNat = 7 ∧ w.rd < w.n) := fun e => by omega
    rw [if_neg this, if_neg this, inputBytes_drop_end hr]
    simp [decodeData]

/-- One `DEC.STEP` beside the reference (R162, R166): both end with the same fault, or the reference goes on
from where the step leaves the machine. -/
theorem TokenEnd.reference {s t : State} (h : TokenEnd s t) (hr : s.rd < s.n) :
   (∃ f, t.busy = false ∧ t.done = true ∧ t.status = f ∧ t.outLen = 0 ∧
     decodeData s.cfg s.cap (some (s.ctrl, s.cnt)) (outputBytes s s.wr) ((inputBytes s s.n).drop s.rd) = (f, [])) ∨
   (t.busy = s.busy ∧ s.rd < t.rd ∧ t.rd ≤ t.n ∧
     decodeData s.cfg s.cap (some (s.ctrl, s.cnt)) (outputBytes s s.wr) ((inputBytes s s.n).drop s.rd) =
     decodeData t.cfg t.cap (some (t.ctrl, t.cnt)) (outputBytes t t.wr) ((inputBytes t t.n).drop t.rd)) := by
  have hlen : (outputBytes s s.wr).length = s.wr := outputBytes_length _ _
  rw [inputBytes_drop hr]
  cases h with
  | litFull hk h =>
    refine .inl ⟨_, rfl, rfl, rfl, rfl, ?_⟩
    have hk' : controlBit s.ctrl s.cnt = false := hk
    simp only [decodeData, hk', tokenData, decodeLit, hlen, gt_iff_lt, h, if_true]; rfl
  | lit hk h =>
    have hk' : controlBit s.ctrl s.cnt = false := hk
    have g := decodeData_grouped (appended (litFetched s) (s.inByte s.rd)) (outputBytes s s.wr ++ [s.inByte s.rd]) (inputBytes s s.n) rfl
    have hb : (grouped (appended (litFetched s) (s.inByte s.rd))).busy = s.busy := by rw [grouped_frame]; rfl
    have hn : (grouped (appended (litFetched s) (s.inByte s.rd))).n = s.n := by rw [grouped_frame]; rfl
    have hcf : (grouped (appended (litFetched s) (s.inByte s.rd))).cfg = s.cfg := by rw [grouped_frame]; rfl
    have hcp : (grouped (appended (litFetched s) (s.inByte s.rd))).cap = s.cap := by rw [grouped_frame]; rfl
    have hin : inputBytes (grouped (appended (litFetched s) (s.inByte s.rd))) s.n = inputBytes s s.n := by rw [grouped_frame]; rfl
    have hrd := grouped_rd (appended (litFetched s) (s.inByte s.rd))
    have x1 : (appended (litFetched s) (s.inByte s.rd)).rd = s.rd + 1 := rfl
    have x2 : (appended (litFetched s) (s.inByte s.rd)).n = s.n := rfl
    have hout : outputBytes (grouped (appended (litFetched s) (s.inByte s.rd))) (grouped (appended (litFetched s) (s.inByte s.rd))).wr = outputBytes s s.wr ++ [s.inByte s.rd] := by
      rw [grouped_frame]
      show outputBytes (appended (litFetched s) (s.inByte s.rd)) (s.wr + 1) = _
      rw [outputBytes_succ]
      congr 1
      · exact outputBytes_congr fun a ha => outByte_appended_other _ _ (by change a ≠ s.wr; omega)
      · congr 1; exact outByte_appended_same (litFetched s) _
    refine .inr ⟨hb, ?_, ?_, ?_⟩
    · split_ifs at hrd <;> omega
    · rw [hn]; split_ifs at hrd <;> omega
    · rw [hcf, hcp, hn, hin, hout]
      refine Eq.trans ?_ g
      simp only [decodeData, hk', tokenData, decodeLit, hlen, gt_iff_lt, Nat.not_lt.mpr h, if_false]; rfl
  | cut hk h =>
    refine .inl ⟨_, rfl, rfl, rfl, rfl, ?_⟩
    have hk' : controlBit s.ctrl s.cnt = true := hk
    have : s.n = s.rd + 1 ∨ s.n = s.rd + 2 := by omega
    rcases this with e | e
    · rw [inputBytes_drop_end (by omega)]; simp only [decodeData, hk']; rfl
    · rw [inputBytes_drop (by omega), inputBytes_drop_end (by omega)]; simp only [decodeData, hk']; rfl
  | corrupt hk hn h =>
    refine .inl ⟨_, rfl, rfl, rfl, rfl, ?_⟩
    have hk' : controlBit s.ctrl s.cnt = true := hk
    rw [inputBytes_drop (by omega), inputBytes_drop (by omega)]
    simp only [decodeData, hk', tokenData, decodeMatch, hlen]
    have e1 : (matchFetched s).offset = unpackOffset (s.inByte (s.rd+1)) (s.inByte (s.rd+2)) := rfl
    have e2 : (matchFetched s).length = unpackLength (s.inByte (s.rd+2)) := rfl
    rw [e1, e2] at h
    rcases h with h | ⟨h, h'⟩
    · simp only [gt_iff_lt, h, if_true]; rfl
    · simp only [gt_iff_lt, Nat.not_lt.mpr h, h', if_true, if_false]; rfl
  | matchFull hk hn h1 h2 h3 =>
    refine .inl ⟨_, rfl, rfl, rfl, rfl, ?_⟩
    have hk' : controlBit s.ctrl s.cnt = true := hk
    rw [inputBytes_drop (by omega), inputBytes_drop (by omega)]
    simp only [decodeData, hk', tokenData, decodeMatch, hlen]
    have e1 : (matchFetched s).offset = unpackOffset (s.inByte (s.rd+1)) (s.inByte (s.rd+2)) := rfl
    have e2 : (matchFetched s).length = unpackLength (s.inByte (s.rd+2)) := rfl
    rw [e1] at h1; rw [e2] at h2 h3
    simp only [gt_iff_lt, Nat.not_lt.mpr h1, h2, h3, if_true, if_false, Bool.false_eq_true]; rfl
  | matched u hk hn h1 h2 h3 hd =>
    have hk' : controlBit s.ctrl s.cnt = true := hk
    rw [inputBytes_drop (show s.rd + 1 < s.n by omega), inputBytes_drop (show s.rd + 2 < s.n by omega)]
    have hf := hd.frame
    have hdata := hd.data h1
    have hw : (matchFetched s).wr = s.wr := rfl
    have hob : outputBytes (matchFetched s) (matchFetched s).wr = outputBytes s s.wr := rfl
    rw [hob, hw] at hdata
    have huw : u.wr = s.wr + (matchFetched s).length.toNat := hd.wr
    have urd : u.rd = s.rd + 3 := by rw [hf]; rfl
    have un : u.n = s.n := by rw [hf]; rfl
    have ucf : u.cfg = s.cfg := by rw [hf]; rfl
    have ucp : u.cap = s.cap := by rw [hf]; rfl
    have uct : u.ctrl = s.ctrl := by rw [hf]; rfl
    have ucn : u.cnt = s.cnt := by rw [hf]; rfl
    have uin : inputBytes u s.n = inputBytes s s.n := by rw [hf]; rfl
    have ub : u.busy = s.busy := by rw [hf]; rfl
    generalize hx : appended u (s.inByte s.rd) = x
    have xrd : x.rd = s.rd + 3 := by rw [← hx]; exact urd
    have xn : x.n = s.n := by rw [← hx]; exact un
    have xcf : x.cfg = s.cfg := by rw [← hx]; exact ucf
    have xcp : x.cap = s.cap := by rw [← hx]; exact ucp
    have xct : x.ctrl = s.ctrl := by rw [← hx]; exact uct
    have xcn : x.cnt = s.cnt := by rw [← hx]; exact ucn
    have xin : inputBytes x s.n = inputBytes s s.n := by rw [← hx]; exact uin
    have xb : x.busy = s.busy := by rw [← hx]; exact ub
    have xw : x.wr = s.wr + (matchFetched s).length.toNat + 1 := by rw [← hx]; show u.wr + 1 = _; rw [huw]
    have g := decodeData_grouped x (copyData (matchFetched s).offset.toNat (matchFetched s).length.toNat (outputBytes s s.wr) ++ [s.inByte s.rd]) (inputBytes s s.n) (by rw [xn, xin])
    have hrd := grouped_rd x
    have gb : (grouped x).busy = x.busy := by rw [grouped_frame]
    have gn : (grouped x).n = x.n := by rw [grouped_frame]
    have gcf : (grouped x).cfg = x.cfg := by rw [grouped_frame]
    have gcp : (grouped x).cap = x.cap := by rw [grouped_frame]
    have gin : inputBytes (grouped x) s.n = inputBytes x s.n := by rw [grouped_frame]; rfl
    have gw : (grouped x).wr = x.wr := by rw [grouped_frame]
    have hout : outputBytes (grouped x) (grouped x).wr = copyData (matchFetched s).offset.toNat (matchFetched s).length.toNat (outputBytes s s.wr) ++ [s.inByte s.rd] := by
      rw [gw, xw]
      have : outputBytes (grouped x) (s.wr + (matchFetched s).length.toNat + 1) = outputBytes x (s.wr + (matchFetched s).length.toNat + 1) := by rw [grouped_frame]; rfl
      rw [this, outputBytes_succ, ← hx, ← hdata]
      congr 1
      · exact outputBytes_congr fun a ha => outByte_appended_other _ _ (by omega)
      · congr 1; rw [← huw]; exact outByte_appended_same u _
    refine .inr ⟨gb.trans xb, ?_, ?_, ?_⟩
    · split_ifs at hrd <;> omega
    · rw [gn]; split_ifs at hrd <;> omega
    · rw [gcf, gcp, gn, xn, gin, xin, hout, xcf, xcp]
      rw [xcf, xcp] at g
      refine Eq.trans ?_ g
      rw [xct, xcn, xrd]
      have e1 : (matchFetched s).offset = unpackOffset (s.inByte (s.rd+1)) (s.inByte (s.rd+2)) := rfl
      have e2 : (matchFetched s).length = unpackLength (s.inByte (s.rd+2)) := rfl
      rw [e1] at h1 ⊢; rw [e2] at h2 h3 ⊢
      simp only [decodeData, hk', tokenData, decodeMatch, hlen, gt_iff_lt, Nat.not_lt.mpr h1, h2, Nat.not_lt.mpr h3, if_false, Bool.false_eq_true]

/-! ### FIND_PREFIX -/

/-- The common prefix of the window and the sequence from two places on, cut to the cap, is the run of R83. -/
theorem commonLength_isRun {s : State} {we ss se p : Nat} (hw : we < s.n) (hs : se < s.n) :
    IsRun s we ss se p (runOf s.cfg (inputBytes s s.n) we ss se p) := by
  have key : ∀ (cap p ss : Nat), 
     let k := commonLength cap (slice (inputBytes s s.n) p we) (slice (inputBytes s s.n) ss se)
     k ≤ cap ∧ (k = 0 ∨ p + k ≤ we + 1) ∧ (k = 0 ∨ ss + k ≤ se + 1) ∧ (∀ j, j < k → s.inByte (p + j) = s.inByte (ss + j)) ∧
     (k = cap ∨ we < p + k ∨ se < ss + k ∨ s.inByte (p + k) ≠ s.inByte (ss + k)) := by
    intro cap
    induction cap with
    | zero => intro p ss; simp [commonLength]
    | succ cap ih =>
      intro p ss
      have cons : ∀ a b, b < s.n → a ≤ b → slice (inputBytes s s.n) a b = s.inByte a :: slice (inputBytes s s.n) (a+1) b := by
        intro a b hb hab
        unfold slice
        rw [List.drop_eq_getElem_cons (by simp [inputBytes]; omega)]
        simp [inputBytes]
      have nil : ∀ a b, b < a → slice (inputBytes s s.n) a b = [] := by
        intro a b h; unfold slice; simp; left; omega
      rcases Nat.lt_or_ge we p with h1 | h1
      · rw [nil p we h1]; simp [commonLength]; omega
      · rcases Nat.lt_or_ge se ss with h2 | h2
        · rw [nil ss se h2, cons p we hw h1]; simp [commonLength]; omega
        · rw [cons p we hw h1, cons ss se hs h2]
          by_cases he : s.inByte p = s.inByte ss
          · simp only [commonLength, he, if_true]
            obtain ⟨a1, a2, a3, a4, a5⟩ := ih (p+1) (ss+1)
            refine ⟨by omega, .inr (by omega), .inr (by omega), ?_, ?_⟩
            · intro j hj
              rcases j with _ | j
              · exact he
              · have := a4 j (by omega)
                rw [show p + (j+1) = p + 1 + j by omega, show ss + (j+1) = ss + 1 + j by omega]; exact this
            · generalize commonLength cap (slice (inputBytes s s.n) (p+1) we) (slice (inputBytes s s.n) (ss+1) se) = k at *
              rw [show p + (k+1) = p + 1 + k by omega, show ss + (k+1) = ss + 1 + k by omega]
              rcases a5 with a5 | a5 | a5 | a5
              · left; omega
              · right; left; omega
              · right; right; left; omega
              · right; right; right; exact a5
          · simp [commonLength, he]
  obtain ⟨a1, a2, a3, a4, a5⟩ := key s.cfg.maxSeqSize p ss
  exact ⟨a1, a2, a3, a4, a5⟩
/-- The scan's best pair is that of the list search (R84, R87). -/
theorem scan_bestOf {s : State} {we ss se : Nat} (hw : we < s.n) (hs : se < s.n) : ∀ count p (b : Scan),
   ∃ b', scan s we ss se count p b = .ok b' ∧ (b'.bestPos, b'.bestLen) = bestOf (runOf s.cfg (inputBytes s s.n) we ss se) count p (b.bestPos, b.bestLen) := by
  intro count; induction count with
  | zero => intro p b; exact ⟨b, rfl, rfl⟩
  | succ c ih =>
    intro p b
    obtain ⟨r, hr, hrun⟩ := runLength_isRun hw hs p (ss := ss)
    have : r = runOf s.cfg (inputBytes s s.n) we ss se p := hrun.unique (commonLength_isRun hw hs)
    obtain ⟨b', h1, h2⟩ := ih (p+1) (b.visit p r)
    refine ⟨b', by simp only [scan, hr]; exact h1, ?_⟩
    rw [h2, bestOf, ← this]
    congr 1
    unfold Scan.visit
    split_ifs <;> rfl

theorem commonLength_le : ∀ (c : Nat) (xs ys : List Byte), commonLength c xs ys ≤ c := by
  intro c
  induction c with
  | zero => intro xs ys; simp [commonLength]
  | succ c ih =>
    intro xs ys
    rcases xs with _ | ⟨x, xs⟩ <;> rcases ys with _ | ⟨y, ys⟩ <;> simp only [commonLength] <;> try omega
    have := ih xs ys
    split_ifs <;> omega

end Sys2Proof.Machine
end

