-- ==== Sys2Proof/Laws/Greedy.lean ====
section
/-! SUPPORT. An encoder iteration beside the reference: the token it takes, and the stream it leaves. -/

namespace Sys2Proof.Machine

/-! ### The token -/

/-- The token in the Encoder's registers. -/
def tok (v : State) : Instr := if v.isMatch then .matchTok v.c v.offset v.length else .lit v.c

theorem tok_kind (v : State) : (tok v).kind = v.isMatch := by unfold tok; cases v.isMatch <;> rfl

theorem tok_length (v : State) : (streamEncoding (tok v)).length = tokenNeed v.isMatch := by
  unfold tok tokenNeed; cases v.isMatch <;> rfl

/-- The best pair is unique. -/
theorem BestOf.unique {s : State} {we ss se lo hi : Nat} {b b' : Scan} (h : BestOf s we ss se lo hi b)
    (h' : BestOf s we ss se lo hi b') : b.bestPos = b'.bestPos ∧ b.bestLen = b'.bestLen := by
  have h1 := h.best _ _ h'.inRange.1 h'.inRange.2 h'.run
  have h2 := h'.best _ _ h.inRange.1 h.inRange.2 h.run
  omega

/-- What `ENC.SEARCH` finds is the search of the reference (R123). -/
theorem searchAt_eq {s : State} {b : Scan} (hI : Inv s) (hE : EncInv s) (h : s.pos + 1 < s.n)
    (hb : BestOf s s.wEnd s.pos (s.n - 2) s.wStart (s.wEnd + 1) b) :
    searchAt s.cfg (inputBytes s s.n) s.pos = (b.bestPos, reportedLength s.cfg.minMatch b.bestLen) := by
  have hwe : s.wEnd < s.n ∧ s.wStart ≤ s.wEnd ∧ s.wEnd = s.pos - 1 ∧ s.wStart = s.pos - s.cfg.windowSize := by
    have := hI.params.1
    rcases Nat.eq_zero_or_pos s.pos with h0 | h0
    · have := hE.atStart h0; omega
    · have := hE.window h0; omega
  have hl : (inputBytes s s.n).length = s.n := by simp [inputBytes]
  rw [searchAt, hl, if_pos h, findPrefix, ← hwe.2.2.1, ← hwe.2.2.2]
  obtain ⟨b', h1, h2⟩ := scan_bestOf hwe.1 (show s.n - 2 < s.n by omega) (ss := s.pos)
    (s.wEnd + 1 - s.wStart) s.wStart ⟨s.p, s.k.toNat, s.wStart, 0⟩
  obtain ⟨b'', h3, h4⟩ := scan_spec hwe.1 (show s.n - 2 < s.n by omega) (ss := s.pos) (lo := s.wStart)
    (s.wEnd + 1 - s.wStart) s.wStart ⟨s.p, s.k.toNat, s.wStart, 0⟩ (le_refl _) (.inl ⟨rfl, rfl⟩) (by omega)
  rw [h1] at h3; cases h3
  rw [show s.wStart + (s.wEnd + 1 - s.wStart) = s.wEnd + 1 by omega] at h4
  obtain ⟨e1, e2⟩ := hb.unique h4
  simp only at h2
  rw [← h2, e1, e2]

theorem inputBytes_getD {s : State} {a : Nat} (h : a < s.n) : (inputBytes s s.n).getD a 0 = s.inByte a := by
  simp [inputBytes, h]

/-- A literal is the reference's next token where its search finds nothing long enough (R125). -/
theorem greedyFrom_literal {s : State} (hn : s.pos < s.n) (fuel : Nat)
    (h : (searchAt s.cfg (inputBytes s s.n) s.pos).2 < s.cfg.minMatch) :
    greedyFrom s.cfg (inputBytes s s.n) (fuel + 1) s.pos =
      .lit (s.inByte s.pos) :: greedyFrom s.cfg (inputBytes s s.n) fuel (s.pos + 1) := by
  have hl : (inputBytes s s.n).length = s.n := by simp [inputBytes]
  rw [greedyFrom, hl, if_pos hn]
  simp only
  rw [if_neg (by omega), inputBytes_getD hn]

/-- The token that an iteration takes is the next one of the reference (R124, R125, R137). -/
theorem greedy_step {s v : State} (hI : Inv s) (hE : EncInv s) (hn : s.pos < s.n) (h : Consumed s v)
    (fuel : Nat) :
    greedyFrom s.cfg (inputBytes s s.n) (fuel + 1) s.pos =
      tok v :: greedyFrom s.cfg (inputBytes s s.n) fuel v.pos := by
  have hl : (inputBytes s s.n).length = s.n := by simp [inputBytes]
  have hmin := hI.realRun
  cases h with
  | literal u hu hm =>
    have hpu : u.pos = s.pos := by cases hu <;> rfl
    have hp : (consumedLiteral (s.inByte s.pos) u).pos = s.pos + 1 := by
      rw [consumedLiteral_pos, hpu]
    have ht : tok (consumedLiteral (s.inByte s.pos) u) = .lit (s.inByte s.pos) := by simp [tok]
    rw [hp, ht]
    apply greedyFrom_literal hn
    cases hu with
    | unsearched h => rw [searchAt, hl, if_neg (by omega)]; omega
    | short b h hb hlb => rw [searchAt_eq hI hE h hb]; simp only [reportedLength, hlb, if_true]; omega
    | found b h hb hlb hlen hp hsrc hoff hend =>
      have : (searched (found b s)).ml.toNat = b.bestLen := by
        simp only [searched_ml, found_matchLength]
        rw [reportedLength_toNat hlen, if_neg (by omega)]
      rcases hm with hm | hm
      · rw [hm] at this; simp at this; omega
      · omega
  | matched b h hb hlb hlen hp hsrc hoff hend =>
    have hml : (searched (found b s)).ml.toNat = b.bestLen := by
      simp only [searched_ml, found_matchLength]
      rw [reportedLength_toNat hlen, if_neg (by omega)]
    have hml' : (searched (found b s)).ml = BitVec.ofNat 4 b.bestLen := by
      apply BitVec.eq_of_toNat_eq; rw [hml]; simp; omega
    rw [greedyFrom, hl, if_pos hn]
    simp only [searchAt_eq hI hE h hb, reportedLength,
      if_neg (show ¬ b.bestLen < s.cfg.minMatch by omega), if_pos hlb]
    rw [inputBytes_getD (by omega)]
    congr 1
    · simp only [tok, consumedMatch_isMatch, if_true, consumedMatch_c, consumedMatch_offset,
        consumedMatch_length, hml']
    · congr 1
      show _ = s.pos + (searched (found b s)).ml.toNat + 1
      rw [hml]

/-- ENCODE chooses nothing but tokens. -/
theorem greedyFrom_tokens (cfg : Config) (data : List Byte) : ∀ fuel pos,
    ∀ t ∈ greedyFrom cfg data fuel pos, t.isToken = true := by
  intro fuel
  induction fuel with
  | zero => intro pos t h; simp [greedyFrom] at h
  | succ f ih =>
    intro pos t h
    rw [greedyFrom] at h
    split_ifs at h
    · simp only at h
      split_ifs at h <;> rcases List.mem_cons.mp h with h | h
      · subst h; rfl
      · exact ih _ _ h
      · subst h; rfl
      · exact ih _ _ h
    · simp at h

/-! ### The stream -/

/-- OUT holds the framing of `toks`, and the Framer's registers its open group. -/
structure Framed (s : State) (toks : List Instr) : Prop where
  out  : outputBytes s s.wr = encodeStream (groups toks)
  cnt  : s.cnt.toNat = toks.length % 8
  ctrl : ∃ G last, OpenGroup toks G last ∧ s.ctrlAddr = (encodeStream G).length ∧
           s.ctrlAcc = groupControl 0 last

theorem Framed.wr {s : State} {toks : List Instr} (h : Framed s toks) :
    s.wr = (encodeStream (groups toks)).length := by
  rw [← h.out, outputBytes_length]

theorem outputBytes_add (s : State) (a b : Nat) :
    outputBytes s (a + b) = outputBytes s a ++ (List.range b).map (fun j => s.outByte (a + j)) := by
  unfold outputBytes; rw [List.range_add]; simp

/-- Bytes of OUT that differ at one index. -/
theorem outputBytes_set {s t : State} {n a : Nat}
    (h : ∀ x, x < n → x ≠ a → t.outByte x = s.outByte x) :
    outputBytes t n = (outputBytes s n).set a (t.outByte a) := by
  apply List.ext_getElem
  · simp [outputBytes]
  · intro i h1 h2
    simp only [outputBytes, List.length_map, List.length_range] at h1
    by_cases e : i = a
    · subst e; simp [outputBytes]
    · rw [List.getElem_set_ne (Ne.symm e)]
      simp only [outputBytes, List.getElem_map, List.getElem_range]
      exact h i h1 e

/-- The stream after a token is written, before its group is counted (R127). -/
theorem emitted_out {v : State} {toks G last : List Instr} (hR : Framed v toks) (hG : OpenGroup toks G last)
    (ha : v.ctrlAddr = (encodeStream G).length) (hc : v.ctrlAcc = groupControl 0 last) :
    outputBytes (emitted v) (v.wr + tokenNeed v.isMatch) =
      encodeStream (G ++ .ctrl (groupControl 0 (last ++ [tok v])) :: (last ++ [tok v])) ∧
    (if v.isMatch then markedControl v.ctrlAcc v.cnt else v.ctrlAcc) = groupControl 0 (last ++ [tok v]) := by
  have hlt : v.ctrlAddr < v.wr := by
    rw [hR.wr, hG.now, encodeStream_append, encodeStream_cons, ha]; simp [streamEncoding]
  obtain ⟨b1, b2, b3⟩ := emitted_bytes v hlt
  have hm : (if v.isMatch then markedControl v.ctrlAcc v.cnt else v.ctrlAcc) =
      groupControl 0 (last ++ [tok v]) := by
    rw [groupControl_snoc, tok_kind, Nat.zero_add, hG.size, ← hR.cnt, ← hc]
    split_ifs
    · rfl
    · simp
  have hold : (emitted v).outByte v.ctrlAddr = groupControl 0 (last ++ [tok v]) := by
    rw [b2, ← hm]
    split_ifs with h
    · rfl
    · have e1 : (outputBytes v v.wr)[v.ctrlAddr]? = some (groupControl 0 last) := by
        rw [hR.out, hG.now, encodeStream_append, encodeStream_cons, ha]; simp [streamEncoding]
      have e2 : (outputBytes v v.wr)[v.ctrlAddr]? = some (v.outByte v.ctrlAddr) := by
        simp [outputBytes, hlt]
      rw [e2] at e1
      rw [hc]; exact Option.some.inj e1
  refine ⟨?_, hm⟩
  rw [outputBytes_add, b1, outputBytes_set (s := v) (fun x hx hne => b3 x hne (.inl hx)), hold, hR.out, hG.now]
  simp only [encodeStream_append, encodeStream_cons, streamEncoding]
  rw [ha]
  simp [tok, encodeStream]

/-- An iteration appends its token to the framing, or ends in OutputBufferExhausted with a framing that
does not fit (R126 to R128, R136). -/
theorem framed_step {s v t : State} {toks : List Instr} (hR : Framed s toks) (hv : Consumed s v)
    (ht : IterationEnd v t) (hb : s.busy = true) :
    (t.busy = false ∧ t.done = true ∧ t.status = .outputBufferExhausted ∧ t.outLen = 0 ∧
      s.cap < (encodeStream (groups (toks ++ [tok v]))).length) ∨
    (t.busy = true ∧ t.pos = v.pos ∧ Framed t (toks ++ [tok v])) := by
  have hf := hv.around.frame
  have hRv : Framed v toks := by
    obtain ⟨h1, h2, h3⟩ := hR
    rw [hf]; exact ⟨h1, h2, h3⟩
  have ecap : v.cap = s.cap := by rw [hf]
  have evb : v.busy = true := by rw [hf]; exact hb
  obtain ⟨G, last, hG, ha, hc⟩ := hRv.ctrl
  obtain ⟨h1, h2⟩ := emitted_out hRv hG ha hc
  have hlen := groups_length_snoc toks (tok v)
  rw [tok_length, ← hRv.wr] at hlen
  have hcnt := hRv.cnt
  obtain ⟨G', last', hG'⟩ := openGroup_exists (toks ++ [tok v])
  have hl' := hG'.size
  cases ht with
  | full h => exact .inl ⟨rfl, rfl, rfl, rfl, by omega⟩
  | groupFull h hc7 hr => exact .inl ⟨rfl, rfl, rfl, rfl, by rw [hlen, if_pos (by omega)]; omega⟩
  | inGroup h hc7 =>
    have tb : (slid (counted (emitted v))).busy = true := (emitted_busy v).trans evb
    have w := IterationEnd.went (.inGroup h hc7) tb
    have e := hG.goesOn (tok v) (by omega)
    refine .inr ⟨tb, w.pos, ?_, ?_, ?_⟩
    · rw [w.wr, if_neg (by omega), e, ← h1]; rfl
    · rw [w.cnt, count_next _ hc7]; simp; omega
    · obtain ⟨rfl, rfl⟩ := hG'.unique e (by rw [hl']; simp [hG.size]; omega)
      exact ⟨_, _, hG', by rw [w.ctrlAddr, if_neg (by omega), ha],
        by rw [w.ctrlAcc, if_neg (by omega)]; exact h2⟩
  | newGroup h hc7 hr =>
    have tb : (slid (opened (counted (emitted v)))).busy = true := (emitted_busy v).trans evb
    have w := IterationEnd.went (.newGroup h hc7 hr) tb
    have hew : (emitted v).wr = v.wr + tokenNeed v.isMatch := emitted_wr v
    refine .inr ⟨tb, w.pos, ?_, ?_, ?_⟩
    · rw [w.wr, if_pos hc7, hG.closes (tok v) (by omega), encodeStream_append, ← h1, outputBytes_succ]
      congr 1
      · apply outputBytes_congr
        intro a haa
        show ((((emitted v).out.write (emitted v).wr 0).read a).getD _) = _
        rw [Memory.read_write_other _ _ (by omega)]; rfl
      · show [((((emitted v).out.write (emitted v).wr 0).read _).getD _)] = _
        rw [hew, Memory.read_write_same]; rfl
    · rw [w.cnt, (count_wraps _).mpr hc7]; simp; omega
    · obtain rfl : last' = [] := List.length_eq_zero_iff.mp (by rw [hl']; simp; omega)
      refine ⟨G', [], hG', ?_, by rw [w.ctrlAcc, if_pos hc7]; rfl⟩
      rw [w.ctrlAddr, if_pos hc7]
      have h3 : (encodeStream (groups (toks ++ [tok v]))).length = (encodeStream G').length + 1 := by
        rw [hG'.now]; simp [encodeStream, streamEncoding]
      rw [hlen, if_pos (by omega)] at h3
      omega

end Sys2Proof.Machine
end

