-- ==== Sys2Proof/Laws/Invariant.lean ====
section
/-! SUPPORT. What a step of the sequencer keeps of the invariant. -/

namespace Sys2Proof.Machine

/-- An encoder iteration keeps the invariant (R135). -/
theorem inv_encStep {s v t : State} (hI : Inv s) (hb : s.busy = true) (ho : s.opl = 0) (hn : s.pos < s.n)
    (hv : Consumed s v) (ht : IterationEnd v t) (hk : Kept s t) : Inv t := by
  have hE := hI.encoding hb ho
  have hf := hv.around.frame
  have hout : t.out.wf = true := ht.outWf (by rw [hf]; exact hI.outWf)
  obtain ⟨hp, hle, hc⟩ := hv.pos
  refine ⟨by rw [hk.cfg]; exact hI.params, by rw [hk.cfg]; exact hI.realRun, by rw [hk.cfg]; exact hI.policy,
    by rw [hk.inp]; exact hI.inWf, hout, ?_, ?_, ?_, ?_, ?_⟩
  · rcases hk.report with ⟨_, _, h, _⟩ | r
    · rw [h]; exact hI.reserved
    · rcases r.status with h | ⟨_, h | h⟩ <;> simp [h]
  · rcases hk.report with ⟨_, _, h, h'⟩ | r
    · rw [h, h']; exact hI.noResult
    · rcases r.status with h | ⟨h, _⟩
      · intro x; exact absurd h x
      · intro _; exact h
  · rcases hk.report with ⟨h, h', _⟩ | r
    · rw [h, h']; exact hI.notBoth
    · rw [r.idle]; intro x; cases x
  · intro tb _
    have w := ht.went tb
    have e1 : v.cfg = s.cfg := by rw [hf]
    have e2 : v.wStart = s.wStart := by rw [hf]
    have e3 : v.n = s.n := by rw [hf]
    have e4 : v.cap = s.cap := by rw [hf]
    have e5 : v.wr = s.wr := by rw [hf]
    have e6 : v.ctrlAddr = s.ctrlAddr := by rw [hf]
    have e7 : v.ctrlAcc = s.ctrlAcc := by rw [hf]
    have e8 : v.cnt = s.cnt := by rw [hf]
    have hpp : s.pos < v.pos := by rw [hp]; split_ifs <;> omega
    have hg := hE.group (by omega)
    have hu := hE.unused (by omega)
    constructor
    · rw [w.pos, w.rest.1, e3]; exact hle hn
    · rw [w.pos]; omega
    · intro _
      rw [w.wEnd, w.wStart, w.pos, hk.cfg, e1, e2]
      refine ⟨rfl, ?_⟩
      apply exactWindowStart_spec hI.params.1 hpp
      rcases Nat.eq_zero_or_pos s.pos with h0 | h0
      · exact .inl ⟨h0, (hE.atStart h0).1⟩
      · exact .inr ⟨h0, (hE.window h0).2⟩
    · rw [w.rest.2.1]; exact w.room
    · intro _; rw [w.ctrlAddr, w.wr, e5, e6]; split_ifs <;> omega
    · intro _ j hj
      rw [w.ctrlAcc]
      rw [w.cnt] at hj
      split_ifs with h7 hm
      · simp
      · rw [e7, e8, getLsbD_marked]
        rw [e8] at hj h7
        have : s.cnt.toNat < 8 := s.cnt.isLt
        rw [count_next _ (by omega)] at hj
        rw [hu j (by omega)]; simp; omega
      · rw [e7]
        rw [e8] at hj h7
        have : s.cnt.toNat < 8 := s.cnt.isLt
        rw [count_next _ (by omega)] at hj
        exact hu j (by omega)
  · intro _ h; rw [hk.opl, ho] at h; cases h

/-- A decoder step keeps R163 and passes at least one byte. -/
theorem TokenEnd.facts {s t : State} (h : TokenEnd s t) (hr : s.rd < s.n)
    (ho : s.out.wf = true) :
    t.out.wf = true ∧ (t.busy = true → t.rd ≤ s.n ∧ t.wr ≤ s.cap ∧ s.rd < t.rd) := by
  cases h with
  | litFull hk h => exact ⟨ho, fun h => by cases h⟩
  | cut hk h => exact ⟨ho, fun h => by cases h⟩
  | corrupt hk h => exact ⟨ho, fun h => by cases h⟩
  | matchFull hk h => exact ⟨ho, fun h => by cases h⟩
  | lit hk h =>
    refine ⟨by rw [grouped_frame]; exact Memory.wf_write _ _ ho, fun _ => ?_⟩
    have g := grouped_rd (appended (litFetched s) (s.inByte s.rd))
    have g2 : (grouped (appended (litFetched s) (s.inByte s.rd))).wr = s.wr + 1 := by rw [grouped_frame]; rfl
    have x1 : (appended (litFetched s) (s.inByte s.rd)).rd = s.rd + 1 := rfl
    have x2 : (appended (litFetched s) (s.inByte s.rd)).n = s.n := rfl
    split_ifs at g with hc <;> omega
  | matched u hk hn h1 h2 h3 hd =>
    refine ⟨by rw [grouped_frame]; exact Memory.wf_write _ _ (hd.outWf ho), fun _ => ?_⟩
    have e1 : u.rd = s.rd + 3 := by rw [hd.frame]; rfl
    have e2 : u.n = s.n := by rw [hd.frame]; rfl
    have e3 : u.wr = s.wr + (matchFetched s).length.toNat := hd.wr
    have g := grouped_rd (appended u (s.inByte s.rd))
    have g2 : (grouped (appended u (s.inByte s.rd))).wr = u.wr + 1 := by rw [grouped_frame]; rfl
    have x1 : (appended u (s.inByte s.rd)).rd = u.rd := rfl
    have x2 : (appended u (s.inByte s.rd)).n = u.n := rfl
    split_ifs at g with hc <;> omega

/-- A step of the sequencer keeps the invariant. -/
theorem inv_sequencer {s t : State} (hI : Inv s) (h : sequencer s = .next t) : Inv t := by
  have hk := keeps_sequencer s t h
  obtain ⟨t', ht', hs⟩ := sequencer_spec hI
  rw [h] at ht'; cases ht'
  cases hs with
  | idle => exact hI
  | encStep v t hb ho hn hv ht => exact inv_encStep hI hb ho hn hv ht hk
  | encFinish => exact ⟨hI.params, hI.realRun, hI.policy, hI.inWf, hI.outWf,
      by simp [finished], by simp [finished], by simp [finished], by simp [finished], by simp [finished]⟩
  | decFinish => exact ⟨hI.params, hI.realRun, hI.policy, hI.inWf, hI.outWf,
      by simp [finished], by simp [finished], by simp [finished], by simp [finished], by simp [finished]⟩
  | decStep t hb ho hn ht =>
    have hD := hI.decoding hb ho
    obtain ⟨hw, hf⟩ := TokenEnd.facts ht hn hI.outWf
    refine ⟨by rw [hk.cfg]; exact hI.params, by rw [hk.cfg]; exact hI.realRun, by rw [hk.cfg]; exact hI.policy,
      by rw [hk.inp]; exact hI.inWf, hw, ?_, ?_, ?_, ?_, ?_⟩
    · rcases hk.report with ⟨_, _, h, _⟩ | r
      · rw [h]; exact hI.reserved
      · rcases r.status with h | ⟨_, h | h⟩ <;> simp [h]
    · rcases hk.report with ⟨_, _, h, h'⟩ | r
      · rw [h, h']; exact hI.noResult
      · rcases r.status with h | ⟨h, _⟩
        · intro x; exact absurd h x
        · intro _; exact h
    · rcases hk.report with ⟨h, h', _⟩ | r
      · rw [h, h']; exact hI.notBoth
      · rw [r.idle]; intro x; cases x
    · intro _ h; rw [hk.opl, ho] at h; cases h
    · intro tb _
      obtain ⟨h1, h2, _⟩ := hf tb
      exact ⟨by rw [hk.n]; exact h1, by rw [hk.cap]; exact h2⟩

end Sys2Proof.Machine
end

