-- ==== Sys2Proof/Laws/PerInstr.lean ====
section
/-! SUPPORT. What holds of every instruction as syntax, per constructor: the size of its encoding in a
stream, and what its token kind says of it (30_encoding R61, R66). -/

namespace Sys2Proof.Laws

/-- An instruction occupies as many bytes of a stream as R61 says, and a match token is exactly the
instruction of kind 1, with three bytes (R66). -/
def Layout.Statement (i : Instr) : Prop :=
  (streamEncoding i).length = i.streamBytes ∧
  (i.kind = true ↔ i.streamBytes = 3) ∧
  (i.isToken = true → i.streamBytes = if i.kind then 3 else 1)

theorem Layout.lit (c : Byte) : Layout.Statement (.lit c) := by
  simp [Layout.Statement, streamEncoding, Instr.streamBytes, Instr.kind]

theorem Layout.matchTok (c : Byte) (offset : Offset) (length : Length) :
    Layout.Statement (.matchTok c offset length) := by
  simp [Layout.Statement, streamEncoding, Instr.streamBytes, Instr.kind]

theorem Layout.ctrl (m : Byte) : Layout.Statement (.ctrl m) := by
  simp [Layout.Statement, streamEncoding, Instr.streamBytes, Instr.kind, Instr.isToken]

theorem Layout.encode : Layout.Statement .encode := by
  simp [Layout.Statement, streamEncoding, Instr.streamBytes, Instr.kind, Instr.isToken]

theorem Layout.decode : Layout.Statement .decode := by
  simp [Layout.Statement, streamEncoding, Instr.streamBytes, Instr.kind, Instr.isToken]

theorem Layout.findPrefix (ws we ss se : Nat) : Layout.Statement (.findPrefix ws we ss se) := by
  simp [Layout.Statement, streamEncoding, Instr.streamBytes, Instr.kind, Instr.isToken]

end Sys2Proof.Laws
end

