-- ==== Sys2Proof/Laws/Platform.lean ====
section
/-! SUPPORT. Several blocks: what a step of one of them can do, and what it leaves of the others. -/

namespace Sys2Proof.Machine

/-! ### The contents a block sees -/

@[simp] theorem over_inp (s : State) (x : Input) : (s.over x).inp = x.bytes := rfl
@[simp] theorem over_inFill (s : State) (x : Input) : (s.over x).inFill = x.fill := rfl
@[simp] theorem over_busy (s : State) (x : Input) : (s.over x).busy = s.busy := rfl
@[simp] theorem over_host (s : State) (x : Input) : (s.over x).host = s.host := rfl
@[simp] theorem over_over (s : State) (x y : Input) : (s.over x).over y = s.over y := rfl
@[simp] theorem over_self (s : State) : s.over { bytes := s.inp, fill := s.inFill } = s := rfl

theorem Platform.seen_eq_some {p : Platform} {j : Nat} {s : State} :
    p.seen j = some s ↔ ∃ b x, p.blocks[j]? = some b ∧ p.inputs[b.inAt]? = some x ∧ b.core.over x = s := by
  simp only [Platform.seen, Option.bind_eq_some_iff, Option.map_eq_some_iff, exists_and_left]

/-- Block `j` sees the state it has come to. -/
theorem Platform.seen_put_self {p : Platform} {j : Nat} {s : State} (t : State) (h : p.seen j = some s) :
    (p.put j t).seen j = some t := by
  obtain ⟨b, x, hb, hx, rfl⟩ := Platform.seen_eq_some.mp h
  obtain ⟨hj, -⟩ := List.getElem?_eq_some_iff.mp hb
  obtain ⟨hi, -⟩ := List.getElem?_eq_some_iff.mp hx
  refine Platform.seen_eq_some.mpr ⟨{ b with core := t }, { bytes := t.inp, fill := t.inFill }, ?_, ?_, rfl⟩
  · simp only [Platform.put, hb, List.getElem?_set_self hj]
  · simp only [Platform.put, hb, List.getElem?_set_self hi]

/-- Another block sees its own state, over the contents that its IN has now. -/
theorem Platform.seen_put_other {p : Platform} {j k : Nat} {s u : State} (t : State) (hjk : j ≠ k)
    (hs : p.seen j = some s) (hu : p.seen k = some u) :
    ∃ b c, p.blocks[j]? = some b ∧ p.blocks[k]? = some c ∧ b.core.busy = s.busy ∧ c.core.busy = u.busy ∧
      (p.put j t).seen k =
        some (if b.inAt = c.inAt then u.over { bytes := t.inp, fill := t.inFill } else u) ∧
      (b.inAt = c.inAt → u.inp = s.inp ∧ u.inFill = s.inFill) := by
  obtain ⟨b, x, hb, hx, rfl⟩ := Platform.seen_eq_some.mp hs
  obtain ⟨c, y, hc, hy, rfl⟩ := Platform.seen_eq_some.mp hu
  obtain ⟨hi, -⟩ := List.getElem?_eq_some_iff.mp hx
  have hb' : (p.put j t).blocks[k]? = some c := by simp [Platform.put, hb, hjk, hc]
  refine ⟨b, c, hb, hc, rfl, rfl, ?_, fun h => ?_⟩
  · split_ifs with h
    · exact Platform.seen_eq_some.mpr ⟨c, _, hb', by simp [Platform.put, hb, ← h, hi], rfl⟩
    · exact Platform.seen_eq_some.mpr ⟨c, y, hb', by simp [Platform.put, hb, h, hy], rfl⟩
  · rw [h, hy] at hx; cases hx; exact ⟨rfl, rfl⟩

theorem Platform.another_eq_true {p : Platform} {j : Nat} {q : Block → Block → Bool} :
    p.another j q = true ↔
      ∃ b k c, p.blocks[j]? = some b ∧ k ≠ j ∧ p.blocks[k]? = some c ∧ q b c = true := by
  simp only [Platform.another, Option.any_eq_true, List.any_eq_true, List.mem_eraseIdx_iff_getElem?]
  constructor
  · rintro ⟨b, hb, c, ⟨k, hk, hc⟩, hq⟩; exact ⟨b, k, c, hb, hk, hc, hq⟩
  · rintro ⟨b, k, c, hb, hk, hc, hq⟩; exact ⟨b, hb, c, ⟨k, hk, hc⟩, hq⟩

/-- Independent blocks share no OUT. -/
theorem Independent.outputShared {p : Platform} (h : Independent p) (j : Nat) : p.outputShared j = false := by
  cases e : p.outputShared j with
  | false => rfl
  | true =>
    obtain ⟨b, k, c, hb, hk, hc, hq⟩ := Platform.another_eq_true.mp e
    exact absurd (h.outputs k j c b hc hb (by simpa using hq)) hk

/-- Every block of a platform of independent blocks sees an IN. -/
theorem Independent.seen {p : Platform} (h : Independent p) {j : Nat} (hj : j < p.blocks.length) :
    ∃ s, p.seen j = some s := by
  have hb : p.blocks[j]? = some p.blocks[j] := List.getElem?_eq_getElem hj
  exact ⟨_, Platform.seen_eq_some.mpr ⟨_, _, hb, List.getElem?_eq_getElem (h.inputs j _ hb), rfl⟩⟩

/-- A step keeps the wiring. -/
theorem Platform.put_block {p : Platform} {j k : Nat} {t : State} {b : Block}
    (h : (p.put j t).blocks[k]? = some b) :
    ∃ c, p.blocks[k]? = some c ∧ b.inAt = c.inAt ∧ b.outAt = c.outAt := by
  unfold Platform.put at h
  split at h
  · exact ⟨b, h, rfl, rfl⟩
  · rename_i c hc
    rcases eq_or_ne j k with rfl | hjk
    · obtain ⟨hj, -⟩ := List.getElem?_eq_some_iff.mp hc
      simp only [List.getElem?_set_self hj, Option.some.injEq] at h
      subst h
      exact ⟨c, hc, rfl, rfl⟩
    · simp only [List.getElem?_set_ne hjk] at h
      exact ⟨b, h, rfl, rfl⟩

theorem Platform.put_length (p : Platform) (j : Nat) (t : State) :
    (p.put j t).blocks.length = p.blocks.length ∧ (p.put j t).inputs.length = p.inputs.length := by
  unfold Platform.put
  split
  · exact ⟨rfl, rfl⟩
  · exact ⟨List.length_set, List.length_set⟩

theorem Independent.put {p : Platform} (h : Independent p) (j : Nat) (t : State) : Independent (p.put j t) where
  inputs k b hb := by
    obtain ⟨b', hb', e, -⟩ := Platform.put_block hb
    rw [e, (p.put_length j t).2]
    exact h.inputs k b' hb'
  outputs k l b c hb hc e := by
    obtain ⟨b', hb', -, eb⟩ := Platform.put_block hb
    obtain ⟨c', hc', -, ec⟩ := Platform.put_block hc
    exact h.outputs k l b' c' hb' hc' (by rw [← eb, ← ec, e])

/-! ### A step -/

/-- What a step of a block does: nothing is shared that may not be, and the block takes a step of its own. -/
theorem Platform.step_eq_next {p q : Platform} {j : Nat} (h : p.step j = .next q) :
    ∃ s t, p.seen j = some s ∧ p.outputShared j = false ∧
      (s.hostWritesIn = true → p.inputInUse j = false) ∧ Machine.step s = .next t ∧ q = p.put j t := by
  unfold Platform.step at h
  split at h
  · cases h
  · rename_i s hs
    split_ifs at h with h1 h2
    split at h
    · rename_i t ht
      cases h
      exact ⟨s, t, hs, by simpa using h1, fun hw => by simpa [hw] using h2, ht, rfl⟩
    · cases h
    · cases h

/-- A step of a block that shares no OUT and whose host leaves IN alone is the machine's own. -/
theorem Platform.step_of_next {p : Platform} {j : Nat} {s t : State} (hs : p.seen j = some s)
    (ho : p.outputShared j = false) (hw : s.hostWritesIn = false) (ht : Machine.step s = .next t) :
    p.step j = .next (p.put j t) := by
  simp [Platform.step, hs, ho, hw, ht]

/-- START leaves IN alone. -/
theorem exec_command_keeps_input {o : OpCode} {s t : State} (h : exec (decodeCommand o) s = .next t) :
    t.inp = s.inp ∧ t.inFill = s.inFill := by
  rcases opl_cases o with rfl | rfl
  · have h : start 0 encInit s = .next t := h
    rcases start_cases 0 encInit s with ⟨_, e⟩ | ⟨_, e | e⟩ | ⟨_, e⟩ <;> rw [e] at h
    · cases h; exact ⟨rfl, rfl⟩
    · cases h
    · cases h
    · rcases encInit_cases (latch 0 s) with ⟨_, e⟩ | ⟨_, _, e⟩ | ⟨_, _, e⟩ <;> rw [e] at h <;> cases h <;>
        exact ⟨rfl, rfl⟩
  · have h : start 1 decInit s = .next t := h
    rcases start_cases 1 decInit s with ⟨_, e⟩ | ⟨_, e | e⟩ | ⟨_, e⟩ <;> rw [e] at h
    · cases h; exact ⟨rfl, rfl⟩
    · cases h
    · cases h
    · rcases decInit_cases (latch 1 s) with ⟨_, e⟩ | ⟨_, e⟩ <;> rw [e] at h <;> cases h <;> exact ⟨rfl, rfl⟩

theorem whileIdle_eq_next {s t u : State} (h : whileIdle s t = .next u) : u = t := by
  unfold whileIdle at h
  split_ifs at h
  cases h; rfl

/-- Only the host's own writes change IN (20_memory R45). -/
theorem step_keeps_input {s t : State} (hw : s.hostWritesIn = false) (h : step s = .next t) :
    t.inp = s.inp ∧ t.inFill = s.inFill := by
  cases hh : s.host with
  | nil =>
    rw [step_eq_sequencer hh] at h
    exact ⟨(keeps_sequencer s t h).inp, (keeps_sequencer s t h).inFill⟩
  | cons a rest =>
    rw [step_eq_hostStep hh] at h
    cases a with
    | write r v =>
      cases r with
      | start =>
        have h : hostStart v { s with host := rest } = .next t := h
        unfold hostStart at h
        split_ifs at h
        · cases h; exact ⟨rfl, rfl⟩
        · exact exec_command_keeps_input (s := { s with host := rest }) h
      | op =>
        have h : hostWrite .op v { s with host := rest } = .next t := h
        unfold hostWrite at h
        simp only at h
        split_ifs at h
        · cases whileIdle_eq_next h; exact ⟨rfl, rfl⟩
      | inLen => cases whileIdle_eq_next (show whileIdle _ _ = _ from h); exact ⟨rfl, rfl⟩
      | outCap => cases whileIdle_eq_next (show whileIdle _ _ = _ from h); exact ⟨rfl, rfl⟩
      | busy => cases h
      | done => cases h
      | status => cases h
      | outLen => cases h
    | read r =>
      have h : hostRead r { s with host := rest } = .next t := h
      unfold hostRead at h
      split at h
      · cases h; exact ⟨rfl, rfl⟩
      · cases h
    | provideIn bytes => simp [State.hostWritesIn, hh] at hw
    | provideOut => cases whileIdle_eq_next (show whileIdle _ _ = _ from h); exact ⟨rfl, rfl⟩
    | writeIn x v => simp [State.hostWritesIn, hh] at hw
    | readIn x => cases h; exact ⟨rfl, rfl⟩
    | writeOut x v => cases whileIdle_eq_next (show whileIdle _ _ = _ from h); exact ⟨rfl, rfl⟩
    | readOut x => cases whileIdle_eq_next (show whileIdle _ _ = _ from h); exact ⟨rfl, rfl⟩
    | reset => cases h; exact ⟨rfl, rfl⟩
    | run =>
      have k := keeps_sequencer _ t (show sequencer { s with host := rest } = .next t from h)
      exact ⟨k.inp, k.inFill⟩

end Sys2Proof.Machine
end

