-- ==== Sys2Proof/Laws/Stores.lean ====
section
/-! SUPPORT. Where an `ENC.STEP` stores, from any state at all (20_memory R46, 60_exceptions R187). -/

namespace Sys2Proof.Machine

/-- From `s` to `t` nothing was stored but at index `c` and from the write cursor on, which has not gone back. -/
structure Within (c : Nat) (s t : State) : Prop where
  cursor : s.wr ≤ t.wr
  bytes  : ∀ a, a ≠ c → a < s.wr ∨ t.wr ≤ a → t.out.read a = s.out.read a

theorem Within.of_eq {c : Nat} {s t : State} (h1 : t.wr = s.wr) (h2 : t.out = s.out) : Within c s t :=
  ⟨h1.ge, fun _ _ _ => by rw [h2]⟩

theorem Within.trans {c : Nat} {s u t : State} (h : Within c s u) (h' : Within c u t) : Within c s t where
  cursor := h.cursor.trans h'.cursor
  bytes a hc ha := by
    have h1 := h.cursor
    have h2 := h'.cursor
    rw [h'.bytes a hc (by omega), h.bytes a hc (by omega)]

theorem within_appended (c : Nat) (s : State) (v : Byte) : Within c s (appended s v) where
  cursor := Nat.le_succ _
  bytes a _ ha := Memory.read_write_other _ _ (by simp only [appended_wr] at ha; omega)

/-- What the rules before `ENC.EMIT` leave as it is. -/
structure NotYetStored (s t : State) : Prop where
  out      : t.out = s.out
  wr       : t.wr = s.wr
  ctrlAddr : t.ctrlAddr = s.ctrlAddr

theorem encSearch_stores {s t : State} (h : encSearch s = .next t) : NotYetStored s t := by
  unfold encSearch at h
  split_ifs at h
  · obtain ⟨u, hu, h⟩ := thenDo_eq_next h
    obtain ⟨b, _, hb⟩ := attempt_eq_next hu
    cases hb; cases h
    exact ⟨rfl, rfl, rfl⟩
  · cases h; exact ⟨rfl, rfl, rfl⟩

theorem encConsume_stores {s t : State} (h : encConsume s = .next t) : NotYetStored s t := by
  unfold encConsume encConsumeMatch encConsumeLiteral at h
  split_ifs at h
  · split at h
    · cases h
    · obtain ⟨c, _, h⟩ := attempt_eq_next h
      cases h; exact ⟨rfl, rfl, rfl⟩
  · obtain ⟨c, _, h⟩ := attempt_eq_next h
    cases h; exact ⟨rfl, rfl, rfl⟩

theorem encCheck_stores {s t : State} (h : encCheck s = .next t) : NotYetStored s t := by
  unfold encCheck at h
  split_ifs at h <;> cases h <;> exact ⟨rfl, rfl, rfl⟩

/-- `ENC.EMIT` passes at least one byte. -/
theorem encEmit_stores {s t : State} (h : encEmit s = .next t) : Within s.ctrlAddr s t ∧ s.wr < t.wr := by
  obtain ⟨u, hu, h⟩ := thenDo_eq_next h
  have mark : Within s.ctrlAddr s u ∧ u.wr = s.wr := by
    unfold frMark at hu
    split_ifs at hu
    · obtain ⟨x, _, hu⟩ := attempt_eq_next hu
      cases hu
      exact ⟨⟨le_rfl, fun a hc _ => Memory.read_write_other _ _ hc⟩, rfl⟩
    · cases hu; exact ⟨.of_eq rfl rfl, rfl⟩
  unfold frPut at h
  obtain ⟨x, hx, h⟩ := attempt_eq_next h
  obtain ⟨-, rfl⟩ := append_eq_ok.mp hx
  have w1 := mark.1.trans (within_appended s.ctrlAddr u u.c)
  split_ifs at h
  · obtain ⟨y, hy, h⟩ := attempt_eq_next h
    obtain ⟨-, rfl⟩ := append_eq_ok.mp hy
    obtain ⟨z, hz, h⟩ := attempt_eq_next h
    obtain ⟨-, rfl⟩ := append_eq_ok.mp hz
    cases h
    have w2 := (w1.trans (within_appended _ _ (packHigh u.offset))).trans
      (within_appended _ _ (packLow u.offset u.length))
    exact ⟨w2, by simp only [appended_wr, mark.2]; omega⟩
  · cases h; exact ⟨w1, by simp only [appended_wr, mark.2]; omega⟩

theorem encGroup_stores (c : Nat) {s t : State} (h : encGroup s = .next t) : Within c s t := by
  unfold encGroup frNextEnc at h
  split_ifs at h
  · rcases frOpen_cases (counted s) with ⟨_, ho⟩ | ⟨_, ho⟩ <;> rw [ho] at h <;> cases h
    · exact .of_eq rfl rfl
    · exact ⟨Nat.le_succ _, fun a _ ha => Memory.read_write_other _ _ (by
        simp only [opened_wr, counted_wr] at ha ⊢; omega)⟩
  · cases h; exact .of_eq rfl rfl

theorem encWindow_stores (c : Nat) {d : Bool} {s t : State} (h : encWindow d s = .next t) : Within c s t := by
  unfold encWindow inheritedShrink at h
  split at h
  · cases h; exact .of_eq rfl rfl
  · split_ifs at h <;> cases h <;> exact .of_eq rfl rfl

/-- Where an `ENC.STEP` stores; one that leaves the cursor where it was has stored nothing. -/
theorem encStep_stores {s t : State} (h : encStep s = .next t) :
    Within s.ctrlAddr s t ∧ (t.wr = s.wr → t.out = s.out) := by
  obtain ⟨u, hu, h⟩ := unlessOver_eq_next h
  have k1 := encSearch_stores hu
  rcases h with ⟨-, h⟩ | ⟨-, rfl⟩
  swap
  · exact ⟨.of_eq k1.wr k1.out, fun _ => k1.out⟩
  obtain ⟨v, hv, h⟩ := unlessOver_eq_next h
  have k2 := encConsume_stores hv
  have o2 : v.out = s.out := k2.out.trans k1.out
  have w2 : v.wr = s.wr := k2.wr.trans k1.wr
  rcases h with ⟨-, h⟩ | ⟨-, rfl⟩
  swap
  · exact ⟨.of_eq w2 o2, fun _ => o2⟩
  obtain ⟨w, hw, h⟩ := unlessOver_eq_next h
  have k3 := encCheck_stores hw
  have o3 : w.out = s.out := k3.out.trans o2
  have w3 : w.wr = s.wr := k3.wr.trans w2
  have c3 : w.ctrlAddr = s.ctrlAddr := k3.ctrlAddr.trans (k2.ctrlAddr.trans k1.ctrlAddr)
  rcases h with ⟨-, h⟩ | ⟨-, rfl⟩
  swap
  · exact ⟨.of_eq w3 o3, fun _ => o3⟩
  obtain ⟨x, hx, h⟩ := unlessOver_eq_next h
  obtain ⟨e1, e2⟩ := encEmit_stores hx
  have s4 : Within s.ctrlAddr s x := (Within.of_eq w3 o3).trans (by rw [← c3]; exact e1)
  rcases h with ⟨-, h⟩ | ⟨-, rfl⟩
  swap
  · exact ⟨s4, fun e => by omega⟩
  obtain ⟨y, hy, h⟩ := unlessOver_eq_next h
  have s5 := encGroup_stores s.ctrlAddr hy
  have g5 := s5.cursor
  rcases h with ⟨-, h⟩ | ⟨-, rfl⟩
  swap
  · exact ⟨s4.trans s5, fun e => by omega⟩
  obtain ⟨z, hz, h⟩ := unlessOver_eq_next h
  have s6 := encWindow_stores s.ctrlAddr hz
  have g6 := s6.cursor
  obtain rfl : z = t := by
    rcases h with ⟨-, h⟩ | ⟨-, h⟩
    · cases h; rfl
    · exact h
  exact ⟨(s4.trans s5).trans s6, fun e => by omega⟩

end Sys2Proof.Machine
end

