-- ==== Sys2Proof/Tests/Slice0.lean ====
section
/-! SUPPORT. Tests: ill-formed terms that the checks refuse, words written out from the spec's encodings,
single steps from the spec's worked examples (95_test_vectors), and for every obligation that has
hypotheses a state and operands that meet them, clause by clause. -/

namespace Sys2Proof.Tests

open Sys2Proof Sys2Proof.Machine

/-! ### Helpers -/

/-- The answer is a next state of which `p` holds. -/
def after (o : Result) (p : State → Bool) : Bool :=
  match o with
  | .next t => p t
  | .fault _ => false
  | .refused _ => false

/-- After `k` more steps the operation has ended in a state of which `p` holds. -/
def ends (o : Result) (k : Nat) (p : State → Bool) : Bool :=
  after o fun s => after (Sys2Proof.core.run k s) fun t => !t.busy && t.done && p t

theorem exists_next {o : Result} {p : State → Bool} (h : after o p = true) :
    ∃ t, o = .next t ∧ p t = true := by
  cases o with
  | next t => exact ⟨t, rfl, h⟩
  | fault e => cases h
  | refused r => cases h

theorem exists_end {o : Result} {k : Nat} {p : State → Bool} (h : ends o k p = true) :
    ∃ t, endsIn o k t ∧ p t = true := by
  obtain ⟨s, hs, h⟩ := exists_next h
  obtain ⟨t, ht, h⟩ := exists_next h
  simp only [Bool.and_eq_true, Bool.not_eq_true'] at h
  exact ⟨t, ⟨s, hs, ht, h.1.1, h.1.2⟩, h.2⟩

/-- An idle machine with an input and a capacity, as a host leaves it before START. -/
def loadedWith (bytes : List Byte) (cap : Nat) : State :=
  { State.reset with inp := Memory.ofBytes 0 bytes, inLen := bytes.length, outCap := cap }

/-- A DECODE in flight: `rd`, `wr`, `cnt`, the group's control byte, the data so far. -/
def decoding (bytes : List Byte) (cap rd cnt : Nat) (ctrl : Byte) (data : List Byte) : State :=
  { State.reset with
    inp := Memory.ofBytes 0 bytes, n := bytes.length, cap := cap, busy := true, opl := 1, rd := rd,
    cnt := BitVec.ofNat 3 cnt, ctrl := ctrl, wr := data.length, out := Memory.ofBytes 0 data }

/-- An ENCODE in flight at `pos`, with the stream written so far and one control byte at index 0. -/
def encoding (bytes : List Byte) (cap pos cnt : Nat) (stream : List Byte) : State :=
  { State.reset with
    inp := Memory.ofBytes 0 bytes, n := bytes.length, cap := cap, busy := true, pos := pos,
    wEnd := pos - 1, cnt := BitVec.ofNat 3 cnt, wr := stream.length, out := Memory.ofBytes 0 stream }

/-- A machine whose host does one thing next. -/
def hosted (s : State) (a : HostAction) : State := { s with host := [a] }

/-! ### Well-formedness refuses -/

theorem test_illFormed_emptyWindow : (Instr.findPrefix 1 0 2 3).wellFormed = false := by decide
theorem test_illFormed_windowAfterSequence : (Instr.findPrefix 0 3 2 4).wellFormed = false := by decide
theorem test_illFormed_emptySequence : (Instr.findPrefix 0 1 3 2).wellFormed = false := by decide
theorem test_illFormed_shortMatch : (Instr.matchTok 0 0 2).streamWellFormed 3 9 = false := by decide
theorem test_illFormed_offset : (Instr.matchTok 0 3 3).streamWellFormed 3 3 = false := by decide
theorem test_illFormed_noToken : (Instr.ctrl 0).streamWellFormed 3 3 = false := by decide
theorem test_illFormed_tokens : tokensWellFormed 3 0 [.lit 0x61, .matchTok 0x62 1 3] = false := by decide

/-! ### Words written out from 30_encoding R62 to R65, R72 -/

theorem test_word_lit : decodeTableWord 9 0b0_01100001 = some (.lit 0x61) := by decide
theorem test_word_match :
    decodeTableWord 25 0b1_01100001_00000000_0010_0011 = some (.matchTok 0x61 2 3) := by decide
theorem test_word_match_bytes :
    decodeTableWord 32 0b1_00100001_10101011_1100_1101 = some (.matchTok 0x21 0xABC 13) := by decide
theorem test_word_ctrl : decodeTableWord 8 0b10000000 = some (.ctrl 0x80) := by decide
theorem test_word_encode : decodeTableWord 1 0b0 = some .encode := by decide
theorem test_word_decode : decodeTableWord 8 0b00000001 = some .decode := by decide
theorem test_word_findPrefix : decodeTableWord 0 0 = none := by decide
/-- R77: every control byte has its word of 8 bits, each command its word of 1 bit. -/
theorem test_word_widths :
    tableWord 8 0 = some (.control 0) ∧ tableWord 8 1 = some (.control 1) ∧
    tableWord 1 0 = some (.command 0) ∧ tableWord 1 1 = some (.command 1) := by decide
theorem test_word_wrongSelector : decodeTableWord 9 0b1_01100001 = none := by decide

/-- Section 3: offset 0x123, length 4 is b1 = 12, b2 = 34; offset 16, length 3 is 01, 03. -/
theorem test_pack :
    streamEncoding (.matchTok 0x58 0x123 4) = [0x58, 0x12, 0x34] ∧
    streamEncoding (.matchTok 0x58 16 3) = [0x58, 0x01, 0x03] := by decide

/-- A token cut after `b1`. -/
theorem test_decode_cut : decodeToken true [0x61, 0x00] = .error .cutMatch := by rfl

/-- D2 as a listing (R74). -/
theorem test_decodeStream_D2 :
    decodeStream [0x02, 0x61, 0x62, 0x00, 0x0F] = .ok [.ctrl 0x02, .lit 0x61, .matchTok 0x62 0 15] := by
  rfl

/-- Section 3: kinds L L L M M give 0x18, seven L and an M give 0x80. -/
theorem test_groupControl :
    groupControl 0 [.lit 0, .lit 0, .lit 0, .matchTok 0 0 3, .matchTok 0 0 3] = 0x18 ∧
    groupControl 0 ([.lit 0, .lit 0, .lit 0, .lit 0, .lit 0, .lit 0, .lit 0] ++ [.matchTok 0 0 3]) = 0x80 := by
  decide

/-! ### Single steps from 95_test_vectors -/

/-- P1, second half, step 1. -/
theorem test_lit_step :
    after (step (decoding [0x18, 0x61, 0x61, 0x61] 12 1 0 0x18 []))
      (fun t => t.rd == 2 && t.wr == 1 && t.cnt == 1 && t.out.read 0 == some 0x61) = true := by decide

/-- D20 with `cap = 0`. -/
theorem test_lit_full :
    after (exec (.lit 0x61) State.reset)
      (fun t => t.status == .outputBufferExhausted && t.done && t.wr == 0) = true := by decide

/-- P2 step 2: the copy reads bytes it has just written. -/
theorem test_match_overlap :
    after (step (decoding [0x02, 0x61, 0x62, 0x00, 0x0F] 17 2 1 0x02 [0x61]))
      (fun t => t.rd == 5 && t.wr == 17 && t.cnt == 2 && t.out.read 1 == some 0x61 &&
        t.out.read 15 == some 0x61 && t.out.read 16 == some 0x62) = true := by decide

/-- D25: the offset guard comes before the capacity guard. -/
theorem test_match_priority :
    after (step (decoding [0x01, 0x61, 0x00, 0x13] 0 1 0 0x01 []))
      (fun t => t.status == .corruptStream && t.outLen == 0 && t.done && !t.busy) = true := by decide

/-- R104: `rd = 0`, `IN[0] = 0x18`. -/
theorem test_ctrl_load :
    after (frLoad (decoding [0x18, 0x61] 9 0 0 0 [])) (fun t => t.ctrl == 0x18 && t.rd == 1) = true := by
  decide

/-- D10: after the 8th literal the trailing control byte FF is consumed. -/
theorem test_ctrl_trailing :
    after (step (decoding [0x00, 0x61, 0x62, 0x63, 0x64, 0x65, 0x66, 0x67, 0x68, 0xFF] 9 8 7 0
      [0x61, 0x62, 0x63, 0x64, 0x65, 0x66, 0x67]))
      (fun t => t.ctrl == 0xFF && t.rd == 10 && t.wr == 8 && t.cnt == 0) = true := by decide

/-- E35 with `cap = 0`: the first control byte does not fit. -/
theorem test_encode_noRoom :
    after (exec .encode (loadedWith [0x61] 0))
      (fun t => t.status == .outputBufferExhausted && t.outLen == 0 && t.done) = true := by decide

/-- P1 step 4: the match at `pos = 3`. -/
theorem test_encode_match :
    after (step (encoding (List.replicate 12 0x61) 16 3 3 [0x00, 0x61, 0x61, 0x61]))
      (fun t => t.pos == 7 && t.wr == 7 && t.cnt == 4 && t.wStart == 0 && t.wEnd == 6 &&
        t.ctrlAcc == 0x08 && t.out.read 0 == some 0x08 && t.out.read 4 == some 0x61 &&
        t.out.read 5 == some 0x00 && t.out.read 6 == some 0x23) = true := by decide

/-- P1, second half: START of the DECODE. -/
theorem test_decode_start :
    after (exec .decode (loadedWith [0x18, 0x61, 0x61] 12))
      (fun t => t.busy && t.opl == 1 && t.ctrl == 0x18 && t.rd == 1 && t.wr == 0) = true := by decide

/-- D12: one control byte only. -/
theorem test_decode_oneByte :
    ends (exec .decode (loadedWith [0xFF] 0)) 1 (fun t => t.status == .ok && t.outLen == 0) = true := by
  decide

/-- MF2, "abcXabcYabcZ": the later of two equal candidates wins. -/
theorem test_findPrefix_later :
    after (exec (.findPrefix 0 7 8 10) (decoding
      [0x61, 0x62, 0x63, 0x58, 0x61, 0x62, 0x63, 0x59, 0x61, 0x62, 0x63, 0x5A] 0 0 0 0 []))
      (fun t => t.matchPosition == 4 && t.matchLength == 3) = true := by decide

/-- MF4, "abXYabZW": a run of 2 is reported as 0, and tracked. -/
theorem test_findPrefix_short :
    after (exec (.findPrefix 0 3 4 7) (decoding
      [0x61, 0x62, 0x58, 0x59, 0x61, 0x62, 0x5A, 0x57] 0 0 0 0 []))
      (fun t => t.bestPos == 0 && t.bestLen == 2 && t.matchLength == 0) = true := by decide

/-- R130's first run with `WINDOW_SIZE = 8`: `mp = 7`, `w_end = 8`, the window becomes [6, 8]. -/
theorem test_inheritedWindow :
    after (encWindow true { State.reset with
      cfg := { windowSize := 8, windowPolicy := .inherited }, pos := 9, mp := 7 })
      (fun t => t.wStart == 6 && t.wEnd == 8) = true := by decide

/-- Every row's word, placed, is run by the next step. -/
theorem test_withFetchWord :
    after (step (State.reset.withFetchWord 9 0x061)) (fun t => t.status == .outputBufferExhausted) = true ∧
    after (step (State.reset.withFetchWord 25 0x1610023)) (fun t => t.status == .corruptStream) = true ∧
    after (step (State.reset.withFetchWord 8 0x18)) (fun t => t.ctrl == 0x18 && t.rd == 1) = true ∧
    after (step (State.reset.withFetchWord 1 0)) (fun t => t.busy && t.opl == 0) = true ∧
    after (step (State.reset.withFetchWord 1 1)) (fun t => t.busy && t.opl == 1) = true := by decide

/-! ### Every hypothesis is met: encodings -/

theorem ready_loadedWith (bytes : List Byte) (cap : Nat) : Ready (loadedWith bytes cap) := ⟨rfl, rfl, rfl, rfl⟩

theorem witness_MatchFieldsPackAndUnpack : (0 < 4096 ∧ 4096 - 0 - 1 < 4096) ∧ (0 < 1 ∧ 1 - 0 - 1 < 4096) := by
  decide

theorem witness_DecodeOfEncodeIsTheInstruction :
    (Instr.matchTok 0xFF 4095 15).wellFormed = true ∧
    encode (.matchTok 0xFF 4095 15) = some (.token true [0xFF, 0xFF, 0xFF]) ∧
    decode (.token true [0xFF, 0xFF, 0xFF]) = .ok (.matchTok 0xFF 4095 15) := ⟨by decide, by decide, rfl⟩

theorem witness_TokenBytesFollowTheControlBit :
    decodeToken (controlBit 0x80 7) [0x61, 0xFF, 0xF3, 0x00] = .ok (.matchTok 0x61 4095 3, [0x00]) ∧
    decodeToken (controlBit 0x7F 7) [0x61] = .ok (.lit 0x61, []) := ⟨rfl, rfl⟩

theorem witness_AssembledStreamDecodesToItself :
    ∀ t ∈ List.replicate 7 (.lit 0) ++ [.matchTok 0 0 3], Instr.isToken t = true := by decide

theorem witness_AssembledStreamSize :
    (∀ t ∈ List.replicate 8 (Instr.lit 0), t.isToken = true) ∧ List.replicate 8 (Instr.lit 0) ≠ [] := by
  decide

/-- A last group of one token after a full group, and the trailing control byte of no token: two ready machines
whose streams differ in the unused bits, and their DECODEs' ends. -/
theorem witness_UnusedControlBitsAreIgnored :
    (∃ full last : List Instr, full.length % 8 = 0 ∧ (∀ t ∈ full, t.isToken = true) ∧ last.length ≤ 8 ∧
      (∀ t ∈ last, t.isToken = true) ∧ last ≠ [] ∧ full ≠ [] ∧
      (∀ j (h : j < last.length), (0xFF : Byte).getLsbD j = last[j].kind ∧ (0x01 : Byte).getLsbD j = last[j].kind)) ∧
    ∃ s s' t t' : State, marks 0x02 [.lit 0x61] ∧ marks 0x00 [.lit 0x61] ∧ Ready s ∧ Ready s' ∧ s.host = [] ∧
      s'.host = [] ∧ s.cfg = s'.cfg ∧ s.outCap = s'.outCap ∧
      inputBytes s s.inLen = streamEndingIn [] 0x02 [.lit 0x61] ∧
      inputBytes s' s'.inLen = streamEndingIn [] 0x00 [.lit 0x61] ∧
      endsIn (exec .decode s) 2 t ∧ endsIn (exec .decode s') 2 t' := by
  obtain ⟨t, h1, _⟩ := exists_end (o := exec .decode (loadedWith [0x02, 0x61] 1)) (k := 2) (p := fun _ => true)
    (by decide)
  obtain ⟨t', h2, _⟩ := exists_end (o := exec .decode (loadedWith [0x00, 0x61] 1)) (k := 2) (p := fun _ => true)
    (by decide)
  exact ⟨⟨List.replicate 8 (.lit 0), [.matchTok 0 0 3], by decide⟩, loadedWith [0x02, 0x61] 1,
    loadedWith [0x00, 0x61] 1, t, t', by unfold marks; decide, by unfold marks; decide, ready_loadedWith _ _,
    ready_loadedWith _ _, rfl, rfl, rfl, rfl, by decide, by decide, h1, h2⟩

/-! ### Every hypothesis is met: tokens -/

theorem witness_LitAppendsItsByte : (∃ s : State, s.wr + 1 = s.cap) ∧ (∃ s : State, s.cap + 1 = s.wr + 1) :=
  ⟨⟨{ State.reset with cap := 1 }, rfl⟩, ⟨State.reset, rfl⟩⟩

theorem witness_MatchCopiesThenAppends :
    ∃ s : State, (0 : Offset).toNat + 1 = s.wr ∧ tooShort s.cfg 15 = false ∧
      s.wr + (15 : Length).toNat + 1 = s.cap :=
  ⟨decoding [] 17 0 0 0 [0x61], by decide, by decide, by decide⟩

theorem witness_MatchGuardsInOrder :
    (∃ s : State, s.wr < (0 : Offset).toNat + 1) ∧
    (∃ s : State, (0 : Offset).toNat + 1 ≤ s.wr ∧ s.cfg.strictLength = true ∧ (2 : Length).toNat < s.cfg.minMatch) ∧
    (∃ s : State, (0 : Offset).toNat + 1 ≤ s.wr ∧
      (s.cfg.strictLength = false ∨ s.cfg.minMatch ≤ (3 : Length).toNat) ∧
      s.cap < s.wr + (3 : Length).toNat + 1) :=
  ⟨⟨State.reset, by decide⟩,
   ⟨{ State.reset with wr := 1, cfg := { strictLength := true } }, by decide⟩,
   ⟨{ State.reset with wr := 1, cap := 4 }, by decide⟩⟩

theorem witness_CutMatchTokenIsCorrupt :
    ∃ s : State, s.host = [] ∧ s.busy = true ∧ s.opl = 1 ∧ s.rd < s.n ∧
      controlBit s.ctrl s.cnt = true ∧ s.n < s.rd + 3 :=
  ⟨decoding [0x01, 0x61, 0x00] 0 1 0 0x01 [], by decide⟩

theorem witness_LoadRunsTheControlByte : ∃ s : State, s.rd < s.n :=
  ⟨decoding [0x18] 0 0 0 0 [], by decide⟩

/-! ### Every hypothesis is met: commands -/

theorem witness_EncodeStartsAnOperation :
    (∃ s : State, Ready s ∧ s.inLen = 0) ∧ (∃ s : State, Ready s ∧ 0 < s.inLen ∧ 0 < s.outCap) ∧
    (∃ s : State, Ready s ∧ 0 < s.inLen ∧ s.outCap = 0) :=
  ⟨⟨_, ready_loadedWith [] 0, rfl⟩, ⟨_, ready_loadedWith [0x61] 1, by decide⟩,
   ⟨_, ready_loadedWith [0x61] 0, by decide⟩⟩

theorem witness_DecodeStartsAnOperation :
    (∃ s : State, Ready s ∧ s.inLen = 0) ∧ (∃ s : State, Ready s ∧ 0 < s.inLen) :=
  ⟨⟨_, ready_loadedWith [] 0, rfl⟩, ⟨_, ready_loadedWith [0xFF] 0, by decide⟩⟩

theorem witness_StartWhileBusyIsIgnored :
    ∃ s : State, s.busy = true ∧ s.host = .write .start 1 :: [] :=
  ⟨hosted (decoding [] 0 0 0 0 []) (.write .start 1), by decide⟩

/-- With `AW = 5` the largest length is 15: 16 is above, for either register; bases that share byte 14 at lengths
15 and 1, and bases that touch without sharing. -/
theorem witness_StartOutsidePremisesIsRefused :
    (∃ s : State, s.busy = false ∧ s.cfg.aw = some 5 ∧ 2 ^ 5 + 1 = s.inLen + 17) ∧
    (∃ s : State, s.busy = false ∧ s.cfg.aw = some 5 ∧ 2 ^ 5 + 1 = s.outCap + 17) ∧
    (∃ s : State, s.busy = false ∧ s.cfg.aw = some 5 ∧ s.inLen + 17 = 2 ^ 5 ∧ s.outCap + 17 ≤ 2 ^ 5 ∧
      s.cfg.inBase = some 0 ∧ s.cfg.outBase = some 14 ∧ 0 ≤ 14 ∧ 14 < 0 + s.inLen ∧ 14 ≤ 14 ∧ 14 < 14 + s.outCap) ∧
    (∃ s : State, s.busy = false ∧ s.cfg.aw = some 5 ∧ s.inLen + 17 = 2 ^ 5 ∧ s.outCap + 17 ≤ 2 ^ 5 ∧
      s.cfg.inBase = some 0 ∧ s.cfg.outBase = some 15 ∧
      ¬ ∃ a, 0 ≤ a ∧ a < 0 + s.inLen ∧ 15 ≤ a ∧ a < 15 + s.outCap) :=
  ⟨⟨{ State.reset with cfg := { aw := some 5 }, inLen := 16 }, by decide⟩,
   ⟨{ State.reset with cfg := { aw := some 5 }, outCap := 16 }, by decide⟩,
   ⟨{ State.reset with cfg := { aw := some 5, inBase := some 0, outBase := some 14 }, inLen := 15, outCap := 1 },
    by decide⟩,
   ⟨{ State.reset with cfg := { aw := some 5, inBase := some 0, outBase := some 15 }, inLen := 15, outCap := 1 },
    rfl, rfl, rfl, by decide, rfl, rfl, fun ⟨a, _, h, h', _⟩ => absurd (show a < 0 + 15 from h) (by omega)⟩⟩

/-! ### Every hypothesis is met: the Match Finder -/

theorem valid_hardware : Config.hardware.valid := by decide

theorem isRun_zero {s : State} {we ss se p : Nat} (h : we < p) : IsRun s we ss se p 0 :=
  ⟨Nat.zero_le _, .inl rfl, .inl rfl, fun _ h => absurd h (Nat.not_lt_zero _), .inr (.inl h)⟩

/-- One byte matched with itself: the clause on other runs and the clause on a reported match. -/
theorem witness_FindPrefixFindsLongestLatestRun :
    ∃ s t : State, s.cfg.valid ∧ 0 ≤ 0 ∧ 0 < s.n ∧ s.n = 1 ∧ IsRun s 0 0 0 0 1 ∧
      exec (.findPrefix 0 0 0 0) s = .next t ∧ 0 < t.matchLength.toNat := by
  obtain ⟨t, h, hp⟩ := exists_next (o := exec (.findPrefix 0 0 0 0)
    { decoding [0x61] 0 0 0 0 [] with cfg := { minMatch := 1 } })
    (p := fun t => decide (0 < t.matchLength.toNat)) (by decide)
  refine ⟨_, t, by decide, by decide, by decide, by decide, ?_, h, of_decide_eq_true hp⟩
  exact ⟨by decide, .inr (by decide), .inr (by decide), fun j hj => by
    obtain rfl : j = 0 := by omega
    rfl, .inr (.inl (by decide))⟩

theorem witness_FindPrefixOutsideItsContract :
    ∃ s : State, s.cfg.valid ∧ (0 < 1 ∧ 0 ≤ 0 ∧ 3 < 4) := ⟨State.reset, valid_hardware, by decide⟩

theorem witness_FindPrefixIsPure :
    ∃ s s' t t' : State, s ≠ s' ∧ s.cfg = s'.cfg ∧ s.n = s'.n ∧ (∀ a, a < s.n → s.inByte a = s'.inByte a) ∧
      exec (.findPrefix 0 0 1 1) s = .next t ∧ exec (.findPrefix 0 0 1 1) s' = .next t' := by
  obtain ⟨t, h, _⟩ := exists_next (o := exec (.findPrefix 0 0 1 1) (decoding [0x61, 0x61] 0 0 0 0 []))
    (p := fun _ => true) (by decide)
  obtain ⟨t', h', _⟩ := exists_next (o := exec (.findPrefix 0 0 1 1) (decoding [0x61, 0x61] 9 0 0 0 []))
    (p := fun _ => true) (by decide)
  exact ⟨decoding [0x61, 0x61] 0 0 0 0 [], decoding [0x61, 0x61] 9 0 0 0 [], t, t',
    fun e => absurd (congrArg State.cap e) (by decide), rfl, rfl, fun _ _ => rfl, h, h'⟩

theorem witness_FindPrefixEqualsListSearch :
    ∃ s : State, s.cfg.valid ∧ 0 < s.n ∧ s.n = 1 := ⟨decoding [0x61] 0 0 0 0 [], by decide⟩

/-! ### Every hypothesis is met: a step runs the instruction -/

theorem witness_StepRunsTheFetchedToken :
    (∃ (s : State) (i : Instr) (rest : List Byte), s.host = [] ∧ s.busy = true ∧ s.opl = 1 ∧ s.rd < s.n ∧
      decodeToken (controlBit s.ctrl s.cnt) ((inputBytes s s.n).drop s.rd) = .ok (i, rest) ∧ i.kind = false) ∧
    (∃ (s : State) (i : Instr) (rest : List Byte), s.host = [] ∧ s.busy = true ∧ s.opl = 1 ∧ s.rd < s.n ∧
      decodeToken (controlBit s.ctrl s.cnt) ((inputBytes s s.n).drop s.rd) = .ok (i, rest) ∧ i.kind = true) :=
  ⟨⟨decoding [0x00, 0x61] 9 1 0 0 [], .lit 0x61, [], rfl, rfl, rfl, by decide, rfl, rfl⟩,
   ⟨decoding [0x80, 0x61, 0x00, 0x23] 9 1 7 0x80 [], .matchTok 0x61 2 3, [], rfl, rfl, rfl, by decide, rfl, rfl⟩⟩

/-- Either command; no access, by an empty queue and by `run` before a later access. -/
theorem witness_StepRunsTheHostCommand :
    (∃ s : State, s.host = .write .start 1 :: [] ∧ s.op = 0) ∧
    (∃ s : State, s.host = .write .start 1 :: [] ∧ s.op = 1) ∧
    (∃ s : State, s.host = [] ∧ s.busy = true) ∧
    (∃ s t : State, s.host = .run :: [.read .done] ∧ step { s with host := [] } = .next t ∧ t.wr = 1) := by
  obtain ⟨t, h, hp⟩ := exists_next (o := step (decoding [0x00, 0x61] 1 1 0 0 [])) (p := fun t => decide (t.wr = 1))
    (by decide)
  exact ⟨⟨hosted State.reset (.write .start 1), rfl, rfl⟩,
    ⟨hosted { State.reset with op := 1 } (.write .start 1), rfl, rfl⟩, ⟨decoding [0x00, 0x61] 1 1 0 0 [], rfl, rfl⟩,
    ⟨{ decoding [0x00, 0x61] 1 1 0 0 [] with host := [.run, .read .done] }, t, rfl, h, of_decide_eq_true hp⟩⟩

theorem witness_SearchRunsFindPrefix :
    (∃ s t : State, s.pos + 1 < s.n ∧ exec (.findPrefix s.wStart s.wEnd s.pos (s.n - 2)) s = .next t) ∧
    (∃ s : State, s.n = s.pos + 1) := by
  refine ⟨?_, ⟨encoding [0x61] 9 0 0 [0x00], by decide⟩⟩
  obtain ⟨t, h, _⟩ := exists_next (o := exec (.findPrefix 0 0 0 0) (encoding [0x61, 0x61] 9 0 0 [0x00]))
    (p := fun _ => true) (by decide)
  exact ⟨encoding [0x61, 0x61] 9 0 0 [0x00], t, by decide, h⟩

/-! ### Every hypothesis is met: the Framer and the Encoder -/

theorem witness_FrOpenReservesAZeroByte :
    (∃ s : State, s.cap < s.wr + 1) ∧ (∃ s : State, s.wr + 1 = s.cap) :=
  ⟨⟨State.reset, by decide⟩, ⟨{ State.reset with cap := 1 }, rfl⟩⟩

theorem witness_FrMarkSetsTheTokensBit : ∃ s : State, s.ctrlAddr + 1 = s.cap :=
  ⟨{ State.reset with cap := 1 }, rfl⟩

theorem witness_FrPutAppendsTheEncoding :
    (∃ s : State, s.wr + tokenNeed true = s.cap) ∧ (∃ s : State, s.wr + tokenNeed false = s.cap) :=
  ⟨⟨{ State.reset with cap := 3 }, rfl⟩, ⟨{ State.reset with cap := 1 }, rfl⟩⟩

theorem witness_FrNextEncOpensAfterTheEighth :
    (∃ s : State, s.cnt.toNat + 1 = 7) ∧ (∃ s : State, s.cnt.toNat = 7) :=
  ⟨⟨{ State.reset with cnt := 6 }, rfl⟩, ⟨{ State.reset with cnt := 7 }, rfl⟩⟩

theorem witness_FrNextDecLoadsAfterTheEighth :
    (∃ s : State, s.cnt.toNat + 1 = 7) ∧ (∃ s : State, s.cnt.toNat = 7 ∧ s.rd + 1 = s.n) ∧
    (∃ s : State, s.cnt.toNat = 7 ∧ s.n = s.rd) :=
  ⟨⟨{ State.reset with cnt := 6 }, rfl⟩, ⟨{ State.reset with cnt := 7, n := 1 }, rfl, rfl⟩,
   ⟨{ State.reset with cnt := 7 }, rfl, rfl⟩⟩

theorem witness_EncCheckUsesTheRealSize :
    (∃ s : State, s.isMatch = true ∧ s.wr + (if s.isMatch then 3 else 1) = s.cap) ∧
    (∃ s : State, s.cap + 1 = s.wr + (if s.isMatch then 3 else 1)) :=
  ⟨⟨{ State.reset with isMatch := true, cap := 3 }, rfl, rfl⟩, ⟨State.reset, rfl⟩⟩

theorem inv_idle {s : State} (h1 : s.cfg = Config.hardware) (h2 : s.inp.wf = true) (h3 : s.out.wf = true)
    (h4 : s.status = .ok) (h5 : s.busy = false) : Inv s where
  params := by rw [h1]; decide
  realRun := by rw [h1]; decide
  policy := by rw [h1]; rfl
  inWf := h2
  outWf := h3
  reserved := by rw [h4]; decide
  noResult := fun h => absurd h4 h
  notBoth := by rw [h5]; intro h; cases h
  encoding := by rw [h5]; intro h; cases h
  decoding := by rw [h5]; intro h; cases h

theorem inv_loadedWith (bytes : List Byte) (cap : Nat) : Inv (loadedWith bytes cap) :=
  inv_idle rfl (Memory.wf_ofBytes _ _) rfl rfl rfl

theorem inv_encoding {bytes stream : List Byte} {cap pos cnt : Nat} (h1 : pos ≤ bytes.length)
    (h2 : pos ≤ 4096) (h3 : 0 < stream.length) (h4 : stream.length ≤ cap) :
    Inv (encoding bytes cap pos cnt stream) where
  params := valid_hardware
  realRun := show 2 ≤ 3 by decide
  policy := rfl
  inWf := Memory.wf_ofBytes _ _
  outWf := Memory.wf_ofBytes _ _
  reserved := show Status.ok ≠ .invalidInput by decide
  noResult := fun h => absurd rfl h
  notBoth := fun _ => rfl
  encoding := fun _ _ =>
    ⟨h1, fun h => ⟨rfl, by subst h; rfl⟩, fun _ => ⟨rfl, (Nat.sub_eq_zero_of_le h2).symm⟩, h4, fun _ => h3,
     fun _ j _ => by simp [encoding, State.reset]⟩
  decoding := fun _ h => absurd h (show ¬ (0 : OpCode) = 1 by decide)

theorem inv_decoding {bytes data : List Byte} {cap rd cnt : Nat} {ctrl : Byte} (h1 : rd ≤ bytes.length)
    (h2 : data.length ≤ cap) : Inv (decoding bytes cap rd cnt ctrl data) where
  params := valid_hardware
  realRun := show 2 ≤ 3 by decide
  policy := rfl
  inWf := Memory.wf_ofBytes _ _
  outWf := Memory.wf_ofBytes _ _
  reserved := show Status.ok ≠ .invalidInput by decide
  noResult := fun h => absurd rfl h
  notBoth := fun _ => rfl
  encoding := fun _ h => absurd h (show ¬ (1 : OpCode) = 0 by decide)
  decoding := fun _ _ => ⟨h1, h2⟩

/-- A state in which an encoder iteration can be taken, and whose iteration answers a state of which `p` holds. -/
def iterates (p : State → State → Prop) : Prop :=
  ∃ s t : State, Inv s ∧ s.host = [] ∧ s.busy = true ∧ s.opl = 0 ∧ s.pos < s.n ∧ step s = .next t ∧ p s t

theorem iterates_literal {cap cnt : Nat} {p : State → State → Prop} (hc : 1 ≤ cap)
    (hd : ∀ s t, s.wr = 1 → s.cap = cap → s.cnt = BitVec.ofNat 3 cnt → t.isMatch = false → p s t)
    (h : after (step (encoding [0x61] cap 0 cnt [0x00])) (fun t => t.isMatch == false) = true) : iterates p := by
  obtain ⟨t, ht, hm⟩ := exists_next h
  exact ⟨encoding [0x61] cap 0 cnt [0x00], t, inv_encoding (by decide) (by decide) (by decide) hc, rfl, rfl, rfl, show 0 < 1 by decide, ht,
    hd _ t rfl rfl rfl (by simpa using hm)⟩

/-- A literal that fits exactly inside a group, and one with no room at all; the 8th token with room for its
control byte, with room for itself only, and with none. -/
theorem witness_EncoderIterationAdvances :
    iterates (fun s t => s.cnt.toNat + 1 = 7 ∧ s.wr + tokenNeed t.isMatch = s.cap) ∧
    iterates (fun s t => s.cnt.toNat + 1 = 7 ∧ s.cap + 1 = s.wr + tokenNeed t.isMatch) ∧
    iterates (fun s t => s.cnt.toNat = 7 ∧ s.wr + tokenNeed t.isMatch + 1 = s.cap) ∧
    iterates (fun s t => s.cnt.toNat = 7 ∧ s.wr + tokenNeed t.isMatch = s.cap) ∧
    iterates (fun s t => s.cnt.toNat = 7 ∧ s.cap + 1 = s.wr + tokenNeed t.isMatch) := by
  refine ⟨iterates_literal (cap := 2) (cnt := 6) (by decide) ?_ (by decide),
    iterates_literal (cap := 1) (cnt := 6) (by decide) ?_ (by decide),
    iterates_literal (cap := 3) (cnt := 7) (by decide) ?_ (by decide),
    iterates_literal (cap := 2) (cnt := 7) (by decide) ?_ (by decide),
    iterates_literal (cap := 1) (cnt := 7) (by decide) ?_ (by decide)⟩ <;>
  · intro s t h1 h2 h3 h4
    rw [h1, h2, h3, h4]
    decide

/-- Beside those: a match token that fits exactly, inside its group, and one that does not (P1 step 4). -/
theorem witness_EncoderIterationWritesItsToken :
    iterates (fun s t => t.isMatch = true ∧ s.cnt.toNat < 7 ∧ s.wr + tokenNeed t.isMatch = s.cap) ∧
    iterates (fun s t => t.isMatch = true ∧ s.cap + 1 = s.wr + tokenNeed t.isMatch ∧ t.out.read 4 = none) := by
  obtain ⟨t, ht, hm⟩ := exists_next (o := step (encoding (List.replicate 12 0x61) 7 3 3 [0x00, 0x61, 0x61, 0x61]))
    (p := fun t => t.isMatch) (by decide)
  obtain ⟨u, hu, hp⟩ := exists_next (o := step (encoding (List.replicate 12 0x61) 6 3 3 [0x00, 0x61, 0x61, 0x61]))
    (p := fun t => t.isMatch && decide (t.out.read 4 = none)) (by decide)
  simp only [Bool.and_eq_true, decide_eq_true_eq] at hp
  exact ⟨⟨_, t, inv_encoding (by decide) (by decide) (by decide) (by decide), rfl, rfl, rfl, by decide, ht, hm,
      by decide, by rw [hm]; decide⟩,
    ⟨_, u, inv_encoding (by decide) (by decide) (by decide) (by decide), rfl, rfl, rfl, by decide, hu, hp.1,
      by rw [hp.1]; decide, hp.2⟩⟩

/-- E11 at `q = 3`. -/
theorem witness_MatchTokensStayInTheWindow :
    ∃ s t : State, Inv s ∧ s.host = [] ∧ s.busy = true ∧ s.opl = 0 ∧ s.pos < s.n ∧ step s = .next t ∧
      t.isMatch = true := by
  obtain ⟨t, h, hp⟩ := exists_next (o := step (encoding [0x61, 0x62, 0x63, 0x61, 0x62, 0x63, 0x64] 9 3 3
    [0x00, 0x61, 0x62, 0x63])) (p := fun t => t.isMatch) (by decide)
  exact ⟨_, t, inv_encoding (by decide) (by decide) (by decide) (by decide), rfl, rfl, rfl, by decide, h, hp⟩

/-- A window [0, 8] of nine bytes, one above `WINDOW_SIZE = 8`, under the inherited policy. -/
def inheritedAt (mp : Nat) : State :=
  { State.reset with cfg := { windowSize := 8, windowPolicy := .inherited }, pos := 9, mp := mp }

/-- The start that the formula of R130 gives for it. -/
def inheritedStart (s : State) : Int :=
  s.wStart + (s.cfg.windowSize - ((s.pos - 1 : Nat) - s.mp + 1))

/-- A window of exactly 8 bytes; one that starts before 0; one that starts after its end; one of 9 bytes. -/
theorem witness_InheritedWindowFormula :
    (∀ mp, (inheritedAt mp).cfg.windowPolicy = .inherited ∧
      (inheritedAt mp).cfg.windowSize < (inheritedAt mp).pos - 1 + 1 - (inheritedAt mp).wStart) ∧
    inheritedStart (inheritedAt 2) = 1 ∧ inheritedStart (inheritedAt 0) = -1 ∧
    inheritedStart (inheritedAt 10) = 9 ∧ inheritedStart (inheritedAt 1) = 0 ∧
    (∃ s : State, s.cfg.windowPolicy = .inherited ∧ s.pos - 1 + 1 - s.wStart = s.cfg.windowSize) :=
  ⟨fun _ => ⟨rfl, show 8 < 9 - 1 + 1 - 0 by decide⟩, by decide, by decide, by decide, by decide,
   ⟨{ inheritedAt 0 with pos := 8 }, rfl, rfl⟩⟩

theorem witness_ChosenTokensAreWellFormed :
    Config.hardware.valid ∧ 2 ≤ Config.hardware.minMatch ∧
    ({ windowSize := 1, minMatch := 2, maxSeqSize := 2 } : Config).valid := by decide

/-! ### Every hypothesis is met: ends of an operation, the whole machine -/

theorem witness_FinishReportsTheBytesWritten :
    (∃ s : State, s.host = [] ∧ s.busy = true ∧ s.opl = 0 ∧ s.n = s.pos) ∧
    (∃ s : State, s.host = [] ∧ s.busy = true ∧ s.opl = 1 ∧ s.n = s.rd) :=
  ⟨⟨encoding [0x61] 2 1 1 [0x00, 0x61], by decide⟩, ⟨decoding [0x00, 0x61] 1 2 1 0 [0x61], by decide⟩⟩

/-- A step that goes on, one that ends in CorruptStream. -/
theorem witness_OperationsEndInThreeWays :
    (∃ s t : State, s.host = [] ∧ s.busy = true ∧ step s = .next t ∧ t.busy = true) ∧
    (∃ s t : State, s.host = [] ∧ s.busy = true ∧ step s = .next t ∧ t.status = .corruptStream) := by
  obtain ⟨t, h, hp⟩ := exists_next (o := step (encoding [0x61] 2 0 0 [0x00])) (p := fun t => t.busy) (by decide)
  obtain ⟨u, hu, hq⟩ := exists_next (o := step (decoding [0x01, 0x61] 0 1 0 0x01 []))
    (p := fun t => decide (t.status = .corruptStream)) (by decide)
  exact ⟨⟨_, t, rfl, rfl, h, hp⟩, ⟨_, u, rfl, rfl, hu, of_decide_eq_true hq⟩⟩

/-- The sequencer's step and a host's. -/
theorem witness_StepKeepsTheInvariant :
    (∃ s t : State, Inv s ∧ s.host = [] ∧ s.busy = true ∧ step s = .next t) ∧
    (∃ s t : State, Inv s ∧ s.host ≠ [] ∧ step s = .next t) := by
  obtain ⟨t, h, _⟩ := exists_next (o := step (encoding [0x61] 2 0 0 [0x00])) (p := fun _ => true) (by decide)
  obtain ⟨u, hu, _⟩ := exists_next (o := step (hosted (loadedWith [0x61] 2) (.write .start 1)))
    (p := fun _ => true) (by decide)
  exact ⟨⟨_, t, inv_encoding (by decide) (by decide) (by decide) (by decide), rfl, rfl, h⟩,
    ⟨_, u, inv_idle rfl (Memory.wf_ofBytes _ _) rfl rfl rfl, by decide, hu⟩⟩

theorem witness_NoAccessOutsideTheBuffers : ∃ s : State, Inv s ∧ s.busy = true ∧ s.opl = 1 ∧ s.rd < s.n :=
  ⟨decoding [0x01, 0x61] 0 1 0 0x01 [], inv_decoding (by decide) (by decide), by decide⟩

theorem witness_SequencerNeverStops : ∃ s : State, Inv s ∧ s.host = [] ∧ s.busy = true :=
  ⟨encoding [0x61] 2 0 0 [0x00], inv_encoding (by decide) (by decide) (by decide) (by decide), rfl, rfl⟩

theorem witness_OperationsTerminate :
    (∃ s : State, Inv s ∧ s.host = [] ∧ s.busy = true ∧ s.opl = 0) ∧
    (∃ s : State, Inv s ∧ s.host = [] ∧ s.busy = true ∧ s.opl = 1) :=
  ⟨⟨encoding [0x61] 2 0 0 [0x00], inv_encoding (by decide) (by decide) (by decide) (by decide), by decide⟩,
   ⟨decoding [0x00, 0x61] 1 1 0 0 [], inv_decoding (by decide) (by decide), by decide⟩⟩

theorem witness_IdleMachineWaits : ∃ s : State, s.host = [] ∧ s.busy = false := ⟨State.reset, by decide⟩

theorem witness_CoreNeverWritesInput : ∃ s t : State, s.host = [] ∧ s.busy = true ∧ step s = .next t := by
  obtain ⟨t, h, _⟩ := exists_next (o := step (decoding [0x00, 0x61] 1 1 0 0 [])) (p := fun _ => true) (by decide)
  exact ⟨_, t, rfl, rfl, h⟩

theorem witness_EncodeNeverReadsOutput :
    ∃ s t : State, s.host = [] ∧ s.busy = true ∧ s.opl = 0 ∧ step s = .next t ∧ t.isMatch = true := by
  obtain ⟨s, t, _, h1, h2, h3, _, h4, h5⟩ := witness_MatchTokensStayInTheWindow
  exact ⟨s, t, h1, h2, h3, h4, h5⟩

theorem witness_StoresStayInTheBuffer :
    (∃ s t : State, s.host = [] ∧ step s = .next t ∧ s.opl = 1 ∧ s.wr < t.wr) ∧
    (∃ s t : State, s.host = [] ∧ step s = .next t ∧ s.opl = 0 ∧ s.wr < t.wr) ∧
    (∃ s t : State, s.host = [] ∧ step s = .next t ∧ s.opl = 0 ∧ t.wr = s.wr ∧ t.busy = false) := by
  obtain ⟨t, h, hp⟩ := exists_next (o := step (decoding [0x00, 0x61] 1 1 0 0 []))
    (p := fun t => decide (0 < t.wr)) (by decide)
  obtain ⟨u, hu, hq⟩ := exists_next (o := step (encoding [0x61] 2 0 0 [0x00])) (p := fun t => decide (1 < t.wr))
    (by decide)
  obtain ⟨v, hv, hr⟩ := exists_next (o := step (encoding [0x61] 1 0 0 [0x00]))
    (p := fun t => decide (t.wr = 1 ∧ t.busy = false)) (by decide)
  exact ⟨⟨_, t, rfl, h, rfl, of_decide_eq_true hp⟩, ⟨_, u, rfl, hu, rfl, of_decide_eq_true hq⟩,
    ⟨_, v, rfl, hv, rfl, of_decide_eq_true hr⟩⟩

theorem witness_ParametersNeverChange : ∃ s t : State, s.host = [.reset] ∧ step s = .next t :=
  ⟨hosted State.reset .reset, _, rfl, rfl⟩

/-! ### Every hypothesis is met: whole operations -/

theorem witness_DecodeRefinesTheReference : ∃ s : State, Ready s ∧ s.host = [] ∧ 0 < s.inLen :=
  ⟨_, ready_loadedWith [0x00, 0x61] 1, rfl, by decide⟩

theorem witness_EncodeRefinesTheReference : ∃ s : State, Inv s ∧ Ready s ∧ s.host = [] ∧ 0 < s.inLen :=
  ⟨_, inv_loadedWith [0x61] 2, ready_loadedWith _ _, rfl, by decide⟩

/-- E4: "a" encodes to 00 61, and that stream decodes with room for one byte. -/
theorem witness_DecodeOfEncodeIsTheInput :
    ∃ (s t u : State) (k : Nat), Inv s ∧ Ready s ∧ s.host = [] ∧ endsIn (exec .encode s) k t ∧ t.status = .ok ∧
      Inv u ∧ Ready u ∧ u.host = [] ∧ u.cfg = s.cfg ∧ u.inLen = t.outLen ∧
      inputBytes u u.inLen = outputBytes t t.outLen ∧ s.inLen = u.outCap := by
  obtain ⟨t, h, hp⟩ := exists_end (o := exec .encode (loadedWith [0x61] 2)) (k := 2)
    (p := fun t => decide (t.status = .ok ∧ (loadedWith [0x00, 0x61] 1).inLen = t.outLen ∧
      inputBytes (loadedWith [0x00, 0x61] 1) 2 = outputBytes t t.outLen)) (by decide)
  obtain ⟨h1, h2, h3⟩ := of_decide_eq_true hp
  exact ⟨_, t, loadedWith [0x00, 0x61] 1, 2, inv_loadedWith _ _, ready_loadedWith _ _, rfl, h, h1, inv_loadedWith _ _,
    ready_loadedWith _ _, rfl, rfl, h2, h3, rfl⟩

theorem witness_SufficientCapacityForEncode :
    ∃ s : State, Inv s ∧ Ready s ∧ s.host = [] ∧ 0 < s.inLen ∧ s.inLen + s.inLen / 8 + 1 = s.outCap :=
  ⟨_, inv_loadedWith [0x61, 0x62, 0x63, 0x64, 0x65, 0x66, 0x67, 0x68] 10, ready_loadedWith _ _, rfl, by decide⟩

/-- D22. -/
theorem witness_DecodeCapacityIsExact :
    referenceDecode Config.hardware 17 [0x02, 0x61, 0x62, 0x00, 0x0F] = (.ok, List.replicate 16 0x61 ++ [0x62]) ∧
    referenceDecode Config.hardware 16 [0x02, 0x61, 0x62, 0x00, 0x0F] = (.outputBufferExhausted, []) := by
  decide

theorem witness_ResultsForgetThePast :
    ∃ s s' t t' u u' : State, s ≠ s' ∧ Inv s ∧ Inv s' ∧ Ready s ∧ Ready s' ∧ s.host = [] ∧ s'.host = [] ∧
      s.cfg = s'.cfg ∧ s.inLen = s'.inLen ∧ s.outCap = s'.outCap ∧
      inputBytes s s.inLen = inputBytes s' s'.inLen ∧
      endsIn (exec .encode s) 2 t ∧ endsIn (exec .encode s') 2 t' ∧
      endsIn (exec .decode s) 1 u ∧ endsIn (exec .decode s') 1 u' := by
  let s := loadedWith [0x61] 2
  let s' := { loadedWith [0x61] 2 with done := true, outLen := 9, wr := 9, cnt := 5, pos := 7 }
  obtain ⟨t, h1, _⟩ := exists_end (o := exec .encode s) (k := 2) (p := fun _ => true) (by decide)
  obtain ⟨t', h2, _⟩ := exists_end (o := exec .encode s') (k := 2) (p := fun _ => true) (by decide)
  obtain ⟨u, h3, _⟩ := exists_end (o := exec .decode s) (k := 1) (p := fun _ => true) (by decide)
  obtain ⟨u', h4, _⟩ := exists_end (o := exec .decode s') (k := 1) (p := fun _ => true) (by decide)
  exact ⟨s, s', t, t', u, u', fun e => absurd (congrArg State.wr e) (by decide), inv_loadedWith _ _,
    inv_idle rfl (Memory.wf_ofBytes _ _) rfl rfl rfl, ready_loadedWith _ _, ⟨rfl, rfl, rfl, rfl⟩, rfl, rfl, rfl,
    rfl, rfl, rfl, h1, h2, h3, h4⟩

/-! ### Every hypothesis is met: reset and host -/

theorem witness_ResetLeavesTheBlockIdle : ∃ s : State, s.host = [.reset] ∧ s.busy = true :=
  ⟨hosted (decoding [0x00, 0x61] 1 1 0 0 []) .reset, rfl, rfl⟩

theorem witness_HostKeepsOutOfTheOperation :
    ∀ a ∈ [HostAction.write .op 1, .write .inLen 0, .write .outCap 0, .writeIn 0 0, .writeOut 0 0, .readOut 0,
        .provideIn [0], .provideOut, .write .start 1, .write .start 0, .read .busy, .read .done, .read .op, .read .inLen,
        .read .outCap, .read .start, .read .outLen, .read .status, .readIn 0, .write .busy 0, .write .done 1,
        .write .status 3, .write .outLen 0, .write .op 2, .write .start 2],
      (∃ s : State, s.host = [a] ∧ s.busy = true ∧ s.status ≠ .invalidInput) ∧
      ∃ s : State, s.host = [a] ∧ s.busy = true ∧ s.status = .invalidInput :=
  fun a _ => ⟨⟨hosted (decoding [0x00, 0x61] 1 1 0 0 []) a, rfl, rfl, show Status.ok ≠ .invalidInput by decide⟩,
    ⟨hosted { decoding [0x00, 0x61] 1 1 0 0 [] with status := .invalidInput } a, rfl, rfl, rfl⟩⟩

theorem witness_HostWritesAndReads :
    (∀ a : HostAction, ∃ s : State, s.host = [a] ∧ s.busy = false ∧ s.status ≠ .invalidInput) ∧
    (1 < 2) ∧ (∃ s : State, s.host = [.readOut 0] ∧ s.busy = false ∧ 0 + 1 = s.outLen) ∧
    (∃ s : State, s.host = [.readOut 0] ∧ s.busy = false ∧ s.outLen = 0) ∧
    (∃ s : State, s.host = [.read .status] ∧ s.busy = false ∧ s.status = .invalidInput) :=
  ⟨fun a => ⟨hosted State.reset a, rfl, rfl, show Status.ok ≠ .invalidInput by decide⟩, by decide,
   ⟨hosted { State.reset with outLen := 1 } (.readOut 0), rfl, rfl, rfl⟩,
   ⟨hosted State.reset (.readOut 0), rfl, rfl, rfl⟩,
   ⟨hosted { State.reset with status := .invalidInput } (.read .status), rfl, rfl, rfl⟩⟩

/-! ### Virtual words and several blocks -/

/-- The largest words of the token formats, and their neighbours' widths. -/
theorem witness_VirtualWordsNameTheirInstruction :
    virtualWord (.matchTok 0xFF 4095 15) = some (25, 2 ^ 25 - 1) ∧ virtualWord (.lit 0xFF) = some (9, 255) ∧
    tableWord 25 (2 ^ 24) = some (.token true [0, 0, 0]) ∧ tableWord 8 255 = some (.control 0xFF) ∧
    tableWord 1 1 = some (.command 1) := by decide

/-- Two decoders of one IN, each with an OUT of its own. -/
def twoDecoders : Platform :=
  { blocks := [{ core := decoding [0x00, 0x61] 1 1 0 0 [], inAt := 0, outAt := 0 },
               { core := decoding [0x00, 0x61] 1 1 0 0 [], inAt := 0, outAt := 1 }]
    inputs := [{ bytes := Memory.ofBytes 0 [0x00, 0x61], fill := 0 }] }

/-- R53: they run in any order, sharing IN. -/
theorem test_platform_sharedInput :
    (match twoDecoders.run [1, 0, 1, 0] with
      | .next p => p.blocks.all fun b => b.core.done && b.core.out.read 0 == some 0x61
      | .fault _ => false
      | .refused _ => false) = true := by decide

theorem independent_twoDecoders : Independent twoDecoders where
  inputs j b h := by
    obtain ⟨hj, rfl⟩ := List.getElem?_eq_some_iff.mp h
    have : j = 0 ∨ j = 1 := by simp [twoDecoders] at hj; omega
    rcases this with rfl | rfl <;> exact show 0 < 1 by decide
  outputs j k b c hb hc e := by
    obtain ⟨hj, rfl⟩ := List.getElem?_eq_some_iff.mp hb
    obtain ⟨hk, rfl⟩ := List.getElem?_eq_some_iff.mp hc
    have h1 : j = 0 ∨ j = 1 := by simp [twoDecoders] at hj; omega
    have h2 : k = 0 ∨ k = 1 := by simp [twoDecoders] at hk; omega
    rcases h1 with rfl | rfl <;> rcases h2 with rfl | rfl <;> first
      | rfl
      | exact absurd (show 0 = 1 from e) (by decide)
      | exact absurd (show 1 = 0 from e) (by decide)

theorem seen_twoDecoders {j : Nat} {s : State} (h : twoDecoders.seen j = some s) :
    s = decoding [0x00, 0x61] 1 1 0 0 [] := by
  obtain ⟨b, x, hb, hx, rfl⟩ := Platform.seen_eq_some.mp h
  obtain ⟨hj, rfl⟩ := List.getElem?_eq_some_iff.mp hb
  have : j = 0 ∨ j = 1 := by simp [twoDecoders] at hj; omega
  rcases this with rfl | rfl <;> cases hx <;> rfl

/-- Two idle blocks, the first with a host that writes its IN next, the second with the IN of number `k`. -/
def idlePair (k : Nat) : Platform :=
  { blocks := [{ core := hosted State.reset (.writeIn 0 0x61), inAt := 0, outAt := 0 },
               { core := State.reset, inAt := k, outAt := 1 }]
    inputs := [{ bytes := [], fill := 0 }, { bytes := [], fill := 1 }] }

/-- A block in flight beside one that steps and leaves IN alone; idle blocks beside one whose host writes its IN,
with another IN and with the same. -/
theorem witness_BlocksKeepApart :
    (∃ (q : Platform) (s u : State), twoDecoders.step 0 = .next q ∧ twoDecoders.seen 0 = some s ∧
      twoDecoders.seen 1 = some u ∧ u.busy = true ∧ s.hostWritesIn = false) ∧
    (∀ k, k < 2 → ∃ (q : Platform) (b c : Block) (s u : State), (idlePair k).step 0 = .next q ∧
      (idlePair k).blocks[0]? = some b ∧ (idlePair k).blocks[1]? = some c ∧ (idlePair k).seen 0 = some s ∧
      (idlePair k).seen 1 = some u ∧ u.busy = false ∧ s.hostWritesIn = true ∧ b.inAt = 0 ∧ c.inAt = k) := by
  refine ⟨⟨_, _, _, rfl, rfl, rfl, rfl, rfl⟩, fun k hk => ?_⟩
  have : k = 0 ∨ k = 1 := by omega
  rcases this with rfl | rfl <;> exact ⟨_, _, _, _, _, rfl, rfl, rfl, rfl, rfl, rfl, rfl, rfl, rfl⟩

theorem witness_ParallelBlocksRunAsIfAlone :
    Independent twoDecoders ∧ (∀ j s, twoDecoders.seen j = some s → Inv s ∧ s.host = []) ∧
    (∀ j ∈ [1, 0, 1, 0], j < twoDecoders.blocks.length) ∧ ∃ s, twoDecoders.seen 1 = some s :=
  ⟨independent_twoDecoders,
   fun _ _ h => by rw [seen_twoDecoders h]; exact ⟨inv_decoding (by decide) (by decide), rfl⟩, by decide, _, rfl⟩

/-- The wiring after power-on, with one OUT given twice; and a host that writes the IN of a decoder in flight. -/
theorem witness_SharedBuffersAreGuarded :
    (∃ (p : Platform) (b c : Block) (s : State), p.blocks[0]? = some b ∧ p.blocks[1]? = some c ∧
      p.seen 0 = some s ∧ b.outAt = c.outAt) ∧
    ∃ (p : Platform) (b c : Block) (s : State), p.blocks[0]? = some b ∧ p.blocks[1]? = some c ∧
      p.seen 0 = some s ∧ Independent p ∧ b.inAt = c.inAt ∧ c.core.busy = true ∧ s.hostWritesIn = true := by
  refine ⟨⟨Platform.reset [(0, 0), (0, 0)] 1, _, _, _, rfl, rfl, rfl, rfl⟩, ?_⟩
  obtain ⟨s, hs⟩ := independent_twoDecoders.seen (j := 0) (by decide)
  exact ⟨twoDecoders.put 0 (hosted s (.writeIn 0 0)), _, _, _, rfl, rfl,
    Platform.seen_put_self _ hs, independent_twoDecoders.put _ _, rfl, rfl, rfl⟩

end Sys2Proof.Tests
end

section
/-! PROOFS. The scope of the machine (00_scope R5 to R8, R11): START and its launch premises, the host's command,
the sequencer without the host, and the parameters, which no step writes. -/

namespace Sys2Proof.Machine

/-! ### The launch premises of START -/

/-- The bound of R7 is one only where a width is given. -/
theorem withinBound_iff {c : Config} {x : Nat} :
    withinBound c x = true ↔ ∀ w, c.aw = some w → x + 17 ≤ 2 ^ w := by
  unfold withinBound
  cases c.aw <;> simp

/-- Disjoint in the sense of R48: no byte lies in both buffers; open bases share none. -/
theorem buffersDisjoint_iff {c : Config} {m k : Nat} :
    buffersDisjoint c m k = true ↔
      ∀ x y, c.inBase = some x → c.outBase = some y →
        ¬ ∃ a, x ≤ a ∧ a < x + m ∧ y ≤ a ∧ a < y + k := by
  unfold buffersDisjoint
  cases c.inBase with
  | none => simp
  | some x =>
    cases c.outBase with
    | none => simp
    | some y =>
      simp only [Bool.or_eq_true, decide_eq_true_eq, Option.some.injEq]
      constructor
      · rintro h _ _ rfl rfl ⟨a, ha⟩
        omega
      · intro h
        by_contra hc
        -- Of two intervals that overlap, both hold the larger of the two bases.
        exact h x y rfl rfl ⟨max x y, by omega⟩

theorem start_indexBound (o : OpCode) (init : State → Result) {s : State} (hb : s.busy = false)
    (h : ¬ (withinBound s.cfg s.inLen = true ∧ withinBound s.cfg s.outCap = true)) :
    start o init s = .refused .indexBound := by
  have hbound : (withinBound s.cfg s.inLen && withinBound s.cfg s.outCap) = false := by simpa using h
  simp only [start, hb, hbound, Bool.not_false, Bool.false_eq_true, if_true, if_false]

theorem start_buffersOverlap (o : OpCode) (init : State → Result) {s : State} (hb : s.busy = false)
    (h1 : withinBound s.cfg s.inLen = true) (h2 : withinBound s.cfg s.outCap = true)
    (h3 : ¬ buffersDisjoint s.cfg s.inLen s.outCap = true) :
    start o init s = .refused .buffersOverlap := by
  simp [start, hb, h1, h2, h3]

theorem encInit_completes (s : State) : ∃ t, encInit s = .next t := by
  rcases encInit_cases s with ⟨_, e⟩ | ⟨_, _, e⟩ | ⟨_, _, e⟩ <;> exact ⟨_, e⟩

theorem decInit_completes (s : State) : ∃ t, decInit s = .next t := by
  rcases decInit_cases s with ⟨_, e⟩ | ⟨_, e⟩ <;> exact ⟨_, e⟩

theorem exec_encode (s : State) : exec .encode s = start 0 encInit s := rfl

theorem exec_decode (s : State) : exec .decode s = start 1 decInit s := rfl

/-- Settles O16: the model's two checks are the bound and the overlap written out, judged in this order. -/
theorem startOutsidePremisesIsRefused : Obligations.StartOutsidePremisesIsRefused := by
  intro s hb
  simp only [exec_encode, exec_decode]
  constructor
  · intro w hw hlarge
    have hbound : ¬ (withinBound s.cfg s.inLen = true ∧ withinBound s.cfg s.outCap = true) := by
      rintro ⟨hin, hout⟩
      have hinLen := withinBound_iff.mp hin w hw
      have houtCap := withinBound_iff.mp hout w hw
      omega
    exact ⟨start_indexBound _ _ hb hbound, start_indexBound _ _ hb hbound⟩
  · intro hsmall
    have hin := withinBound_iff.mpr fun w hw => (hsmall w hw).1
    have hout := withinBound_iff.mpr fun w hw => (hsmall w hw).2
    constructor
    · rintro ⟨x, y, a, hx, hy, ha⟩
      have hshared : ¬ buffersDisjoint s.cfg s.inLen s.outCap = true :=
        fun hd => buffersDisjoint_iff.mp hd x y hx hy ⟨a, ha⟩
      exact ⟨start_buffersOverlap _ _ hb hin hout hshared, start_buffersOverlap _ _ hb hin hout hshared⟩
    · intro happart
      have hd := buffersDisjoint_iff.mpr happart
      rw [start_ready _ _ hb hin hout hd, start_ready _ _ hb hin hout hd]
      exact ⟨encInit_completes _, decInit_completes _⟩

/-! ### Without the host -/

/-- Settles O41: the sequencer answers a next state wherever the invariant holds. -/
theorem sequencerNeverStops : Obligations.SequencerNeverStops := by
  intro s hI hh
  obtain ⟨t, ht, _⟩ := sequencer_spec hI
  exact ⟨t, (step_eq_sequencer hh).trans ht⟩

/-! ### The host's next action -/

theorem hostStep_start_one (s : State) : hostStep (.write .start 1) s = exec (decodeCommand s.op) s := rfl

theorem hostStep_run (s : State) : hostStep .run s = sequencer s := rfl

/-- What the host's next action can be: the write of START, a step of the sequencer, or an access. -/
theorem hostStep_eq_next {a : HostAction} {s t : State} (h : hostStep a s = .next t) :
    (∃ v, a = .write .start v ∧ hostStart v s = .next t) ∨ (a = .run ∧ sequencer s = .next t) ∨
      hostAccess a s = .next t := by
  unfold hostStep at h
  split at h
  · exact .inl ⟨_, rfl, h⟩
  · exact .inr (.inl ⟨rfl, h⟩)
  · exact .inr (.inr h)

/-- Settles O22: START runs the command that `OP` encodes, and the sequencer does not look at the queue. -/
theorem stepRunsTheHostCommand : Obligations.StepRunsTheHostCommand := by
  intro s rest
  refine ⟨fun hh => ?_, step_eq_sequencer, fun hh => ?_⟩
  · rw [step_eq_hostStep hh, hostStep_start_one]
    constructor <;> intro hop <;> simp only [hop] <;> rfl
  · rw [step_eq_hostStep hh, hostStep_run]
    refine ⟨rfl, fun t ht => ?_⟩
    rw [step_eq_sequencer rfl] at ht
    exact hostBlind_sequencer { s with host := [] } t rest ht

/-! ### The parameters -/

/-- START that answers next was ignored, or has latched its operands and run `init`. -/
theorem start_eq_next {o : OpCode} {init : State → Result} {s t : State} (h : start o init s = .next t) :
    t = s ∨ init (latch o s) = .next t := by
  rcases start_cases o init s with ⟨_, e⟩ | ⟨_, e | e⟩ | ⟨_, e⟩ <;> rw [e] at h
  · cases h; exact .inl rfl
  · cases h
  · cases h
  · exact .inr h

theorem encInit_cfg {s t : State} (h : encInit s = .next t) : t.cfg = s.cfg := by
  rcases encInit_cases s with ⟨_, e⟩ | ⟨_, _, e⟩ | ⟨_, _, e⟩ <;> rw [e] at h <;> cases h <;> rfl

theorem decInit_cfg {s t : State} (h : decInit s = .next t) : t.cfg = s.cfg := by
  rcases decInit_cases s with ⟨_, e⟩ | ⟨_, e⟩ <;> rw [e] at h <;> cases h <;> rfl

/-- Neither command writes the parameters. -/
theorem exec_command_cfg {o : OpCode} {s t : State} (h : exec (decodeCommand o) s = .next t) :
    t.cfg = s.cfg := by
  rcases opl_cases o with rfl | rfl
  · rcases start_eq_next (show start 0 encInit s = .next t from h) with rfl | h
    · rfl
    · rw [encInit_cfg h, latch_cfg]
  · rcases start_eq_next (show start 1 decInit s = .next t from h) with rfl | h
    · rfl
    · rw [decInit_cfg h, latch_cfg]

theorem hostStart_cfg {v : Nat} {s t : State} (h : hostStart v s = .next t) : t.cfg = s.cfg := by
  unfold hostStart at h
  split_ifs at h
  · cases h; rfl
  · exact exec_command_cfg h

theorem whileIdle_cfg {s u t : State} (h : whileIdle s u = .next t) (hu : u.cfg = s.cfg) : t.cfg = s.cfg := by
  rw [whileIdle_eq_next h, hu]

theorem hostWrite_cfg {r : IfReg} {v : Nat} {s t : State} (h : hostWrite r v s = .next t) :
    t.cfg = s.cfg := by
  cases r with
  | op =>
    simp only [hostWrite] at h
    split_ifs at h
    exact whileIdle_cfg h rfl
  | inLen => exact whileIdle_cfg h rfl
  | outCap => exact whileIdle_cfg h rfl
  | start => cases h; rfl
  | busy => cases h
  | done => cases h
  | status => cases h
  | outLen => cases h

theorem hostRead_cfg {r : IfReg} {s t : State} (h : hostRead r s = .next t) : t.cfg = s.cfg := by
  unfold hostRead at h
  split at h <;> cases h
  rfl

/-- The host has no access to the parameters. -/
theorem hostAccess_cfg {a : HostAction} {s t : State} (h : hostAccess a s = .next t) : t.cfg = s.cfg := by
  cases a with
  | write r v => exact hostWrite_cfg h
  | read r => exact hostRead_cfg h
  | provideIn bytes => exact whileIdle_cfg h rfl
  | provideOut => exact whileIdle_cfg h rfl
  | writeIn x v => exact whileIdle_cfg h rfl
  | readIn x => cases h; rfl
  | writeOut x v => exact whileIdle_cfg h rfl
  | readOut x => exact whileIdle_cfg h rfl
  | reset => cases h; rfl
  | run => cases h; rfl

theorem hostStep_cfg {a : HostAction} {s t : State} (h : hostStep a s = .next t) : t.cfg = s.cfg := by
  rcases hostStep_eq_next h with ⟨_, _, h⟩ | ⟨_, h⟩ | h
  · exact hostStart_cfg h
  · exact (keeps_sequencer _ _ h).cfg
  · exact hostAccess_cfg h

/-- Settles O47: neither the sequencer nor any action of the host writes `cfg`. -/
theorem parametersNeverChange : Obligations.ParametersNeverChange := by
  intro s t h
  cases hh : s.host with
  | nil =>
    rw [step_eq_sequencer hh] at h
    exact (keeps_sequencer _ _ h).cfg
  | cons a rest =>
    rw [step_eq_hostStep hh] at h
    exact hostStep_cfg (s := { s with host := rest }) h

end Sys2Proof.Machine
end

section
/-! PROOFS. The state and the host interface (10_state R20 to R38): the START step of either command, the reset
and the invariant there, and what the host writes and reads on an idle machine. -/

namespace Sys2Proof.Machine

/-! ### START on a ready machine -/

/-- Where the launch premises hold, START is the latches and `init`. -/
theorem Ready.start_eq {s : State} (h : Ready s) (o : OpCode) (init : State → Result) :
    start o init s = init (latch o s) :=
  start_ready o init h.idle h.inBound h.outBound h.disjoint

theorem encInit_empty {s : State} (h : s.n = 0) : encInit s = .next (encStarted s) := by
  simpa [h] using encInit_cases s

theorem encInit_room {s : State} (hn : 0 < s.n) (hc : 0 < s.cap) :
    encInit s = .next (opened (encStarted s)) := by
  simpa [hn, hn.ne', hc, hc.ne'] using encInit_cases s

theorem encInit_full {s : State} (hn : 0 < s.n) (hc : s.cap = 0) :
    encInit s = .next (raised .outputBufferExhausted (encStarted s)) := by
  simpa [hn, hn.ne', hc] using encInit_cases s

theorem decInit_empty {s : State} (h : s.n = 0) : decInit s = .next (decStarted s) := by
  simpa [h] using decInit_cases s

theorem decInit_load {s : State} (h : 0 < s.n) :
    decInit s = .next (loaded (s.inByte 0) (decStarted s)) := by
  simpa [h, h.ne'] using decInit_cases s

/-- Settles O13: the latches, then `ENC.INIT`, which opens the first control byte where there is input. -/
theorem encodeStartsAnOperation : Obligations.EncodeStartsAnOperation := by
  intro s hs
  rw [exec_encode, hs.start_eq]
  refine ⟨fun hn => ?_, fun hn hc => ?_, fun hn hc => ?_⟩
  · rw [encInit_empty (by simpa using hn)]
    simp only [encStarted, latch, hn]
  · refine ⟨_, encInit_room (by simpa using hn) (by simpa using hc), rfl, ?_, fun a ha => ?_⟩
    · exact Memory.read_write_same s.out 0 0
    · exact Memory.read_write_other s.out 0 ha
  · rw [encInit_full (by simpa using hn) (by simpa using hc)]
    simp only [raised, encStarted, latch, hc]

/-- Settles O14: the latches, then `DEC.INIT`, which loads the first control byte where there is one. -/
theorem decodeStartsAnOperation : Obligations.DecodeStartsAnOperation := by
  intro s hs
  rw [exec_decode, hs.start_eq]
  refine ⟨fun hn => ?_, fun hn => ?_⟩
  · rw [decInit_empty (by simpa using hn)]
    simp only [decStarted, latch, hn]
  · rw [decInit_load (by simpa using hn)]
    rfl

/-! ### START while an operation is in flight -/

theorem exec_command_busy (o : OpCode) {s : State} (h : s.busy = true) :
    exec (decodeCommand o) s = .next s := by
  rcases opl_cases o with rfl | rfl
  · exact start_busy 0 encInit h
  · exact start_busy 1 decInit h

/-- Settles O15: START looks at `BUSY` first, and the host's write of it runs a command. -/
theorem startWhileBusyIsIgnored : Obligations.StartWhileBusyIsIgnored := by
  intro s hb
  refine ⟨exec_command_busy 0 hb, exec_command_busy 1 hb, fun rest hh => ?_⟩
  rw [step_eq_hostStep hh, hostStep_start_one]
  exact exec_command_busy s.op hb

/-! ### The reset -/

/-- On an idle machine the invariant says nothing of the two operations. -/
theorem Inv.of_idle {s : State} (hb : s.busy = false) (params : s.cfg.valid) (realRun : 2 ≤ s.cfg.minMatch)
    (policy : s.cfg.windowPolicy = .exact) (inWf : s.inp.wf = true) (outWf : s.out.wf = true)
    (reserved : s.status ≠ .invalidInput) (noResult : s.status ≠ .ok → s.outLen = 0) : Inv s where
  params := params
  realRun := realRun
  policy := policy
  inWf := inWf
  outWf := outWf
  reserved := reserved
  noResult := noResult
  notBoth h := absurd h (by simp [hb])
  encoding h := absurd h (by simp [hb])
  decoding h := absurd h (by simp [hb])

/-- Settles O39: the reset state is idle, with the parameters of this hardware and empty buffers. -/
theorem resetMeetsTheInvariant : Obligations.ResetMeetsTheInvariant :=
  Inv.of_idle rfl (by decide) (by decide) rfl rfl rfl (by decide) (fun _ => rfl)

/-- Whatever was going on, the reset leaves every listed register at its reset value (R37). -/
theorem atReset_hardwareReset (s : State) : AtReset (hardwareReset s) where
  host := ⟨rfl, rfl, rfl⟩
  idle := ⟨rfl, rfl, rfl, rfl⟩
  shared := ⟨rfl, rfl, rfl, rfl⟩
  encoder := ⟨rfl, rfl, rfl, rfl, rfl⟩
  decoder := ⟨rfl, rfl⟩

/-- Settles O54: the host's reset is `hardwareReset`, which changes nothing in the state after power-on. -/
theorem resetLeavesTheBlockIdle : Obligations.ResetLeavesTheBlockIdle :=
  ⟨atReset_hardwareReset State.reset,
    fun _ _ hh => ⟨_, step_eq_hostStep hh, atReset_hardwareReset _, rfl, rfl, rfl⟩⟩

/-! ### The host's accesses -/

theorem whileIdle_idle {s : State} (t : State) (h : s.busy = false) : whileIdle s t = .next t := by
  simp [whileIdle, h]

/-- A step in which the host makes an access that has a meaning on an idle machine. -/
theorem step_whileIdle {s t : State} {a : HostAction} {rest : List HostAction} (hh : s.host = a :: rest)
    (hb : s.busy = false)
    (ha : hostStep a { s with host := rest } = whileIdle { s with host := rest } t) : step s = .next t := by
  rw [step_eq_hostStep hh, ha]
  exact whileIdle_idle t hb

/-- A register read depends on nothing of the host's queue. -/
theorem readRegister_host (s : State) (rest : List HostAction) (r : IfReg) :
    readRegister { s with host := rest } r = readRegister s r := by
  cases r <;> rfl

/-- A step in which the host reads a register. -/
theorem step_read {s : State} {r : IfReg} {rest : List HostAction} {x : Nat}
    (hh : s.host = .read r :: rest) (hx : readRegister s r = .ok x) :
    step s = .next { s with host := rest, hostData := x } := by
  rw [step_eq_hostStep hh]
  show hostRead r _ = _
  simp only [hostRead, readRegister_host, hx]

/-- A step in which the host reads a register that has no value to give. -/
theorem step_read_refused {s : State} {r : IfReg} {rest : List HostAction} {e : Refusal}
    (hh : s.host = .read r :: rest) (he : readRegister s r = .error e) : step s = .refused e := by
  rw [step_eq_hostStep hh]
  show hostRead r _ = _
  simp only [hostRead, readRegister_host, he]

theorem readRegister_status {s : State} (h : s.status ≠ .invalidInput) :
    readRegister s .status = .ok s.status.code.toNat := by
  simp [readRegister, h]

theorem readRegister_reservedStatus {s : State} (h : s.status = .invalidInput) :
    readRegister s .status = .error .reservedStatus := by
  simp [readRegister, h]

/-- The registers H4 to H7 are read-only: a write of one is refused by its name. -/
theorem hostStep_write_readOnly {r : IfReg} (hr : r ∈ [IfReg.busy, .done, .status, .outLen]) (v : Nat)
    (s : State) : hostStep (.write r v) s = .refused (.readOnlyRegister r) := by
  simp only [List.mem_cons, List.not_mem_nil, or_false] at hr
  rcases hr with rfl | rfl | rfl | rfl <;> rfl

theorem hostWrite_op {v : Nat} (h : v < 2) (s : State) :
    hostWrite .op v s = whileIdle s { s with op := BitVec.ofNat 1 v } := by
  simp [hostWrite, h]

/-- `OP` and `START` are one bit wide: a write above 1 is refused by the register's name (V8). -/
theorem hostStep_write_upperBits {r : IfReg} (hr : r ∈ [IfReg.op, .start]) (v : Nat) (s : State) :
    hostStep (.write r (v + 2)) s = .refused (.upperBits r) := by
  simp only [List.mem_cons, List.not_mem_nil, or_false] at hr
  rcases hr with rfl | rfl
  · show hostWrite .op (v + 2) s = _
    simp [hostWrite]
  · show hostStart (v + 2) s = _
    simp [hostStart]

/-- IN made from bytes holds them from index 0. -/
theorem inputBytes_ofBytes {s : State} {bytes : List Byte} (h : s.inp = Memory.ofBytes 0 bytes) :
    inputBytes s bytes.length = bytes := by
  refine List.ext_getElem (by simp [inputBytes]) fun j _ hj => ?_
  have hread : s.inp.read j = some bytes[j] := by
    have := Memory.read_ofBytes 0 bytes j
    rwa [Nat.zero_add, ← h, List.getElem?_eq_getElem hj] at this
  simp [inputBytes, State.inByte, hread]

/-- The bytes of IN after a store to it. -/
theorem inByte_of_write {s t : State} {a : Nat} {v : Byte} (h : t.inp = s.inp.write a v)
    (hf : t.inFill = s.inFill) : t.inByte a = v ∧ ∀ j, j ≠ a → t.inByte j = s.inByte j := by
  refine ⟨by simp [State.inByte, h], fun j hj => ?_⟩
  simp [State.inByte, h, hf, Memory.read_write_other _ _ hj]

theorem resultByte_below {s : State} {a : Nat} (h : a < s.outLen) : resultByte s a = s.outByte a := by
  simp [resultByte, h]

/-- Settles O56: each access is one case of the host interface, on an idle machine. -/
theorem hostWritesAndReads : Obligations.HostWritesAndReads := by
  intro s rest v a b bytes hb
  refine ⟨?writeOp, ?writeInLen, ?writeOutCap, ?writeStart, ?provideIn, ?provideOut, ?writeIn, ?writeOut,
    ?readIn, ?readOut, ?readOp, ?readInLen, ?readOutCap, ?readStart, ?readBusy, ?readDone, ?readOutLen,
    ?readStatus, ?readOutAbove, ?readOnly, ?upperBits, ?reservedStatus⟩
  case writeOp => exact fun hh hv => step_whileIdle hh hb (hostWrite_op hv _)
  case writeInLen => exact fun hh => step_whileIdle hh hb rfl
  case writeOutCap => exact fun hh => step_whileIdle hh hb rfl
  case writeStart => exact fun hh => step_eq_hostStep hh
  case provideIn => exact fun hh => ⟨_, step_whileIdle hh hb rfl, rfl, inputBytes_ofBytes rfl⟩
  case provideOut => exact fun hh => step_whileIdle hh hb rfl
  case writeIn => exact fun hh => ⟨_, step_whileIdle hh hb rfl, rfl, inByte_of_write rfl rfl⟩
  case writeOut =>
    exact fun hh => ⟨stored { s with host := rest } a b, step_whileIdle hh hb rfl, rfl,
      outByte_stored_same _ a b, fun _ hj => outByte_stored_other _ b hj⟩
  case readIn => exact fun hh => step_eq_hostStep hh
  case readOut =>
    intro hh ha
    rw [← resultByte_below ha]
    exact step_whileIdle hh hb rfl
  case readOp => exact fun hh => step_read hh rfl
  case readInLen => exact fun hh => step_read hh rfl
  case readOutCap => exact fun hh => step_read hh rfl
  case readStart => exact fun hh => step_read hh rfl
  case readBusy => exact fun hh => step_read hh (by simp [readRegister, hb, bitValue])
  case readDone => exact fun hh => step_read hh rfl
  case readOutLen => exact fun hh => step_read hh rfl
  case readStatus =>
    intro hh hs
    rw [step_read hh (readRegister_status hs)]
    cases s.status <;> rfl
  case readOutAbove => exact fun hh _ => ⟨resultByte s a, step_whileIdle hh hb rfl⟩
  case readOnly => exact fun r hr hh => (step_eq_hostStep hh).trans (hostStep_write_readOnly hr v _)
  case upperBits => exact fun r hr hh => (step_eq_hostStep hh).trans (hostStep_write_upperBits hr v _)
  case reservedStatus => exact fun hh hs => step_read_refused hh (readRegister_reservedStatus hs)

end Sys2Proof.Machine
end

section
/-! PROOFS. The memory (20_memory R45 to R48, R53, R54): no step reaches outside the buffers, the core writes no
IN, where it stores into OUT, an ENCODE reads no OUT, and several blocks side by side. -/

namespace Sys2Proof.Machine

/-! ### No access outside the buffers -/

/-- The invariant says nothing of what the host does next. -/
theorem Inv.hosted {s : State} (h : Inv s) (rest : List HostAction) : Inv { s with host := rest } where
  params := h.params
  realRun := h.realRun
  policy := h.policy
  inWf := h.inWf
  outWf := h.outWf
  reserved := h.reserved
  noResult := h.noResult
  notBoth := h.notBoth
  encoding hb ho :=
    have e := h.encoding hb ho
    ⟨e.cursor, e.atStart, e.window, e.room, e.group, e.unused⟩
  decoding hb ho :=
    have d := h.decoding hb ho
    ⟨d.cursor, d.room⟩

theorem sequencer_no_fault {s : State} (h : Inv s) (f : Fault) : sequencer s ≠ .fault f := by
  obtain ⟨t, ht, -⟩ := sequencer_spec h
  simp [ht]

theorem start_no_fault (o : OpCode) {init : State → Result} (hi : ∀ s, ∃ t, init s = .next t) (s : State)
    (f : Fault) : start o init s ≠ .fault f := by
  obtain ⟨t, ht⟩ := hi (latch o s)
  rcases start_cases o init s with ⟨_, e⟩ | ⟨_, e | e⟩ | ⟨_, e⟩ <;> simp [e, ht]

/-- A command does at most its `INIT`, which opens or loads a byte only where there is one. -/
theorem exec_command_no_fault (o : OpCode) (s : State) (f : Fault) : exec (decodeCommand o) s ≠ .fault f := by
  rcases opl_cases o with rfl | rfl
  · exact start_no_fault 0 encInit_completes s f
  · exact start_no_fault 1 decInit_completes s f

theorem hostStart_no_fault (v : Nat) (s : State) (f : Fault) : hostStart v s ≠ .fault f := by
  unfold hostStart
  split_ifs
  · simp
  · exact exec_command_no_fault s.op s f
  · simp

theorem whileIdle_no_fault (s t : State) (f : Fault) : whileIdle s t ≠ .fault f := by
  unfold whileIdle
  split_ifs <;> simp

theorem hostRead_no_fault (r : IfReg) (s : State) (f : Fault) : hostRead r s ≠ .fault f := by
  unfold hostRead
  split <;> simp

theorem hostWrite_no_fault (r : IfReg) (v : Nat) (s : State) (f : Fault) : hostWrite r v s ≠ .fault f := by
  cases r with
  | op =>
    simp only [hostWrite]
    split_ifs
    · exact whileIdle_no_fault _ _ f
    · simp
  | inLen => exact whileIdle_no_fault _ _ f
  | outCap => exact whileIdle_no_fault _ _ f
  | start => simp [hostWrite]
  | busy => simp [hostWrite]
  | done => simp [hostWrite]
  | status => simp [hostWrite]
  | outLen => simp [hostWrite]

/-- The bounds of R47 are the core's: no access of the host faults. -/
theorem hostAccess_no_fault (a : HostAction) (s : State) (f : Fault) : hostAccess a s ≠ .fault f := by
  cases a with
  | write r v => exact hostWrite_no_fault r v s f
  | read r => exact hostRead_no_fault r s f
  | provideIn bytes => exact whileIdle_no_fault _ _ f
  | provideOut => exact whileIdle_no_fault _ _ f
  | writeIn x v => exact whileIdle_no_fault _ _ f
  | readIn x => simp [hostAccess]
  | writeOut x v => exact whileIdle_no_fault _ _ f
  | readOut x => exact whileIdle_no_fault _ _ f
  | reset => simp [hostAccess]
  | run => simp [hostAccess]

theorem hostStep_no_fault (a : HostAction) {s : State} (h : Inv s) (f : Fault) : hostStep a s ≠ .fault f := by
  unfold hostStep
  split
  · exact hostStart_no_fault _ s f
  · exact sequencer_no_fault h f
  · exact hostAccess_no_fault _ s f

/-- Settles O40: from the invariant the sequencer answers a next state, and neither START nor an access of the
host reads or writes outside a buffer. -/
theorem noAccessOutsideTheBuffers : Obligations.NoAccessOutsideTheBuffers := by
  intro s f hI
  cases hh : s.host with
  | nil =>
    rw [step_eq_sequencer hh]
    exact sequencer_no_fault hI f
  | cons a rest =>
    rw [step_eq_hostStep hh]
    exact hostStep_no_fault a (hI.hosted rest) f

/-! ### ENCODE reads no OUT, and no operation writes IN -/

theorem follows_encAdvance : Follows encAdvance := by
  intro h o m s m₁ t ha e
  rcases Nat.lt_or_ge s.pos s.n with hn | hn
  · rw [encAdvance_step hn] at e
    rw [encAdvance_step (s := s.aside h m₁) hn]
    exact follows_encStep h o m s m₁ t ha e
  · rw [encAdvance_finish hn] at e
    cases e
    exact ⟨m₁, encAdvance_finish (s := s.aside h m₁) hn, ha⟩

/-- Settles O45: beside other contents of OUT an ENCODE stores the same bytes at the same indices. -/
theorem encodeNeverReadsOutput : Obligations.EncodeNeverReadsOutput := by
  intro s t m hh hb ho h
  rw [step_eq_sequencer hh] at h
  have hhost : t.host = s.host := (keeps_sequencer s t h).host
  rw [sequencer_encode hb ho] at h
  obtain ⟨m', h', hagree⟩ := follows_encAdvance s.host s.out m s m t (.refl _ _) h
  refine ⟨m', ?_, hagree.bytes⟩
  calc step (s.aside s.host m)
      = sequencer (s.aside s.host m) := step_eq_sequencer hh
    _ = encAdvance (s.aside s.host m) := sequencer_encode hb ho
    _ = .next (t.aside s.host m') := h'
    _ = .next (t.aside t.host m') := by rw [hhost]

/-- Settles O44: IN and the operand registers are among what every step of the sequencer keeps. -/
theorem coreNeverWritesInput : Obligations.CoreNeverWritesInput := by
  intro s t hh h
  rw [step_eq_sequencer hh] at h
  have k := keeps_sequencer s t h
  exact ⟨k.inp, k.inFill, k.op, k.inLen, k.outCap⟩

/-! ### Where a step stores -/

theorem within_grouped (c : Nat) (s : State) : Within c s (grouped s) := by
  rw [grouped_frame]
  exact .of_eq rfl rfl

/-- The copy loop stores from its write cursor on. -/
theorem CopyDone.within (c : Nat) {s t : State} {j : Nat} (h : CopyDone s j t) : Within c s t where
  cursor := by rw [h.wr]; exact Nat.le_add_right _ _
  bytes a _ ha := h.before a (by rwa [h.wr] at ha)

/-- A decoder step stores from its write cursor on, and nowhere else. -/
theorem TokenEnd.within (c : Nat) {s t : State} (h : TokenEnd s t) : Within c s t := by
  cases h with
  | litFull hk h => exact .of_eq rfl rfl
  | lit hk h =>
    have hfetched : Within c s (litFetched s) := .of_eq rfl rfl
    exact (hfetched.trans (within_appended c _ _)).trans (within_grouped c _)
  | cut hk h => exact .of_eq rfl rfl
  | corrupt hk hn h => exact .of_eq rfl rfl
  | matchFull hk hn h1 h2 h3 => exact .of_eq rfl rfl
  | matched u hk hn h1 h2 h3 hd =>
    have hready : Within c s (copyReady (matchFetched s).offset (matchFetched s)) := .of_eq rfl rfl
    exact ((hready.trans (hd.within c)).trans (within_appended c _ _)).trans (within_grouped c _)

/-- Where a step of the sequencer in a DECODE stores: from the write cursor on, no index `c` excepted. -/
theorem sequencer_decode_within (c : Nat) {s t : State} (ho : s.opl = 1) (h : sequencer s = .next t) :
    Within c s t := by
  cases hb : s.busy with
  | false =>
    rw [sequencer_idle hb] at h
    cases h
    exact .of_eq rfl rfl
  | true =>
    rw [sequencer_decode hb ho] at h
    rcases Nat.lt_or_ge s.rd s.n with hn | hn
    · obtain ⟨u, hu, hend⟩ := decStep_spec hb hn
      rw [decAdvance_step hn, hu] at h
      cases h
      exact hend.within c
    · rw [decAdvance_finish hn] at h
      cases h
      exact .of_eq rfl rfl

/-- Where a step of the sequencer in an ENCODE stores; one that leaves the cursor where it was stores nothing. -/
theorem sequencer_encode_within {s t : State} (ho : s.opl = 0) (h : sequencer s = .next t) :
    Within s.ctrlAddr s t ∧ (t.wr = s.wr → t.out = s.out) := by
  cases hb : s.busy with
  | false =>
    rw [sequencer_idle hb] at h
    cases h
    exact ⟨.of_eq rfl rfl, fun _ => rfl⟩
  | true =>
    rw [sequencer_encode hb ho] at h
    rcases Nat.lt_or_ge s.pos s.n with hn | hn
    · rw [encAdvance_step hn] at h
      exact encStep_stores h
    · rw [encAdvance_finish hn] at h
      cases h
      exact ⟨.of_eq rfl rfl, fun _ => rfl⟩

/-- Settles O46: the stores of each operation, and the bound that both keep. -/
theorem storesStayInTheBuffer : Obligations.StoresStayInTheBuffer := by
  intro s t hh h
  rw [step_eq_sequencer hh] at h
  refine ⟨(keeps_sequencer s t h).stores, fun ho a ha => ?_, fun ho => ?_, fun ho => ?_⟩
  · exact (sequencer_decode_within (a + 1) ho h).bytes a (by omega) ha
  · exact (sequencer_encode_within ho h).1.bytes
  · exact (sequencer_encode_within ho h).2

/-! ### Several blocks -/

/-- The IN of block `j` is in use where another block with an operation in flight has it, too. -/
theorem Platform.inputInUse_of_busy {p : Platform} {j k : Nat} {b c : Block} (hjk : j ≠ k)
    (hb : p.blocks[j]? = some b) (hc : p.blocks[k]? = some c) (hin : b.inAt = c.inAt)
    (hbusy : c.core.busy = true) : p.inputInUse j = true :=
  Platform.another_eq_true.mpr ⟨b, k, c, hb, hjk.symm, hc, by simp [hin, hbusy]⟩

theorem Platform.outputShared_of_eq {p : Platform} {j k : Nat} {b c : Block} (hjk : j ≠ k)
    (hb : p.blocks[j]? = some b) (hc : p.blocks[k]? = some c) (hout : b.outAt = c.outAt) :
    p.outputShared j = true :=
  Platform.another_eq_true.mpr ⟨b, k, c, hb, hjk.symm, hc, by simp [hout]⟩

/-- Settles O60: both refusals are judged by the wiring and by `BUSY`, before the block's own step. -/
theorem sharedBuffersAreGuarded : Obligations.SharedBuffersAreGuarded := by
  intro p j k b c s hjk hb hc hs
  constructor
  · intro hout
    simp [Platform.step, hs, Platform.outputShared_of_eq hjk hb hc hout]
  · intro hp hin hbusy hw
    simp [Platform.step, hs, hp.outputShared j, hw, Platform.inputInUse_of_busy hjk hb hc hin hbusy]

/-- Where block `j` leaves its IN as it was, no other block sees a difference. -/
theorem Platform.seen_put_of_input_kept {p : Platform} {j k : Nat} {s t u : State} (hjk : j ≠ k)
    (hs : p.seen j = some s) (hu : p.seen k = some u) (hin : t.inp = s.inp ∧ t.inFill = s.inFill) :
    (p.put j t).seen k = some u := by
  obtain ⟨b, c, -, -, -, -, hseen, hsame⟩ := Platform.seen_put_other t hjk hs hu
  rw [hseen, hin.1, hin.2]
  split_ifs with hshared
  · obtain ⟨hinp, hfill⟩ := hsame hshared
    rw [← hinp, ← hfill, over_self]
  · rfl

/-- Settles O58: block `j` comes to its own next state, another block sees its own state over what `j` has left in
a shared IN, and `j` changes that only by a host write, which is refused beside a block with `BUSY = 1`. -/
theorem blocksKeepApart : Obligations.BlocksKeepApart := by
  intro p q j k b c s u hq hjk hb hc hs hu
  obtain ⟨s', t, hs', -, hguard, ht, rfl⟩ := Platform.step_eq_next hq
  obtain rfl : s = s' := Option.some.inj (hs.symm.trans hs')
  obtain ⟨b', c', hb', hc', -, hbusy, hseen, -⟩ := Platform.seen_put_other t hjk hs hu
  obtain rfl : b = b' := Option.some.inj (hb.symm.trans hb')
  obtain rfl : c = c' := Option.some.inj (hc.symm.trans hc')
  refine ⟨t, _, ht, Platform.seen_put_self t hs, hseen, fun hin => if_neg hin, fun hin => if_pos hin, ?_⟩
  intro hquiet
  rcases eq_or_ne b.inAt c.inAt with hin | hin
  · have hw : s.hostWritesIn = false := by
      rcases hquiet with hub | hw
      · -- A host write of the shared IN would have been refused.
        have huse := Platform.inputInUse_of_busy hjk hb hc hin (hbusy.trans hub)
        by_contra hw
        simpa [huse] using hguard (by simpa using hw)
      · exact hw
    have hkept := Platform.seen_put_of_input_kept hjk hs hu (step_keeps_input hw ht)
    exact Option.some.inj (hseen.symm.trans hkept)
  · exact if_neg hin

/-! ### A schedule of independent blocks -/

/-- Blocks as R53 allows them, each in a state that meets the invariant and without a host. -/
structure Parallel (p : Platform) : Prop where
  independent : Independent p
  blocks      : ∀ j s, p.seen j = some s → Inv s ∧ s.host = []

/-- A step of one of them completes; it is the block's own, and no other block sees a difference. -/
theorem Parallel.step {p : Platform} (h : Parallel p) {j : Nat} (hj : j < p.blocks.length) :
    ∃ s t, p.seen j = some s ∧ Machine.step s = .next t ∧ p.step j = .next (p.put j t) ∧
      ∀ k u, j ≠ k → p.seen k = some u → (p.put j t).seen k = some u := by
  obtain ⟨s, hs⟩ := h.independent.seen hj
  obtain ⟨hI, hh⟩ := h.blocks j s hs
  obtain ⟨t, ht⟩ := sequencerNeverStops s hI hh
  have hw : s.hostWritesIn = false := by simp [State.hostWritesIn, hh]
  exact ⟨s, t, hs, ht, Platform.step_of_next hs (h.independent.outputShared j) hw ht,
    fun _ _ hjk hu => Platform.seen_put_of_input_kept hjk hs hu (step_keeps_input hw ht)⟩

theorem step_keeps_inv_without_host {s t : State} (h : Inv s ∧ s.host = []) (ht : step s = .next t) :
    Inv t ∧ t.host = [] := by
  obtain ⟨hI, hh⟩ := h
  rw [step_eq_sequencer hh] at ht
  exact ⟨inv_sequencer hI ht, (keeps_sequencer s t ht).host.trans hh⟩

/-- They stay such blocks after a step that only its own block sees. -/
theorem Parallel.put {p : Platform} (h : Parallel p) {j : Nat} {s t : State} (hs : p.seen j = some s)
    (ht : Machine.step s = .next t)
    (others : ∀ k u, j ≠ k → p.seen k = some u → (p.put j t).seen k = some u) :
    Parallel (p.put j t) where
  independent := h.independent.put j t
  blocks k u hu := by
    rcases eq_or_ne j k with rfl | hjk
    · obtain rfl : t = u := Option.some.inj ((Platform.seen_put_self t hs).symm.trans hu)
      exact step_keeps_inv_without_host (h.blocks j s hs) ht
    · -- What `k` sees now it has seen before.
      obtain ⟨b, -, hb, -⟩ := Platform.seen_eq_some.mp hu
      obtain ⟨hk, -⟩ := List.getElem?_eq_some_iff.mp hb
      obtain ⟨u', hu'⟩ := h.independent.seen (lt_of_lt_of_eq hk (p.put_length j t).1)
      obtain rfl : u' = u := Option.some.inj ((others k u' hjk hu').symm.trans hu)
      exact h.blocks k u' hu'

theorem Platform.run_cons {p q : Platform} {j : Nat} (h : p.step j = .next q) (js : List Nat) :
    p.run (j :: js) = q.run js := by
  simp only [Platform.run, h]

/-- Any schedule of their steps completes, and each block takes as many steps of its own as it is named there. -/
theorem Parallel.run {schedule : List Nat} {p : Platform} (h : Parallel p)
    (hlen : ∀ j ∈ schedule, j < p.blocks.length) :
    ∃ q, p.run schedule = .next q ∧ ∀ k u, p.seen k = some u →
      ∃ t, Sys2Proof.core.run (schedule.count k) u = .next t ∧ q.seen k = some t := by
  induction schedule generalizing p with
  | nil => exact ⟨p, rfl, fun k u hu => ⟨u, run_zero u, hu⟩⟩
  | cons j js ih =>
    obtain ⟨s, t, hs, ht, hstep, others⟩ := h.step (hlen j (List.mem_cons_self ..))
    have hlen' : ∀ i ∈ js, i < (p.put j t).blocks.length := fun i hi => by
      rw [(p.put_length j t).1]
      exact hlen i (List.mem_cons_of_mem _ hi)
    obtain ⟨q, hq, alone⟩ := ih (h.put hs ht others) hlen'
    refine ⟨q, (Platform.run_cons hstep js).trans hq, fun k u hu => ?_⟩
    rcases eq_or_ne j k with rfl | hjk
    · obtain rfl : s = u := Option.some.inj (hs.symm.trans hu)
      rw [List.count_cons_self, run_succ ht]
      exact alone j t (Platform.seen_put_self t hs)
    · rw [List.count_cons_of_ne hjk]
      exact alone k u (others k u hjk hu)

/-- Settles O59, by induction on the schedule: each step is its block's own and keeps the premises. -/
theorem parallelBlocksRunAsIfAlone : Obligations.ParallelBlocksRunAsIfAlone :=
  fun _ _ hp hblocks hlen => Parallel.run ⟨hp, hblocks⟩ hlen

end Sys2Proof.Machine
end

section
/-! PROOFS. The encodings (30_encoding R60 to R77): the bit fields of a match token, decoding and encoding of
instructions, the virtual words, and streams framed in groups. -/

namespace Sys2Proof

/-! ### Bit fields (R65) -/

theorem packHigh_toNat (o : Offset) : (packHigh o).toNat = o.toNat / 16 := by
  have := o.isLt
  rw [packHigh, BitVec.extractLsb'_toNat, Nat.shiftRight_eq_div_pow]
  omega

theorem packLow_toNat (o : Offset) (l : Length) : (packLow o l).toNat = o.toNat % 16 * 16 + l.toNat := by
  rw [packLow, BitVec.toNat_append, ← Nat.shiftLeft_add_eq_or_of_lt l.isLt, Nat.shiftLeft_eq]
  simp [BitVec.extractLsb'_toNat]

theorem unpackOffset_toNat (b1 b2 : Byte) : (unpackOffset b1 b2).toNat = b1.toNat * 16 + b2.toNat / 16 := by
  have := b2.isLt
  rw [unpackOffset, BitVec.toNat_append, ← Nat.shiftLeft_add_eq_or_of_lt (BitVec.isLt _), Nat.shiftLeft_eq,
    BitVec.extractLsb'_toNat, Nat.shiftRight_eq_div_pow]
  omega

theorem unpackLength_toNat (b2 : Byte) : (unpackLength b2).toNat = b2.toNat % 16 := by
  simp [unpackLength, BitVec.extractLsb'_toNat]

@[simp] theorem unpackOffset_pack (o : Offset) (l : Length) :
    unpackOffset (packHigh o) (packLow o l) = o := by
  have := l.isLt
  apply BitVec.eq_of_toNat_eq
  rw [unpackOffset_toNat, packHigh_toNat, packLow_toNat]
  omega

@[simp] theorem unpackLength_pack (o : Offset) (l : Length) : unpackLength (packLow o l) = l := by
  have := l.isLt
  apply BitVec.eq_of_toNat_eq
  rw [unpackLength_toNat, packLow_toNat]
  omega

@[simp] theorem packHigh_unpack (b1 b2 : Byte) : packHigh (unpackOffset b1 b2) = b1 := by
  have := b2.isLt
  apply BitVec.eq_of_toNat_eq
  rw [packHigh_toNat, unpackOffset_toNat]
  omega

@[simp] theorem packLow_unpack (b1 b2 : Byte) : packLow (unpackOffset b1 b2) (unpackLength b2) = b2 := by
  apply BitVec.eq_of_toNat_eq
  rw [packLow_toNat, unpackOffset_toNat, unpackLength_toNat]
  omega

/-- The offset that the Encoder takes is the distance less one, wherever 12 bits hold that (R65, R124). -/
theorem Machine.matchOffset_some {pos mp : Nat} (h : mp < pos) (hd : pos - mp - 1 < 4096) :
    ∃ f, Machine.matchOffset pos mp = some f ∧ f.toNat = pos - mp - 1 := by
  refine ⟨BitVec.ofNat 12 (pos - mp - 1), if_pos ⟨h, hd⟩, ?_⟩
  rw [BitVec.toNat_ofNat, Nat.mod_eq_of_lt hd]

/-- Settles O1, from the four formulas read as numbers. -/
theorem matchFieldsPackAndUnpack : Obligations.MatchFieldsPackAndUnpack := fun o l b1 b2 =>
  ⟨packHigh_toNat o, packLow_toNat o l, unpackOffset_toNat b1 b2, unpackLength_toNat b2,
    unpackOffset_pack o l, unpackLength_pack o l, packHigh_unpack b1 b2, packLow_unpack b1 b2,
    fun _ => rfl, fun _ _ => Machine.matchOffset_some⟩

/-! ### Decoding and encoding one instruction -/

/-- The layout of every instruction. -/
theorem Laws.layout : ∀ i, Layout.Statement i
  | .lit c => Layout.lit c
  | .matchTok c offset length => Layout.matchTok c offset length
  | .ctrl m => Layout.ctrl m
  | .encode => Layout.encode
  | .decode => Layout.decode
  | .findPrefix ws we ss se => Layout.findPrefix ws we ss se

/-- The kind of a token says how many bytes it has (R66). -/
theorem streamEncoding_length {t : Instr} (h : t.isToken = true) :
    (streamEncoding t).length = if t.kind then 3 else 1 := by
  obtain ⟨hbytes, -, htoken⟩ := Laws.layout t
  exact hbytes.trans (htoken h)

/-- A token is encoded by its kind and its bytes. -/
theorem encode_token {t : Instr} (h : t.isToken = true) : encode t = some (.token t.kind (streamEncoding t)) := by
  cases t with
  | lit c => rfl
  | matchTok c offset length => rfl
  | ctrl m => cases h
  | encode => cases h
  | decode => cases h
  | findPrefix ws we ss se => cases h

/-- A token's bytes decode to it, whatever follows them (R63 to R66). -/
theorem decodeToken_streamEncoding {t : Instr} (h : t.isToken = true) (rest : List Byte) :
    decodeToken t.kind (streamEncoding t ++ rest) = .ok (t, rest) := by
  cases t with
  | lit c => rfl
  | matchTok c offset length => simp [decodeToken, decodeMatch, streamEncoding, Instr.kind]
  | ctrl m => cases h
  | encode => cases h
  | decode => cases h
  | findPrefix ws we ss se => cases h

/-- Bytes that decode to a token are its encoding, and it has the kind that selected it (R63 to R66). -/
theorem decodeToken_eq_ok {sel : Bool} {bytes rest : List Byte} {i : Instr}
    (h : decodeToken sel bytes = .ok (i, rest)) :
    i.isToken = true ∧ i.kind = sel ∧ bytes = streamEncoding i ++ rest := by
  unfold decodeToken at h
  split at h
  · cases h
  · split at h
    · cases h
      exact ⟨rfl, rfl, rfl⟩
    · cases h
      exact ⟨rfl, rfl, by simp [decodeMatch, streamEncoding]⟩
    · cases h

theorem decode_token_eq_ok {sel : Bool} {bytes : List Byte} {i : Instr} :
    decode (.token sel bytes) = .ok i ↔ decodeToken sel bytes = .ok (i, []) := by
  simp only [decode]
  split <;> simp_all

/-- The round trip of every instruction that has an encoding. -/
theorem decode_encode {i : Instr} {e : Encoded} (h : encode i = some e) : decode e = .ok i := by
  have token : ∀ t : Instr, t.isToken = true → encode t = some e → decode e = .ok t := by
    intro t ht he
    rw [encode_token ht] at he
    cases he
    exact decode_token_eq_ok.mpr (by simpa using decodeToken_streamEncoding ht [])
  cases i with
  | lit c => exact token _ rfl h
  | matchTok c offset length => exact token _ rfl h
  | ctrl m => cases h; rfl
  | encode => cases h; rfl
  | decode => cases h; rfl
  | findPrefix ws we ss se => cases h

/-- What decodes to an instruction is that instruction's encoding. -/
theorem encode_of_decode {e : Encoded} {i : Instr} (h : decode e = .ok i) : encode i = some e := by
  cases e with
  | token sel bytes =>
    obtain ⟨htoken, rfl, rfl⟩ := decodeToken_eq_ok (decode_token_eq_ok.mp h)
    rw [encode_token htoken, List.append_nil]
  | control m => cases h; rfl
  | command op =>
    rcases Machine.opl_cases op with rfl | rfl <;> cases h <;> rfl

theorem encode_eq_none {i : Instr} : encode i = none ↔ ∃ ws we ss se, i = Instr.findPrefix ws we ss se := by
  cases i <;> simp [encode]

/-- Settles O2: `decode` and `encode` are inverse to each other, and only `FIND_PREFIX` has no encoding. -/
theorem decodeOfEncodeIsTheInstruction : Obligations.DecodeOfEncodeIsTheInstruction :=
  ⟨fun _ _ _ => decode_encode, fun _ _ => encode_of_decode, fun _ => encode_eq_none⟩

/-- Settles O3: the token has the kind of the control bit, and the kind gives the length. -/
theorem tokenBytesFollowTheControlBit : Obligations.TokenBytesFollowTheControlBit := by
  intro m k bytes i rest h
  obtain ⟨htoken, hkind, hbytes⟩ := decodeToken_eq_ok h
  refine ⟨hbytes, hkind, ?_⟩
  rw [streamEncoding_length htoken, hkind, controlBit]

/-! ### Virtual words (R77) -/

theorem wordByte_toNat (w lo : Nat) : (wordByte w lo).toNat = w / 2 ^ lo % 2 ^ 8 := BitVec.toNat_ofNat _ _

theorem wordByte_eq {w lo : Nat} {b : Byte} (h : w / 2 ^ lo % 2 ^ 8 = b.toNat) : wordByte w lo = b :=
  BitVec.eq_of_toNat_eq ((wordByte_toNat w lo).trans h)

/-- The virtual word of an instruction fits its width and stands for the instruction's encoding. -/
theorem tableWord_virtualWord {i : Instr} {width w : Nat} (h : virtualWord i = some (width, w)) :
    w < 2 ^ width ∧ tableWord width w = encode i := by
  cases i with
  | lit c =>
    cases h
    have := c.isLt
    have hbyte : wordByte c.toNat 0 = c := wordByte_eq (by omega)
    refine ⟨by omega, ?_⟩
    simp [tableWord, encode, hbyte, c.isLt]
  | matchTok c offset length =>
    obtain ⟨rfl, hw⟩ : 25 = width ∧ 2 ^ 24 + c.toNat * 2 ^ 16 + offset.toNat * 2 ^ 4 + length.toNat = w :=
      Prod.mk.inj (Option.some.inj h)
    have hc := c.isLt
    have ho := offset.isLt
    have hl := length.isLt
    have hrange : 2 ^ 24 ≤ w ∧ w < 2 ^ 25 := by omega
    have h2 : wordByte w 16 = c := wordByte_eq (by omega)
    have h1 : wordByte w 8 = packHigh offset := wordByte_eq (by rw [packHigh_toNat]; omega)
    have h0 : wordByte w 0 = packLow offset length := wordByte_eq (by rw [packLow_toNat]; omega)
    exact ⟨hrange.2, (if_pos hrange).trans (by rw [h2, h1, h0]; rfl)⟩
  | ctrl m =>
    cases h
    refine ⟨m.isLt, ?_⟩
    simp [tableWord, encode, m.isLt]
  | encode => cases h; decide
  | decode => cases h; decide
  | findPrefix ws we ss se => cases h

/-- Every word that is read stands for an instruction whose virtual word it is. -/
theorem virtualWord_of_tableWord {width w : Nat} {e : Encoded} (h : tableWord width w = some e) :
    ∃ i, decode e = .ok i ∧ virtualWord i = some (width, w) := by
  unfold tableWord at h
  split_ifs at h with h1 hw h8 hw h9 hw h25 hw <;> cases h
  · obtain rfl | rfl : w = 0 ∨ w = 1 := by omega
    · exact ⟨.encode, rfl, by rw [h1]; rfl⟩
    · exact ⟨.decode, rfl, by rw [h1]; rfl⟩
  · exact ⟨.ctrl (BitVec.ofNat 8 w), rfl, by simpa [virtualWord, h8] using hw⟩
  · exact ⟨.lit (wordByte w 0), rfl, by simp [virtualWord, h9, wordByte_toNat]; omega⟩
  · refine ⟨decodeMatch (wordByte w 16) (wordByte w 8) (wordByte w 0), rfl, ?_⟩
    have hword : 2 ^ 24 + (wordByte w 16).toNat * 2 ^ 16 +
        (unpackOffset (wordByte w 8) (wordByte w 0)).toNat * 2 ^ 4 + (unpackLength (wordByte w 0)).toNat = w := by
      simp only [unpackOffset_toNat, unpackLength_toNat, wordByte_toNat]
      omega
    rw [decodeMatch, virtualWord, hword, h25]

theorem virtualWord_eq_none {i : Instr} :
    virtualWord i = none ↔ ∃ ws we ss se, i = Instr.findPrefix ws we ss se := by
  cases i <;> simp [virtualWord]

/-- Settles O57: a virtual word stands for the encoding of its instruction, and decoding undoes encoding. -/
theorem virtualWordsNameTheirInstruction : Obligations.VirtualWordsNameTheirInstruction := by
  refine ⟨fun i width w h => ?_, fun _ _ _ => virtualWord_of_tableWord, fun _ => virtualWord_eq_none⟩
  obtain ⟨hfits, hword⟩ := tableWord_virtualWord h
  refine ⟨hfits, ?_⟩
  cases he : encode i with
  | none =>
    obtain ⟨ws, we, ss, se, rfl⟩ := encode_eq_none.mp he
    cases h
  | some e => exact ⟨e, hword.trans he, decode_encode he⟩

/-- Settles O7 by evaluating the table's reading of each word. -/
theorem tableWordsDecode : Obligations.TableWordsDecode := by
  unfold Obligations.TableWordsDecode
  decide

end Sys2Proof
end

section
/-! PROOFS. Streams framed in groups (30_encoding R60 to R62, R67 to R70, R76): what a group's control byte says of
its tokens, and what the decoder and the reference algorithm find in such a stream. -/

namespace Sys2Proof

open Machine (marks)

/-! ### Groups -/

/-- Induction over the groups of a token list: a last group of fewer than 8 tokens, or 8 tokens and more. -/
theorem groups_induction {P : List Instr → Prop} (last : ∀ l, l.length < 8 → P l)
    (full : ∀ l m, l.length = 8 → P m → P (l ++ m)) (toks : List Instr) : P toks := by
  induction hn : toks.length using Nat.strong_induction_on generalizing toks with
  | _ n ih =>
    rcases Nat.lt_or_ge toks.length 8 with h | h
    · exact last toks h
    · rw [← List.take_append_drop 8 toks]
      exact full _ _ (by simp; omega) (ih _ (by simp; omega) _ rfl)

theorem groups_ne_nil (toks : List Instr) : groups toks ≠ [] := by
  induction toks using groups_induction with
  | last l h => simp [groups_short h]
  | full l m h _ => simp [groups_eight h]

theorem assemble_of_ne_nil {toks : List Instr} (h : toks ≠ []) : assemble toks = groups toks := by
  cases toks with
  | nil => exact absurd rfl h
  | cons t ts => rfl

/-- The length of the framing of any tokens, one control byte for none (R76). -/
theorem encodeStream_groups_length (toks : List Instr) (h : ∀ t ∈ toks, t.isToken = true) :
    (encodeStream (groups toks)).length =
      1 + toks.length / 8 + toks.countP (fun t => !t.kind) + 3 * toks.countP Instr.kind := by
  induction toks using List.reverseRecOn with
  | nil => rfl
  | append_singleton toks t ih =>
    have ht : t.isToken = true := h t (by simp)
    have hgroup : (toks.length + 1) / 8 = toks.length / 8 + if toks.length % 8 = 7 then 1 else 0 := by
      split_ifs <;> omega
    rw [groups_length_snoc, ih fun x hx => h x (List.mem_append_left _ hx), streamEncoding_length ht,
      List.length_append, List.countP_append, List.countP_append, List.length_singleton,
      List.countP_singleton, List.countP_singleton, hgroup]
    cases t.kind <;> simp only [Bool.not_true, Bool.not_false, Bool.false_eq_true, if_true, if_false] <;> omega

/-- Settles O5, by induction on the tokens from the end: each adds its bytes, and every 8th a control byte. -/
theorem assembledStreamSize : Obligations.AssembledStreamSize := by
  intro toks h hne
  rw [assemble_of_ne_nil hne]
  exact encodeStream_groups_length toks h

/-! ### The control byte of a group -/

/-- Bit `j` of the control byte computed from token `k` on is the kind of the token that stands there (R62, R69). -/
theorem groupControl_getLsbD (toks : List Instr) (k j : Nat) (hj : j < 8) :
    (groupControl k toks).getLsbD j = (decide (k ≤ j) && (toks[j - k]?).any Instr.kind) := by
  induction toks generalizing k with
  | nil => simp [groupControl]
  | cons t ts ih =>
    rw [groupControl, BitVec.getLsbD_or, ih]
    have hbit : (if t.kind then (1 : Byte) <<< k else 0).getLsbD j = (decide (j = k) && t.kind) := by
      cases t.kind with
      | false => simp
      | true =>
        rw [Bool.eq_iff_iff]
        simp [hj]
        omega
    rw [hbit]
    rcases Nat.lt_trichotomy j k with h | rfl | h
    · simp [h.ne, show ¬ k ≤ j by omega, show ¬ k + 1 ≤ j by omega]
    · simp
    · rw [show j - k = j - (k + 1) + 1 by omega]
      simp [h.ne', show k ≤ j by omega, show k + 1 ≤ j by omega]

/-- The computed control byte marks the tokens of a group. -/
theorem marks_groupControl {toks : List Instr} (h : toks.length ≤ 8) : marks (groupControl 0 toks) toks := by
  intro j hj
  rw [groupControl_getLsbD toks 0 j (by omega)]
  simp [hj]

/-- Marking a token and those after it, from bit `k` of a control byte on. -/
theorem marks_cons {m : Byte} {k : Nat} {t : Instr} {ts : List Instr} :
    marks (m >>> k) (t :: ts) ↔ m.getLsbD k = t.kind ∧ marks (m >>> (k + 1)) ts := by
  simp only [marks, BitVec.getLsbD_ushiftRight]
  constructor
  · intro h
    refine ⟨h 0 (by simp), fun j hj => ?_⟩
    rw [← Nat.add_right_comm k j 1]
    exact h (j + 1) (by simpa using hj)
  · rintro ⟨h0, h⟩ (_ | j) hj
    · exact h0
    · rw [← Nat.add_assoc, Nat.add_right_comm k j 1]
      exact h j (by simpa using hj)

/-! ### The tokens of a group in a stream -/

/-- Where a stream's decoder stands before token `k` of a group, or after its 8th (R60, R107). -/
def groupState (m : Byte) (k : Nat) : GroupState := if k < 8 then some (m, BitVec.ofNat 3 k) else none

theorem nextInGroup_groupState {m : Byte} {k : Nat} (h : k < 8) :
    nextInGroup m (BitVec.ofNat 3 k) = groupState m (k + 1) := by
  interval_cases k <;> rfl

theorem controlBit_ofNat {m : Byte} {k : Nat} (h : k < 8) : controlBit m (BitVec.ofNat 3 k) = m.getLsbD k := by
  rw [controlBit, BitVec.toNat_ofNat, Nat.mod_eq_of_lt h]

/-- A token under its own control bit is the next one that the decoder finds (R66). -/
theorem decodeFrom_token {m : Byte} {k : Count} {t : Instr} (ht : t.isToken = true) (hk : controlBit m k = t.kind)
    (rest : List Byte) :
    decodeFrom (some (m, k)) (streamEncoding t ++ rest) = (decodeFrom (nextInGroup m k) rest).map (t :: ·) := by
  cases t with
  | lit c => simp [streamEncoding, decodeFrom, hk, Instr.kind, decodeLit]
  | matchTok c offset length => simp [streamEncoding, decodeFrom, hk, Instr.kind, decodeMatch]
  | ctrl m => cases ht
  | encode => cases ht
  | decode => cases ht
  | findPrefix ws we ss se => cases ht

/-- The tokens of a group, from token `k` on, under a control byte that marks them. -/
theorem decodeFrom_tokens {m : Byte} (toks : List Instr) (k : Nat) (ht : ∀ t ∈ toks, t.isToken = true)
    (hlen : k + toks.length ≤ 8) (hm : marks (m >>> k) toks) (rest : List Byte) :
    decodeFrom (groupState m k) (encodeStream toks ++ rest) =
      (decodeFrom (groupState m (k + toks.length)) rest).map (toks ++ ·) := by
  induction toks generalizing k with
  | nil => cases h : decodeFrom (groupState m k) rest <;> simp [encodeStream, h, Except.map]
  | cons t ts ih =>
    rw [List.length_cons] at hlen
    obtain ⟨hbit, hrest⟩ := marks_cons.mp hm
    have hk : k < 8 := by omega
    have hbit' : controlBit m (BitVec.ofNat 3 k) = t.kind := (controlBit_ofNat hk).trans hbit
    rw [encodeStream_cons, List.append_assoc, groupState, if_pos hk, decodeFrom_token (ht t (by simp)) hbit',
      nextInGroup_groupState hk, ih (k + 1) (fun x hx => ht x (by simp [hx])) (by omega) hrest,
      List.length_cons, show k + (ts.length + 1) = k + 1 + ts.length by omega]
    cases decodeFrom (groupState m (k + 1 + ts.length)) rest <;> rfl

/-- A group under its computed control byte, and what the decoder finds after it. -/
theorem decodeFrom_group {toks : List Instr} (ht : ∀ t ∈ toks, t.isToken = true) (hlen : toks.length ≤ 8)
    (rest : List Byte) :
    decodeFrom none (groupControl 0 toks :: (encodeStream toks ++ rest)) =
      (decodeFrom (groupState (groupControl 0 toks) toks.length) rest).map
        (.ctrl (groupControl 0 toks) :: toks ++ ·) := by
  have h := decodeFrom_tokens toks 0 ht (by omega) (by simpa using marks_groupControl hlen) rest
  rw [Nat.zero_add] at h
  rw [decodeFrom, show some (groupControl 0 toks, 0) = groupState (groupControl 0 toks) 0 from rfl, h]
  cases decodeFrom (groupState (groupControl 0 toks) toks.length) rest <;> rfl

/-- The groups of any tokens parse back to themselves, the trailing empty one included (R68). -/
theorem decodeStream_groups (toks : List Instr) (ht : ∀ t ∈ toks, t.isToken = true) :
    decodeStream (encodeStream (groups toks)) = .ok (groups toks) := by
  unfold decodeStream
  induction toks using groups_induction with
  | last l h =>
    have hgroup := decodeFrom_group ht h.le []
    rw [List.append_nil] at hgroup
    rw [groups_short h, encodeStream_cons, streamEncoding, List.singleton_append, hgroup]
    simp [decodeFrom, Except.map]
  | full l m h ih =>
    rw [groups_eight h, List.cons_append, encodeStream_cons, encodeStream_append, streamEncoding,
      List.singleton_append, decodeFrom_group (fun t hx => ht t (by simp [hx])) h.le, h,
      show groupState (groupControl 0 l) 8 = none from rfl, ih fun t hx => ht t (by simp [hx])]
    rfl

/-- Settles O4: group by group, the control byte has each token's kind at its bit. -/
theorem assembledStreamDecodesToItself : Obligations.AssembledStreamDecodesToItself := by
  intro toks ht
  rcases eq_or_ne toks [] with rfl | hne
  · simp [assemble, encodeStream, decodeStream, decodeFrom]
  · rw [assemble_of_ne_nil hne]
    exact decodeStream_groups toks ht

end Sys2Proof
end

section
/-! PROOFS. Framed streams given to DECODE (30_encoding R69, R105, 43_decoder R162): the reference algorithm runs the
tokens that were framed and looks at no other control bit, and a DECODE of the machine returns what the reference
algorithm gives. -/

namespace Sys2Proof.Machine

/-! ### The reference algorithm over a framed stream -/

/-- Go on with the data decoded so far, or stop with the fault and no data. -/
def andDecode (r : Except Status (List Byte)) (f : List Byte → OpResult) : OpResult :=
  match r with
  | .ok out => f out
  | .error e => (e, [])

/-- What the tokens do to the data, in order, within a capacity (R162). -/
def tokensData (cfg : Config) (cap : Nat) (out : List Byte) (toks : List Instr) : Except Status (List Byte) :=
  toks.foldlM (tokenData cfg cap) out

theorem andDecode_tokensData_cons (cfg : Config) (cap : Nat) (out : List Byte) (t : Instr) (ts : List Instr)
    (f : List Byte → OpResult) :
    andDecode (tokensData cfg cap out (t :: ts)) f =
      andDecode (tokenData cfg cap out t) fun out => andDecode (tokensData cfg cap out ts) f := by
  rw [tokensData, List.foldlM_cons]
  cases tokenData cfg cap out t <;> rfl

theorem andDecode_tokensData_append (cfg : Config) (cap : Nat) (out : List Byte) (l m : List Instr)
    (f : List Byte → OpResult) :
    andDecode (tokensData cfg cap out (l ++ m)) f =
      andDecode (tokensData cfg cap out l) fun out => andDecode (tokensData cfg cap out m) f := by
  rw [tokensData, List.foldlM_append, tokensData]
  cases List.foldlM (tokenData cfg cap) out l <;> rfl

/-- A token under its own control bit is the next one that the reference algorithm runs. -/
theorem decodeData_token {m : Byte} {k : Count} {t : Instr} (ht : t.isToken = true) (hk : controlBit m k = t.kind)
    (cfg : Config) (cap : Nat) (out rest : List Byte) :
    decodeData cfg cap (some (m, k)) out (streamEncoding t ++ rest) =
      andDecode (tokenData cfg cap out t) fun out => decodeData cfg cap (nextInGroup m k) out rest := by
  cases t with
  | lit c =>
    simp only [streamEncoding, List.singleton_append, decodeData, hk, Instr.kind, decodeLit]
    cases tokenData cfg cap out (.lit c) <;> rfl
  | matchTok c offset length =>
    simp only [streamEncoding, List.cons_append, List.nil_append, decodeData, hk, Instr.kind, decodeMatch,
      unpackOffset_pack, unpackLength_pack]
    cases tokenData cfg cap out (.matchTok c offset length) <;> rfl
  | ctrl m => cases ht
  | encode => cases ht
  | decode => cases ht
  | findPrefix ws we ss se => cases ht

/-- The tokens of a group, from token `k` on, under any control byte that marks them. -/
theorem decodeData_tokens {m : Byte} (toks : List Instr) (k : Nat) (ht : ∀ t ∈ toks, t.isToken = true)
    (hlen : k + toks.length ≤ 8) (hm : marks (m >>> k) toks) (cfg : Config) (cap : Nat) (out rest : List Byte) :
    decodeData cfg cap (groupState m k) out (encodeStream toks ++ rest) =
      andDecode (tokensData cfg cap out toks) fun out =>
        decodeData cfg cap (groupState m (k + toks.length)) out rest := by
  induction toks generalizing k out with
  | nil => rfl
  | cons t ts ih =>
    rw [List.length_cons] at hlen
    obtain ⟨hbit, hrest⟩ := marks_cons.mp hm
    have hk : k < 8 := by omega
    have hbit' : controlBit m (BitVec.ofNat 3 k) = t.kind := (controlBit_ofNat hk).trans hbit
    rw [encodeStream_cons, List.append_assoc, groupState, if_pos hk, decodeData_token (ht t (by simp)) hbit',
      andDecode_tokensData_cons, nextInGroup_groupState hk, List.length_cons,
      show k + (ts.length + 1) = k + 1 + ts.length by omega]
    congr 1
    funext out
    exact ih (k + 1) (fun x hx => ht x (by simp [hx])) (by omega) hrest out

/-- A group under any control byte that marks its tokens (R69). -/
theorem decodeData_group {m : Byte} {toks : List Instr} (ht : ∀ t ∈ toks, t.isToken = true)
    (hlen : toks.length ≤ 8) (hm : marks m toks) (cfg : Config) (cap : Nat) (out rest : List Byte) :
    decodeData cfg cap none out (m :: (encodeStream toks ++ rest)) =
      andDecode (tokensData cfg cap out toks) fun out =>
        decodeData cfg cap (groupState m toks.length) out rest := by
  have h := decodeData_tokens toks 0 ht (by omega) (by simpa using hm) cfg cap out rest
  rw [Nat.zero_add] at h
  rw [decodeData]
  exact h

/-- Full groups, each under its computed control byte, and what the reference algorithm does after them. -/
theorem decodeData_fullGroups (full : List Instr) (h8 : full.length % 8 = 0) (ht : ∀ t ∈ full, t.isToken = true)
    (cfg : Config) (cap : Nat) (out rest : List Byte) :
    decodeData cfg cap none out (encodeStream (groups full).dropLast ++ rest) =
      andDecode (tokensData cfg cap out full) fun out => decodeData cfg cap none out rest := by
  induction full using groups_induction generalizing out with
  | last l h =>
    obtain rfl : l = [] := List.length_eq_zero_iff.mp (by omega)
    rfl
  | full l m h ih =>
    have hm : m.length % 8 = 0 := by rw [List.length_append] at h8; omega
    have hl : ∀ t ∈ l, t.isToken = true := fun t hx => ht t (by simp [hx])
    rw [groups_eight h, List.dropLast_append_of_ne_nil (groups_ne_nil m), List.cons_append, encodeStream_cons,
      encodeStream_append, streamEncoding, List.append_assoc, List.append_assoc, List.singleton_append,
      decodeData_group hl h.le (marks_groupControl h.le), h, andDecode_tokensData_append]
    congr 1
    funext out
    exact ih hm (fun t hx => ht t (by simp [hx])) out

/-- The reference algorithm over full groups and a last group: exactly what their tokens do to the data, whatever
the control bits beyond the last token are (R69). -/
theorem referenceDecode_streamEndingIn {full last : List Instr} {m : Byte} (h8 : full.length % 8 = 0)
    (hfull : ∀ t ∈ full, t.isToken = true) (hlen : last.length ≤ 8) (hlast : ∀ t ∈ last, t.isToken = true)
    (hm : marks m last) (cfg : Config) (cap : Nat) :
    referenceDecode cfg cap (streamEndingIn full m last) =
      andDecode (tokensData cfg cap [] (full ++ last)) fun out => (.ok, out) := by
  rw [referenceDecode, streamEndingIn, decodeData_fullGroups full h8 hfull, andDecode_tokensData_append]
  congr 1
  funext out
  rw [← List.append_nil (encodeStream last), decodeData_group hlast hlen hm]
  simp only [decodeData]

/-! ### Runs of the machine without the host -/

theorem step_keeps_no_host {s t : State} (hh : s.host = []) (h : step s = .next t) : t.host = [] := by
  rw [step_eq_sequencer hh] at h
  exact (keeps_sequencer s t h).host.trans hh

theorem run_succ_eq_next {s t : State} {k : Nat} (h : Sys2Proof.core.run (k + 1) s = .next t) :
    ∃ u, step s = .next u ∧ Sys2Proof.core.run k u = .next t := by
  simp only [Host.Core.run] at h
  split at h
  · exact ⟨_, ‹_›, h⟩
  · cases h
  · cases h

/-- An operation that has ended stays as it is. -/
theorem run_ended {t : State} (hh : t.host = []) (hb : t.busy = false) (k : Nat) :
    Sys2Proof.core.run k t = .next t := by
  induction k with
  | zero => rfl
  | succ k ih => rw [run_succ ((step_eq_sequencer hh).trans (sequencer_idle hb)) k, ih]

/-- However long it runs, an operation ends in one state. -/
theorem run_ended_unique {s t t' : State} {k k' : Nat} (hh : s.host = [])
    (h : Sys2Proof.core.run k s = .next t) (h' : Sys2Proof.core.run k' s = .next t') (ht : Ended t)
    (ht' : Ended t') : t = t' := by
  induction k generalizing s k' with
  | zero =>
    cases h
    rw [run_ended hh ht.idle k'] at h'
    exact Host.Outcome.next.inj h'
  | succ k ih =>
    cases k' with
    | zero =>
      cases h'
      rw [run_ended hh ht'.idle (k + 1)] at h
      exact (Host.Outcome.next.inj h).symm
    | succ k' =>
      obtain ⟨u, hu, h⟩ := run_succ_eq_next h
      obtain ⟨u', hu', h'⟩ := run_succ_eq_next h'
      obtain rfl : u = u' := Host.Outcome.next.inj (hu.symm.trans hu')
      exact ih (step_keeps_no_host hh hu) h h'

/-- What an operation returns does not depend on the number of steps it was given. -/
theorem endsIn_unique {s t t' : State} {k k' : Nat} (hh : s.host = []) (h : endsIn (.next s) k t)
    (h' : endsIn (.next s) k' t') : t = t' := by
  obtain ⟨u, hu, hrun, ht⟩ := h
  obtain ⟨u', hu', hrun', ht'⟩ := h'
  cases hu
  cases hu'
  exact run_ended_unique hh hrun hrun' ht ht'

/-- The step that ends an operation with its input consumed. -/
theorem run_finishes {s : State} (h : step s = .next (finished s)) :
    Sys2Proof.core.run 1 s = .next (finished s) ∧ Ended (finished s) ∧
      returned (finished s) = (.ok, outputBytes s s.wr) :=
  ⟨run_succ h 0, ⟨rfl, rfl⟩, rfl⟩

theorem returned_of_fault {t : State} {f : Status} (hs : t.status = f) (ho : t.outLen = 0) :
    returned t = (f, []) := by
  rw [returned, hs, ho]
  rfl

/-! ### DECODE -/

/-- A DECODE in flight ends with what the reference algorithm makes of the rest of the stream (R162, R166). -/
theorem decode_run {s : State} (hh : s.host = []) (hb : s.busy = true) (ho : s.opl = 1) (hr : s.rd ≤ s.n) :
    ∃ k t, k ≤ s.n - s.rd + 1 ∧ Sys2Proof.core.run k s = .next t ∧ Ended t ∧
      returned t = decodeData s.cfg s.cap (some (s.ctrl, s.cnt)) (outputBytes s s.wr)
        ((inputBytes s s.n).drop s.rd) := by
  induction hm : s.n - s.rd using Nat.strong_induction_on generalizing s with
  | _ left ih =>
    rcases Nat.lt_or_ge s.rd s.n with hn | hn
    · obtain ⟨t, ht, hend⟩ := decStep_spec hb hn
      have hseq : sequencer s = .next t := by rw [sequencer_decode hb ho, decAdvance_step hn, ht]
      have hstep : step s = .next t := (step_eq_sequencer hh).trans hseq
      have hkept := keeps_sequencer s t hseq
      rcases hend.reference hn with ⟨f, hbusy, hdone, hstatus, hlen, href⟩ | ⟨hbusy, hlt, hle, href⟩
      · exact ⟨1, t, by omega, run_succ hstep 0, ⟨hbusy, hdone⟩, (returned_of_fault hstatus hlen).trans href.symm⟩
      · have hsame : t.n = s.n := hkept.n
        obtain ⟨k, u, hk, hrun, hu, hret⟩ := ih (t.n - t.rd) (by omega) (hkept.host.trans hh) (hbusy.trans hb)
          (hkept.opl.trans ho) hle rfl
        exact ⟨k + 1, u, by omega, (run_succ hstep k).trans hrun, hu, hret.trans href.symm⟩
    · have hstep : step s = .next (finished s) := by
        rw [step_eq_sequencer hh, sequencer_decode hb ho, decAdvance_finish hn]
      obtain ⟨hrun, hended, hret⟩ := run_finishes hstep
      refine ⟨1, _, by omega, hrun, hended, ?_⟩
      rw [hret, inputBytes_drop_end hn, decodeData]

/-- A DECODE that has just started, beside the reference algorithm. -/
structure DecodeStarted (s u : State) : Prop where
  host   : u.host = []
  busy   : u.busy = true
  opl    : u.opl = 1
  cursor : u.rd ≤ u.n
  length : u.n = s.inLen
  data   : decodeData u.cfg u.cap (some (u.ctrl, u.cnt)) (outputBytes u u.wr) ((inputBytes u u.n).drop u.rd) =
    referenceDecode s.cfg s.outCap (inputBytes s s.inLen)

/-- START of a DECODE on a ready machine: the first control byte is loaded where there is one (R151). -/
theorem decode_starts {s : State} (hs : Ready s) (hh : s.host = []) :
    ∃ u, exec .decode s = .next u ∧ DecodeStarted s u := by
  rw [exec_decode, hs.start_eq]
  rcases Nat.eq_zero_or_pos s.inLen with h0 | h0
  · refine ⟨_, decInit_empty (by simpa using h0), hh, rfl, rfl, Nat.zero_le _, rfl, ?_⟩
    have hnil : inputBytes s s.inLen = [] := by rw [h0]; rfl
    rw [hnil]
    exact congrArg (decodeData _ _ _ _) hnil
  · refine ⟨_, decInit_load (by simpa using h0), hh, rfl, rfl, h0, rfl, ?_⟩
    have hcons : inputBytes s s.inLen = s.inByte 0 :: (inputBytes s s.inLen).drop 1 := inputBytes_drop h0
    rw [referenceDecode, hcons, decodeData]
    rfl

/-- From any ready state a DECODE ends, and returns what the reference algorithm gives (R162). -/
theorem decode_returns_reference {s : State} (hs : Ready s) (hh : s.host = []) :
    ∃ k t, k ≤ s.inLen + 1 ∧ endsIn (exec .decode s) k t ∧
      returned t = referenceDecode s.cfg s.outCap (inputBytes s s.inLen) := by
  obtain ⟨u, hu, hstart⟩ := decode_starts hs hh
  obtain ⟨k, t, hk, hrun, ht, hret⟩ := decode_run hstart.host hstart.busy hstart.opl hstart.cursor
  have hlen := hstart.length
  exact ⟨k, t, by omega, ⟨u, hu, hrun, ht⟩, hret.trans hstart.data⟩

/-- Whatever a DECODE from a ready state ends in, it returns what the reference algorithm gives. -/
theorem endsIn_decode_returned {s t : State} {k : Nat} (hs : Ready s) (hh : s.host = [])
    (h : endsIn (exec .decode s) k t) :
    returned t = referenceDecode s.cfg s.outCap (inputBytes s s.inLen) := by
  obtain ⟨u, hu, hstart⟩ := decode_starts hs hh
  obtain ⟨k', t', -, hend, hret⟩ := decode_returns_reference hs hh
  rw [hu] at h hend
  rw [endsIn_unique hstart.host h hend, hret]

/-- Settles O6: both streams give the reference algorithm the same tokens, and each machine returns what it gives. -/
theorem unusedControlBitsAreIgnored : Obligations.UnusedControlBitsAreIgnored := by
  intro full last m m' h8 hfull hlen hlast hm hm'
  have hsame : ∀ (cfg : Config) (cap : Nat), referenceDecode cfg cap (streamEndingIn full m last) =
      referenceDecode cfg cap (streamEndingIn full m' last) := fun cfg cap => by
    rw [referenceDecode_streamEndingIn h8 hfull hlen hlast hm,
      referenceDecode_streamEndingIn h8 hfull hlen hlast hm']
  refine ⟨hsame, fun s s' t t' k k' hs hs' hh hh' hcfg hcap hin hin' hend hend' => ?_⟩
  calc returned t
      = referenceDecode s.cfg s.outCap (streamEndingIn full m last) := by
        rw [← hin]; exact endsIn_decode_returned hs hh hend
    _ = referenceDecode s'.cfg s'.outCap (streamEndingIn full m' last) := by rw [hcfg, hcap, hsame]
    _ = returned t' := by rw [← hin']; exact (endsIn_decode_returned hs' hh' hend').symm

end Sys2Proof.Machine
end

section
/-! PROOFS. The size of what ENCODE writes (30_encoding R76, 42_encoder R134 to R137): an ENCODE of the machine returns
what the reference algorithm gives, and the framing of the tokens chosen for `n` bytes has at most `n + n / 8 + 1`. -/

namespace Sys2Proof.Machine

/-! ### The tokens that ENCODE chooses -/

@[simp] theorem kind_lit (c : Byte) : (Instr.lit c).kind = false := rfl

@[simp] theorem kind_matchTok (c : Byte) (offset : Offset) (length : Length) :
    (Instr.matchTok c offset length).kind = true := rfl

theorem commonLength_le_right (c : Nat) (xs ys : List Byte) : commonLength c xs ys ≤ ys.length := by
  fun_induction commonLength c xs ys with
  | case1 => exact Nat.zero_le _
  | case2 c xs y ys ih => rw [List.length_cons]; omega
  | case3 => exact Nat.zero_le _
  | case4 => exact Nat.zero_le _

theorem slice_length_le (data : List Byte) (a b : Nat) : (slice data a b).length ≤ b + 1 - a := by
  rw [slice, List.length_drop, List.length_take]
  omega

/-- A bound on every run bounds the best. -/
theorem bestOf_le {run : Nat → Nat} {bound : Nat} (hrun : ∀ p, run p ≤ bound) (count p : Nat) (best : Nat × Nat)
    (hbest : best.2 ≤ bound) : (bestOf run count p best).2 ≤ bound := by
  induction count generalizing p best with
  | zero => exact hbest
  | succ count ih =>
    refine ih (p + 1) _ ?_
    split_ifs
    · exact hrun p
    · exact hbest

/-- A match leaves its trailing byte in the input (R123). -/
theorem searchAt_le (cfg : Config) (data : List Byte) (pos : Nat) :
    (searchAt cfg data pos).2 ≤ data.length - 1 - pos := by
  unfold searchAt
  split_ifs with h
  · refine (reportedLength_le _ _).trans (bestOf_le (fun p => ?_) _ _ _ (Nat.zero_le _))
    have hrun := commonLength_le_right cfg.maxSeqSize (slice data p (pos - 1)) (slice data pos (data.length - 2))
    have hslice := slice_length_le data pos (data.length - 2)
    rw [runOf]
    omega
  · exact Nat.zero_le _

/-- The chosen tokens, in bytes, take no more than the input they stand for: a match stands for 3 bytes at least. -/
theorem greedyFrom_size {cfg : Config} (hmin : 2 ≤ cfg.minMatch) (data : List Byte) (fuel pos : Nat) :
    (greedyFrom cfg data fuel pos).countP (fun t => !t.kind) + 3 * (greedyFrom cfg data fuel pos).countP Instr.kind ≤
      data.length - pos := by
  induction fuel generalizing pos with
  | zero => exact Nat.zero_le _
  | succ fuel ih =>
    rw [greedyFrom]
    split_ifs with hpos
    · have hsearch := searchAt_le cfg data pos
      simp only
      split_ifs with hm
      · have hnext := ih (pos + (searchAt cfg data pos).2 + 1)
        simp only [List.countP_cons, kind_matchTok, Bool.not_true, Bool.false_eq_true, if_true, if_false]
        omega
      · have hnext := ih (pos + 1)
        simp only [List.countP_cons, kind_lit, Bool.not_false, Bool.false_eq_true, if_true, if_false]
        omega
    · exact Nat.zero_le _

theorem greedyTokens_size {cfg : Config} (hmin : 2 ≤ cfg.minMatch) (data : List Byte) :
    (greedyTokens cfg data).countP (fun t => !t.kind) + 3 * (greedyTokens cfg data).countP Instr.kind ≤ data.length :=
  greedyFrom_size hmin data data.length 0

/-- `n + n / 8 + 1` bytes are enough for the stream of `n` bytes (R76). -/
theorem encodedStream_length_le {cfg : Config} (hmin : 2 ≤ cfg.minMatch) (data : List Byte) :
    (encodedStream cfg data).length ≤ data.length + data.length / 8 + 1 := by
  rw [encodedStream]
  rcases eq_or_ne (greedyTokens cfg data) [] with h | h
  · rw [h]
    exact Nat.zero_le _
  · have hsize := greedyTokens_size hmin data
    have hcount := List.length_eq_countP_add_countP Instr.kind (l := greedyTokens cfg data)
    simp only [Bool.not_eq_true, Bool.decide_eq_false] at hcount
    have hlen := encodeStream_groups_length (greedyTokens cfg data) (greedyFrom_tokens cfg data data.length 0)
    rw [assemble_of_ne_nil h, hlen]
    omega

/-! ### ENCODE -/

/-- A stream where it fits, else the fault (R136). -/
def fitting (cap : Nat) (stream : List Byte) : OpResult :=
  if stream.length ≤ cap then (.ok, stream) else (.outputBufferExhausted, [])

theorem referenceEncode_eq (cfg : Config) (cap : Nat) (data : List Byte) :
    referenceEncode cfg cap data = fitting cap (encodedStream cfg data) := rfl

/-- The reference chooses no more tokens at the end of the input. -/
theorem greedyFrom_end {cfg : Config} {data : List Byte} {pos : Nat} (h : data.length ≤ pos) (fuel : Nat) :
    greedyFrom cfg data fuel pos = [] := by
  cases fuel with
  | zero => rfl
  | succ fuel => rw [greedyFrom, if_neg (by omega)]

/-- For an input that is not empty at least one token is chosen, so the stream has a control byte. -/
theorem encodedStream_of_input {cfg : Config} {data : List Byte} (h : 0 < data.length) :
    encodedStream cfg data = encodeStream (groups (greedyTokens cfg data)) := by
  have hne : greedyTokens cfg data ≠ [] := by
    obtain ⟨n, hn⟩ := Nat.exists_eq_add_of_lt h
    rw [greedyTokens, hn, greedyFrom, if_pos h]
    simp only
    split_ifs <;> exact List.cons_ne_nil _ _
  rw [encodedStream, assemble_of_ne_nil hne]

theorem inputBytes_length (s : State) (n : Nat) : (inputBytes s n).length = n := by simp [inputBytes]

/-- An ENCODE in flight with its input consumed ends with what it has framed (R131). -/
theorem encode_finishes {s : State} {toks : List Instr} (hE : EncInv s) (hh : s.host = []) (hb : s.busy = true)
    (ho : s.opl = 0) (hR : Framed s toks) (hn : s.n ≤ s.pos) (fuel : Nat) :
    Sys2Proof.core.run 1 s = .next (finished s) ∧ Ended (finished s) ∧
      returned (finished s) = fitting s.cap
        (encodeStream (groups (toks ++ greedyFrom s.cfg (inputBytes s s.n) fuel s.pos))) := by
  have hstep : step s = .next (finished s) := by
    rw [step_eq_sequencer hh, sequencer_encode hb ho, encAdvance_finish hn]
  obtain ⟨hrun, hended, hret⟩ := run_finishes hstep
  refine ⟨hrun, hended, ?_⟩
  have hfits : (encodeStream (groups toks)).length ≤ s.cap := hR.wr ▸ hE.room
  rw [hret, greedyFrom_end (by rw [inputBytes_length]; exact hn), List.append_nil, hR.out, fitting, if_pos hfits]

/-- An ENCODE in flight that has framed `toks` ends with the framing of these and of the tokens that the reference
chooses for the rest of the input, where it fits (R134, R136). -/
theorem encode_run {s : State} {toks : List Instr} {fuel : Nat} (hI : Inv s) (hh : s.host = []) (hb : s.busy = true)
    (ho : s.opl = 0) (hR : Framed s toks) (hfuel : s.n - s.pos ≤ fuel) :
    ∃ k t, k ≤ s.n - s.pos + 1 ∧ Sys2Proof.core.run k s = .next t ∧ Ended t ∧
      returned t = fitting s.cap
        (encodeStream (groups (toks ++ greedyFrom s.cfg (inputBytes s s.n) fuel s.pos))) := by
  induction fuel generalizing s toks with
  | zero => exact ⟨1, _, by omega, encode_finishes (hI.encoding hb ho) hh hb ho hR (by omega) 0⟩
  | succ fuel ih =>
    have hE := hI.encoding hb ho
    rcases Nat.lt_or_ge s.pos s.n with hn | hn
    · obtain ⟨v, t, ht, hv, hend⟩ := encStep_spec hI hE hb hn
      have hseq : sequencer s = .next t := by rw [sequencer_encode hb ho, encAdvance_step hn, ht]
      have hstep : step s = .next t := (step_eq_sequencer hh).trans hseq
      have hkept := keeps_sequencer s t hseq
      rw [greedy_step hI hE hn hv fuel, ← List.singleton_append, ← List.append_assoc]
      rcases framed_step hR hv hend hb with ⟨hbusy, hdone, hstatus, hlen, hcap⟩ | ⟨hbusy, hpos, hR'⟩
      · -- The framing with this token does not fit, and with the tokens after it even less.
        have hmono := groups_length_mono (toks ++ [tok v]) (greedyFrom s.cfg (inputBytes s s.n) fuel v.pos)
        refine ⟨1, t, by omega, run_succ hstep 0, ⟨hbusy, hdone⟩, ?_⟩
        rw [returned_of_fault hstatus hlen, fitting, if_neg (by omega)]
      · have hadv : s.pos < v.pos := by rw [hv.pos.1]; split_ifs <;> omega
        have hn' := hkept.n
        have hin : inputBytes t t.n = inputBytes s s.n := by
          rw [hn', inputBytes, inputBytes]
          exact List.map_congr_left fun a _ => inByte_congr hkept.inp hkept.inFill a
        obtain ⟨k, u, hk, hrun, hu, hret⟩ := ih (inv_sequencer hI hseq) (hkept.host.trans hh) hbusy
          (hkept.opl.trans ho) hR' (by omega)
        refine ⟨k + 1, u, by omega, (run_succ hstep k).trans hrun, hu, hret.trans ?_⟩
        rw [hkept.cap, hkept.cfg, hin, hpos]
    · exact ⟨1, _, by omega, encode_finishes hE hh hb ho hR hn (fuel + 1)⟩

/-- Before any token, the framing is the one control byte of an empty group (R121). -/
theorem framed_opened {s : State} (hwr : s.wr = 0) (hcnt : s.cnt = 0) : Framed (opened s) [] where
  out := by
    show outputBytes (opened s) (s.wr + 1) = [0]
    have hbyte := opened_outByte_self s
    rw [hwr] at hbyte ⊢
    rw [outputBytes_succ, hbyte]
    rfl
  cnt := by simp [hcnt]
  ctrl := by
    obtain ⟨G, last, hG⟩ := openGroup_exists []
    obtain rfl : last = [] := List.length_eq_zero_iff.mp hG.size
    obtain ⟨rfl, -⟩ := hG.unique (G' := []) (last' := []) rfl rfl
    exact ⟨[], [], hG, hwr, rfl⟩

/-- START of an ENCODE that opens its first control byte keeps the invariant (R121, R135). -/
theorem Inv.encodeOpened {s : State} (hI : Inv s) (hcap : 0 < s.outCap) :
    Inv (opened (encStarted (latch 0 s))) where
  params := hI.params
  realRun := hI.realRun
  policy := hI.policy
  inWf := hI.inWf
  outWf := Memory.wf_write _ _ hI.outWf
  reserved := hI.reserved
  noResult := hI.noResult
  notBoth _ := rfl
  encoding _ _ :=
    { cursor := Nat.zero_le _
      atStart := fun _ => ⟨rfl, rfl⟩
      window := fun h => absurd h (lt_irrefl 0)
      room := hcap
      group := fun _ => Nat.zero_lt_one
      unused := fun _ j _ => by simp }
  decoding _ h := absurd h (by simp)

/-- From any ready state that meets the invariant an ENCODE ends, and returns what the reference algorithm gives
(R134, R136). -/
theorem encode_returns_reference {s : State} (hI : Inv s) (hs : Ready s) (hh : s.host = []) :
    ∃ k t, k ≤ s.inLen + 1 ∧ endsIn (exec .encode s) k t ∧
      returned t = referenceEncode s.cfg s.outCap (inputBytes s s.inLen) := by
  rw [exec_encode, hs.start_eq, referenceEncode_eq]
  rcases Nat.eq_zero_or_pos s.inLen with h0 | h0
  · have hstep : step (encStarted (latch 0 s)) = .next (finished (encStarted (latch 0 s))) := by
      rw [step_eq_sequencer (s := encStarted (latch 0 s)) hh, sequencer_encode rfl rfl,
        encAdvance_finish (by simpa using h0)]
    obtain ⟨hrun, hended, hret⟩ := run_finishes hstep
    refine ⟨1, _, by omega, ⟨_, encInit_empty (by simpa using h0), hrun, hended⟩, hret.trans ?_⟩
    rw [h0]
    rfl
  · rw [encodedStream_of_input (by rwa [inputBytes_length])]
    rcases Nat.eq_zero_or_pos s.outCap with hc | hc
    · refine ⟨0, _, Nat.zero_le _, ⟨_, encInit_full (by simpa using h0) (by simpa using hc), rfl, rfl, rfl⟩, ?_⟩
      have hlen := groups_length_mono [] (greedyTokens s.cfg (inputBytes s s.inLen))
      have hone : (encodeStream (groups [])).length = 1 := rfl
      rw [List.nil_append, hone] at hlen
      rw [returned_of_fault (f := .outputBufferExhausted) rfl rfl, fitting, if_neg (by omega)]
    · obtain ⟨k, t, hk, hrun, ht, hret⟩ := encode_run (fuel := s.inLen) (hI.encodeOpened hc) hh rfl rfl
        (framed_opened rfl rfl) (Nat.sub_le _ _)
      refine ⟨k, t, hk, ⟨_, encInit_room (by simpa using h0) (by simpa using hc), hrun, ht⟩, hret.trans ?_⟩
      rw [List.nil_append, greedyTokens, inputBytes_length]
      rfl

/-- Settles O51: the stream of the reference has at most that many bytes, so the ENCODE returns it. -/
theorem sufficientCapacityForEncode : Obligations.SufficientCapacityForEncode := by
  intro s hI hs hh hcap
  obtain ⟨k, t, -, hend, hret⟩ := encode_returns_reference hI hs hh
  have hsize := encodedStream_length_le hI.realRun (inputBytes s s.inLen)
  rw [inputBytes_length] at hsize
  rw [referenceEncode_eq, fitting, if_pos (hsize.trans hcap)] at hret
  obtain ⟨hstatus, hbytes⟩ := Prod.mk.inj hret
  refine ⟨k, t, hend, hstatus, ?_⟩
  rw [← outputBytes_length t t.outLen, hbytes]
  exact hsize

end Sys2Proof.Machine
end

section
/-! PROOFS. The Match Finder (40_match_finder R80 to R92): `FIND_PREFIX` beside the run of R83 and beside the list
search, outside its precondition, from two states with the same input, and as `ENC.SEARCH` runs it. -/

namespace Sys2Proof.Machine

/-! ### One evaluation -/

theorem exec_findPrefix (ws we ss se : Nat) (s : State) :
    exec (.findPrefix ws we ss se) s = execFindPrefix ws we ss se s := rfl

/-- An evaluation completes exactly when its scan does, and leaves what the scan found (R80, R88). -/
theorem exec_findPrefix_eq_next {ws we ss se : Nat} {s t : State} :
    exec (.findPrefix ws we ss se) s = .next t ↔
      ∃ b, scan s we ss se (we + 1 - ws) ws ⟨s.p, s.k.toNat, ws, 0⟩ = .ok b ∧ t = found b s := by
  rw [exec_findPrefix, execFindPrefix]
  constructor
  · intro h
    obtain ⟨b, hb, ht⟩ := attempt_eq_next h
    cases ht
    exact ⟨b, hb, rfl⟩
  · rintro ⟨b, hb, rfl⟩
    rw [hb, attempt_ok]

/-- Within the ranges of R6 a run fits the 4 bits of its register. -/
theorem found_bestLen_toNat {b : Scan} {s : State} (hcfg : s.cfg.valid) (hb : b.bestLen ≤ s.cfg.maxSeqSize) :
    (found b s).bestLen.toNat = b.bestLen := by
  obtain ⟨-, -, -, -, hmax⟩ := hcfg
  rw [found_bestLen, BitVec.toNat_ofNat, Nat.mod_eq_of_lt (by omega)]

/-- Within the ranges of R6 the reported length fits the 4 bits of its port. -/
theorem found_matchLength_toNat {b : Scan} {s : State} (hcfg : s.cfg.valid) (hb : b.bestLen ≤ s.cfg.maxSeqSize) :
    (found b s).matchLength.toNat = reportedLength s.cfg.minMatch b.bestLen := by
  obtain ⟨-, -, -, -, hmax⟩ := hcfg
  rw [found_matchLength, reportedLength_toNat (hb.trans hmax), reportedLength]

/-- Settles O17: the scan's best pair is right for all the candidates, and its run fits the registers. -/
theorem findPrefixFindsLongestLatestRun : Obligations.FindPrefixFindsLongestLatestRun := by
  intro ws we ss se s hcfg hww hw hs
  obtain ⟨b, ⟨⟨hlo, hhi⟩, hrun, hbest⟩, hexec⟩ := execFindPrefix_spec (ss := ss) hww hw hs
  exact ⟨found b s, b.bestLen, hexec, execFindPrefix_frame hexec, found_bestLen_toNat hcfg hrun.capped, hlo,
    Nat.le_of_lt_succ hhi, hrun, fun p k hp hp' => hbest p k hp (Nat.lt_succ_of_le hp'),
    found_matchLength_toNat hcfg hrun.capped, fun _ => rfl⟩

/-! ### The search over lists -/

/-- The cap bounds the best run of the list search (R83). -/
theorem bestOf_runOf_le (cfg : Config) (data : List Byte) (we ss se count p ws : Nat) :
    (bestOf (runOf cfg data we ss se) count p (ws, 0)).2 ≤ cfg.maxSeqSize :=
  bestOf_le (fun _ => commonLength_le ..) count p _ (Nat.zero_le _)

/-- Settles O20: the scan's best pair is that of the list search, and the same threshold is put on both. -/
theorem findPrefixEqualsListSearch : Obligations.FindPrefixEqualsListSearch := by
  intro ws we ss se s hcfg hw hs
  obtain ⟨b, hscan, hbest⟩ := scan_bestOf (ss := ss) hw hs (we + 1 - ws) ws ⟨s.p, s.k.toNat, ws, 0⟩
  have hle : b.bestLen ≤ s.cfg.maxSeqSize :=
    (congrArg Prod.snd hbest).trans_le (bestOf_runOf_le s.cfg (inputBytes s s.n) we ss se _ ws ws)
  refine ⟨found b s, exec_findPrefix_eq_next.mpr ⟨b, hscan, rfl⟩, ?_⟩
  rw [found_matchPosition, found_matchLength_toNat hcfg hle, findPrefix, ← hbest]

/-! ### Outside the precondition (R89) -/

@[simp] theorem reportedLength_zero (m : Nat) : reportedLength m 0 = 0 :=
  Nat.le_zero.mp (reportedLength_le m 0)

/-- With an empty sequence a candidate's run is 0, so the scan goes on with it where the best run is 0, too. -/
theorem scan_succ_emptySeq {s : State} {we ss se : Nat} (h : se < ss) (count p : Nat) {b : Scan}
    (hb : b.bestLen = 0) :
    scan s we ss se (count + 1) p b = scan s we ss se count (p + 1) ⟨p, 0, p, 0⟩ := by
  simp only [scan, runLength_emptySeq s h, Scan.visit, hb, le_refl, if_true]

/-- With an empty sequence the last candidate is the best, with run 0. -/
theorem scan_emptySeq {s : State} {we ss se : Nat} (h : se < ss) (count p : Nat) {b : Scan} (hb : b.bestLen = 0) :
    scan s we ss se (count + 1) p b = .ok ⟨p + count, 0, p + count, 0⟩ := by
  induction count generalizing p b with
  | zero => exact scan_succ_emptySeq h 0 p hb
  | succ count ih => rw [scan_succ_emptySeq h _ p hb, ih (p + 1) rfl, Nat.add_right_comm, Nat.add_assoc]

/-- Settles O18: with no candidate the scan keeps its start values; with an empty sequence every run is 0, and the
last candidate is the latest of equals. -/
theorem findPrefixOutsideItsContract : Obligations.FindPrefixOutsideItsContract := by
  intro ws we ss se s _
  constructor
  · intro hempty
    have hscan : scan s we ss se (we + 1 - ws) ws ⟨s.p, s.k.toNat, ws, 0⟩ = .ok ⟨s.p, s.k.toNat, ws, 0⟩ := by
      rw [Nat.sub_eq_zero_of_le hempty, scan]
    exact ⟨_, exec_findPrefix_eq_next.mpr ⟨_, hscan, rfl⟩, rfl, by simp⟩
  · intro hww hempty
    have hscan : scan s we ss se (we + 1 - ws) ws ⟨s.p, s.k.toNat, ws, 0⟩ = .ok ⟨we, 0, we, 0⟩ := by
      rw [Nat.sub_add_comm hww, scan_emptySeq hempty _ _ rfl, Nat.add_sub_cancel' hww]
    exact ⟨_, exec_findPrefix_eq_next.mpr ⟨_, hscan, rfl⟩, rfl, by simp⟩

/-! ### Two states with the same input (R88) -/

section
variable {s s' : State} (hn : s.n = s'.n) (hbytes : ∀ a, a < s.n → s.inByte a = s'.inByte a)
include hn hbytes

theorem readIn_congr (a : Nat) : readIn s a = readIn s' a := by
  rw [readIn, readIn, ← hn]
  split_ifs with ha
  · rw [hbytes a ha]
  · rfl

theorem runLength_congr (we ss se p fuel k : Nat) :
    runLength s we ss se p fuel k = runLength s' we ss se p fuel k := by
  induction fuel generalizing k with
  | zero => rfl
  | succ fuel ih => simp only [runLength, readIn_congr hn hbytes, ih]

/-- The scan looks at nothing but the parameters and the bytes of IN. -/
theorem scan_congr (hcfg : s.cfg = s'.cfg) (we ss se count p : Nat) (b : Scan) :
    scan s we ss se count p b = scan s' we ss se count p b := by
  induction count generalizing p b with
  | zero => rfl
  | succ count ih => simp only [scan, hcfg, runLength_congr hn hbytes, ih]

end

/-- What a candidate does to the best pair does not depend on the candidate before it. -/
theorem Scan.visit_best_congr {b b' : Scan} (hpos : b.bestPos = b'.bestPos) (hlen : b.bestLen = b'.bestLen)
    (p k : Nat) : b.visit p k = b'.visit p k := by
  rw [Scan.visit, Scan.visit, hpos, hlen]

/-- The best pair of a scan depends only on the best pair it starts with, not on what `p` and `k` held. -/
theorem scan_best_congr {s : State} {we ss se count p : Nat} {b b' c c' : Scan}
    (hc : scan s we ss se count p b = .ok c) (hc' : scan s we ss se count p b' = .ok c')
    (hpos : b.bestPos = b'.bestPos) (hlen : b.bestLen = b'.bestLen) :
    c.bestPos = c'.bestPos ∧ c.bestLen = c'.bestLen := by
  cases count with
  | zero =>
    cases hc
    cases hc'
    exact ⟨hpos, hlen⟩
  | succ count =>
    -- From the first candidate on the two scans are the same.
    simp only [scan, Scan.visit_best_congr hpos hlen] at hc hc'
    obtain rfl : c = c' := Except.ok.inj (hc.symm.trans hc')
    exact ⟨rfl, rfl⟩

/-- Settles O19: the two scans differ only in what `p` and `k` held before, which the best pair does not see. -/
theorem findPrefixIsPure : Obligations.FindPrefixIsPure := by
  intro ws we ss se s s' t t' hcfg hn hbytes ht ht'
  obtain ⟨b, hb, rfl⟩ := exec_findPrefix_eq_next.mp ht
  obtain ⟨b', hb', rfl⟩ := exec_findPrefix_eq_next.mp ht'
  rw [scan_congr hn hbytes hcfg] at hb
  obtain ⟨hpos, hlen⟩ := scan_best_congr hb hb' rfl rfl
  simp [hpos, hlen, hcfg]

/-! ### The search of the Encoder (R123) -/

/-- Settles O23: the sequence ends at `n - 2`, and the outputs go to `mp` and `ml`. -/
theorem searchRunsFindPrefix : Obligations.SearchRunsFindPrefix := by
  intro s
  constructor
  · intro hmore t ht
    rw [exec_findPrefix] at ht
    rw [encSearch_some hmore, ht, thenDo_next]
    rfl
  · exact fun hlast => ⟨notSearched s, encSearch_none hlast, rfl⟩

end Sys2Proof.Machine
end

section
/-! PROOFS. The Bitstream Framer (41_framer R100 to R107): what `FR.OPEN`, `FR.MARK`, `FR.PUT`, `FR.LOAD` and the two
counters change and leave unchanged, and the match token that the end of the stream cuts. -/

namespace Sys2Proof.Machine

/-! ### Encode side -/

/-- Settles O24: the two answers of `FR.OPEN`; the opened group's byte is the only one written. -/
theorem frOpenReservesAZeroByte : Obligations.FrOpenReservesAZeroByte := fun s =>
  ⟨fun hfull => frOpen_full hfull,
    fun hroom => ⟨opened s, frOpen_room hroom, rfl, opened_outByte_self s, fun _ ha => opened_outByte_other ha⟩⟩

theorem marked_outByte_self (s : State) : (marked s).outByte s.ctrlAddr = (marked s).ctrlAcc :=
  outByte_stored_same s s.ctrlAddr (markedControl s.ctrlAcc s.cnt)

theorem marked_outByte_other {s : State} {a : Nat} (h : a ≠ s.ctrlAddr) : (marked s).outByte a = s.outByte a :=
  outByte_stored_other s (markedControl s.ctrlAcc s.cnt) h

/-- Settles O25: a match marks bit `cnt` and stores the whole byte at `ctrl_addr`, a literal does nothing. -/
theorem frMarkSetsTheTokensBit : Obligations.FrMarkSetsTheTokensBit := fun s =>
  ⟨frMark_literal s,
    fun haddr => ⟨marked s, frMark_match haddr, rfl, controlBit_marked s.ctrlAcc s.cnt, marked_outByte_self s,
      fun _ ha => marked_outByte_other ha⟩⟩

section
variable (c : Byte) (isMatch : Bool) (offset : Offset) (length : Length) (s : State)

/-- The bytes of a token change nothing but OUT and the write cursor (R102). -/
theorem putBytes_frame : putBytes c isMatch offset length s =
    { s with out := (putBytes c isMatch offset length s).out, wr := s.wr + tokenNeed isMatch } := by
  cases isMatch <;> rfl

/-- From the old write cursor on stands the token's encoding (R65, R102). -/
theorem putBytes_encoding :
    (List.range (tokenNeed isMatch)).map (fun j => (putBytes c isMatch offset length s).outByte (s.wr + j)) =
      streamEncoding (if isMatch then .matchTok c offset length else .lit c) := by
  cases isMatch with
  | false => simp [putBytes, tokenNeed, streamEncoding, List.range_succ]
  | true =>
    have hfirst : s.wr ≠ s.wr + 1 + 1 := by omega
    simp [putBytes, tokenNeed, streamEncoding, List.range_succ, State.outByte, Memory.read_write, hfirst]

/-- No byte outside the token's own range is touched. -/
theorem putBytes_outByte_outside {a : Nat} (h : a < s.wr ∨ s.wr + tokenNeed isMatch ≤ a) :
    (putBytes c isMatch offset length s).outByte a = s.outByte a := by
  cases isMatch with
  | false => exact outByte_appended_other _ _ (by simp [tokenNeed] at h; omega)
  | true =>
    have hfar : a ≠ s.wr ∧ a ≠ s.wr + 1 ∧ a ≠ s.wr + 2 := by simp [tokenNeed] at h; omega
    obtain ⟨h0, h1, h2⟩ := hfar
    calc (putBytes c true offset length s).outByte a
        = (appended (appended s c) (packHigh offset)).outByte a := outByte_appended_other _ _ h2
      _ = (appended s c).outByte a := outByte_appended_other _ _ h1
      _ = s.outByte a := outByte_appended_other _ _ h0

end

/-- Settles O26: with room for the token no append of `FR.PUT` fails. -/
theorem frPutAppendsTheEncoding : Obligations.FrPutAppendsTheEncoding := fun c offset length isMatch s hroom =>
  ⟨putBytes c isMatch offset length s, frPut_room c isMatch offset length hroom,
    putBytes_frame c isMatch offset length s, putBytes_encoding c isMatch offset length s,
    fun _ ha => putBytes_outByte_outside c isMatch offset length s ha⟩

/-- Settles O27: the counter wraps at 7, and with it `FR.OPEN` runs. -/
theorem frNextEncOpensAfterTheEighth : Obligations.FrNextEncOpensAfterTheEighth := by
  intro s
  refine ⟨fun hinside => ⟨counted s, frNextEnc_inside hinside, rfl, count_next s.cnt hinside⟩, fun heighth => ?_⟩
  rw [frNextEnc_eighth heighth, counted, (count_wraps s.cnt).mpr heighth]

/-! ### Decode side -/

/-- A control byte is loaded in every state (R104). -/
theorem exec_ctrl (m : Byte) (s : State) : exec (.ctrl m) s = .next (loaded m s) := rfl

/-- Settles O12: inside the stream `FR.LOAD` answers what `CTRL` answers with the byte at `rd`. -/
theorem loadRunsTheControlByte : Obligations.LoadRunsTheControlByte := fun s =>
  ⟨fun m => exec_ctrl m s, fun hmore => (frLoad_ok hmore).trans (exec_ctrl (s.inByte s.rd) s).symm⟩

/-- Settles O28: the counter wraps at 7, and with it the next control byte is loaded where the stream has one. -/
theorem frNextDecLoadsAfterTheEighth : Obligations.FrNextDecLoadsAfterTheEighth := by
  intro s
  refine ⟨fun hinside => ⟨counted s, frNextDec_inside hinside, rfl, count_next s.cnt hinside⟩,
    fun heighth hmore => ?_, fun heighth hend => ?_⟩
  · rw [frNextDec_load heighth hmore, counted, (count_wraps s.cnt).mpr heighth]
    rfl
  · rw [frNextDec_end hend, counted, (count_wraps s.cnt).mpr heighth]

/-- The step at a match token that the end of the stream cuts: `c` is latched and passed, then the fault is raised
(R106, R153, R155). -/
theorem decStep_cut {s : State} (hmore : s.rd < s.n) (hmatch : frTest s = true) (hcut : s.n < s.rd + 3) :
    decStep s = .next (raised .corruptStream (fetched (s.inByte s.rd) s)) := by
  unfold decStep
  rcases fetchToken_cases (fun i t => unlessOver (exec i t) decGroup) hmore with
    ⟨hlit, -⟩ | ⟨-, -, h⟩ | ⟨-, hwhole, -⟩
  · rw [hmatch] at hlit
    cases hlit
  · exact h
  · omega

/-- Settles O11: the sequencer's `DEC.STEP` ends at the cut token, before its guards and before any store. -/
theorem cutMatchTokenIsCorrupt : Obligations.CutMatchTokenIsCorrupt := by
  intro s hhost hbusy hdecode hmore hmatch hcut
  rw [step_eq_sequencer hhost, sequencer_decode hbusy hdecode, decAdvance_step hmore, decStep_cut hmore hmatch hcut]
  rfl

end Sys2Proof.Machine
end

section
/-! PROOFS. The Encoder (42_encoder R120 to R138): an ENCODE beside the reference, the invariant of R135 under every
step, what one `ENC.STEP` consumes and writes, the tokens that are chosen, and the ends of an operation. -/

namespace Sys2Proof.Machine

/-! ### A whole ENCODE -/

/-- Settles O49: START opens the first group, and each iteration appends the reference's next token to the framing. -/
theorem encodeRefinesTheReference : Obligations.EncodeRefinesTheReference := fun _ hI hs hh =>
  encode_returns_reference hI hs hh

/-! ### The invariant under START -/

/-- The latches of an ENCODE without input keep the invariant (R121, R135). -/
theorem Inv.encodeEmpty {s : State} (hI : Inv s) (hn : s.inLen = 0) : Inv (encStarted (latch 0 s)) where
  params := hI.params
  realRun := hI.realRun
  policy := hI.policy
  inWf := hI.inWf
  outWf := hI.outWf
  reserved := hI.reserved
  noResult := hI.noResult
  notBoth _ := rfl
  encoding _ _ :=
    { cursor := Nat.zero_le _
      atStart := fun _ => ⟨rfl, rfl⟩
      window := fun h => absurd h (lt_irrefl 0)
      room := Nat.zero_le _
      group := fun h => absurd h (by simp [hn])
      unused := fun h => absurd h (by simp [hn]) }
  decoding _ h := absurd h (by simp)

theorem inv_encInit {s t : State} (hI : Inv s) (h : encInit (latch 0 s) = .next t) : Inv t := by
  rcases encInit_cases (latch 0 s) with ⟨hn, e⟩ | ⟨hn, hc, e⟩ | ⟨hn, hc, e⟩ <;> rw [e] at h <;> cases h
  · exact hI.encodeEmpty hn
  · exact Inv.of_idle rfl hI.params hI.realRun hI.policy hI.inWf hI.outWf (by simp) fun _ => rfl
  · exact hI.encodeOpened hc

/-- What a DECODE has latched keeps the invariant, with the control byte of its first group loaded or not (R151,
R163). -/
theorem Inv.decodeStarted {s t : State} (hI : Inv s) (hcfg : t.cfg = s.cfg) (hinp : t.inp = s.inp)
    (hout : t.out = s.out) (hstatus : t.status = s.status) (hlen : t.outLen = s.outLen) (hdone : t.done = false)
    (hopl : t.opl = 1) (hD : DecInv t) : Inv t where
  params := hcfg ▸ hI.params
  realRun := hcfg ▸ hI.realRun
  policy := hcfg ▸ hI.policy
  inWf := hinp ▸ hI.inWf
  outWf := hout ▸ hI.outWf
  reserved := hstatus ▸ hI.reserved
  noResult h := hlen.trans (hI.noResult (hstatus ▸ h))
  notBoth _ := hdone
  encoding _ h := absurd h (by simp [hopl])
  decoding _ _ := hD

theorem inv_decInit {s t : State} (hI : Inv s) (h : decInit (latch 1 s) = .next t) : Inv t := by
  rcases decInit_cases (latch 1 s) with ⟨hn, e⟩ | ⟨hn, e⟩ <;> rw [e] at h <;> cases h
  · exact hI.decodeStarted rfl rfl rfl rfl rfl rfl rfl ⟨Nat.zero_le _, Nat.zero_le _⟩
  · exact hI.decodeStarted rfl rfl rfl rfl rfl rfl rfl ⟨hn, Nat.zero_le _⟩

theorem inv_exec_command {o : OpCode} {s t : State} (hI : Inv s) (h : exec (decodeCommand o) s = .next t) :
    Inv t := by
  rcases opl_cases o with rfl | rfl
  · rcases start_eq_next (show start 0 encInit s = .next t from h) with rfl | h
    · exact hI
    · exact inv_encInit hI h
  · rcases start_eq_next (show start 1 decInit s = .next t from h) with rfl | h
    · exact hI
    · exact inv_decInit hI h

theorem inv_hostStart {v : Nat} {s t : State} (hI : Inv s) (h : hostStart v s = .next t) : Inv t := by
  unfold hostStart at h
  split_ifs at h
  · cases h; exact hI
  · exact inv_exec_command hI h

/-! ### The invariant under the accesses of the host -/

/-- What the host has read is no part of the invariant. -/
theorem Inv.hostDataRead {s : State} (hI : Inv s) (x : Nat) : Inv { s with hostData := x } where
  params := hI.params
  realRun := hI.realRun
  policy := hI.policy
  inWf := hI.inWf
  outWf := hI.outWf
  reserved := hI.reserved
  noResult := hI.noResult
  notBoth := hI.notBoth
  encoding hb ho :=
    have e := hI.encoding hb ho
    ⟨e.cursor, e.atStart, e.window, e.room, e.group, e.unused⟩
  decoding hb ho :=
    have d := hI.decoding hb ho
    ⟨d.cursor, d.room⟩

/-- An access that has a meaning on an idle machine only keeps the invariant where its memories are canonical and it
leaves the parameters and the report alone. -/
theorem inv_whileIdle {s u t : State} (hI : Inv s) (h : whileIdle s u = .next t) (hbusy : u.busy = s.busy)
    (hcfg : u.cfg = s.cfg) (hstatus : u.status = s.status) (hlen : u.outLen = s.outLen) (hinp : u.inp.wf = true)
    (hout : u.out.wf = true) : Inv t := by
  unfold whileIdle at h
  split_ifs at h with hb
  cases h
  exact Inv.of_idle (hbusy.trans (by simpa using hb)) (hcfg ▸ hI.params) (hcfg ▸ hI.realRun) (hcfg ▸ hI.policy)
    hinp hout (hstatus ▸ hI.reserved) fun h => hlen.trans (hI.noResult (hstatus ▸ h))

theorem inv_hostWrite {r : IfReg} {v : Nat} {s t : State} (hI : Inv s) (h : hostWrite r v s = .next t) : Inv t := by
  cases r with
  | op =>
    simp only [hostWrite] at h
    split_ifs at h
    exact inv_whileIdle hI h rfl rfl rfl rfl hI.inWf hI.outWf
  | inLen => exact inv_whileIdle hI h rfl rfl rfl rfl hI.inWf hI.outWf
  | outCap => exact inv_whileIdle hI h rfl rfl rfl rfl hI.inWf hI.outWf
  | start => cases h; exact hI
  | busy => cases h
  | done => cases h
  | status => cases h
  | outLen => cases h

theorem inv_hostRead {r : IfReg} {s t : State} (hI : Inv s) (h : hostRead r s = .next t) : Inv t := by
  unfold hostRead at h
  split at h <;> cases h
  exact hI.hostDataRead _

theorem inv_hardwareReset {s : State} (hI : Inv s) : Inv (hardwareReset s) :=
  Inv.of_idle rfl hI.params hI.realRun hI.policy hI.inWf hI.outWf (by simp [hardwareReset, State.reset])
    fun _ => rfl

theorem inv_hostAccess {a : HostAction} {s t : State} (hI : Inv s) (h : hostAccess a s = .next t) : Inv t := by
  cases a with
  | write r v => exact inv_hostWrite hI h
  | read r => exact inv_hostRead hI h
  | provideIn bytes => exact inv_whileIdle hI h rfl rfl rfl rfl (Memory.wf_ofBytes 0 bytes) hI.outWf
  | provideOut => exact inv_whileIdle hI h rfl rfl rfl rfl hI.inWf rfl
  | writeIn x v => exact inv_whileIdle hI h rfl rfl rfl rfl (Memory.wf_write x v hI.inWf) hI.outWf
  | readIn x => cases h; exact hI.hostDataRead _
  | writeOut x v => exact inv_whileIdle hI h rfl rfl rfl rfl hI.inWf (Memory.wf_write x v hI.outWf)
  | readOut x => exact inv_whileIdle hI h rfl rfl rfl rfl hI.inWf hI.outWf
  | reset => cases h; exact inv_hardwareReset hI
  | run => cases h; exact hI

theorem inv_hostStep {a : HostAction} {s t : State} (hI : Inv s) (h : hostStep a s = .next t) : Inv t := by
  rcases hostStep_eq_next h with ⟨_, _, h⟩ | ⟨_, h⟩ | h
  · exact inv_hostStart hI h
  · exact inv_sequencer hI h
  · exact inv_hostAccess hI h

/-- Settles O38: the sequencer keeps the invariant, and so does every action of the host, START and reset included. -/
theorem stepKeepsTheInvariant : Obligations.StepKeepsTheInvariant := by
  intro s t hI h
  cases hh : s.host with
  | nil =>
    rw [step_eq_sequencer hh] at h
    exact inv_sequencer hI h
  | cons a rest =>
    rw [step_eq_hostStep hh] at h
    exact inv_hostStep (hI.hosted rest) h

/-! ### One iteration -/

/-- An `ENC.STEP` as a step of the machine: the token `v` it takes, then how it ends (R138). -/
theorem step_encode {s : State} (hI : Inv s) (hh : s.host = []) (hb : s.busy = true) (ho : s.opl = 0)
    (hn : s.pos < s.n) : ∃ v t, step s = .next t ∧ Consumed s v ∧ IterationEnd v t := by
  obtain ⟨v, t, ht, hv, hend⟩ := encStep_spec hI (hI.encoding hb ho) hb hn
  exact ⟨v, t, by rw [step_eq_sequencer hh, sequencer_encode hb ho, encAdvance_step hn, ht], hv, hend⟩

section
variable {s v : State} (h : Consumed s v)
include h

theorem Consumed.busy : v.busy = s.busy := by rw [h.around.frame]
theorem Consumed.cap : v.cap = s.cap := by rw [h.around.frame]
theorem Consumed.cfg : v.cfg = s.cfg := by rw [h.around.frame]
theorem Consumed.wr : v.wr = s.wr := by rw [h.around.frame]
theorem Consumed.cnt : v.cnt = s.cnt := by rw [h.around.frame]
theorem Consumed.wStart : v.wStart = s.wStart := by rw [h.around.frame]
theorem Consumed.wEnd : v.wEnd = s.wEnd := by rw [h.around.frame]
theorem Consumed.ctrlAddr : v.ctrlAddr = s.ctrlAddr := by rw [h.around.frame]
theorem Consumed.ctrlAcc : v.ctrlAcc = s.ctrlAcc := by rw [h.around.frame]
theorem Consumed.out : v.out = s.out := by rw [h.around.frame]
theorem Consumed.outByte (a : Nat) : v.outByte a = s.outByte a := by rw [h.around.frame]; rfl

end

/-- What `ENC.CHECK` to `ENC.WINDOW` may touch. -/
theorem IterationEnd.frame {v t : State} (h : IterationEnd v t) :
    t = { v with
      out := t.out, wr := t.wr, cnt := t.cnt, wStart := t.wStart, wEnd := t.wEnd, ctrlAddr := t.ctrlAddr,
      ctrlAcc := t.ctrlAcc, busy := t.busy, done := t.done, status := t.status, outLen := t.outLen } := by
  have hf := emitted_frame v
  cases h with
  | full h => rfl
  | inGroup h hc => rw [hf]; rfl
  | groupFull h hc hr => rw [hf]; rfl
  | newGroup h hc hr => rw [hf]; rfl

/-- The bytes that a token takes in OUT: its own, and the next group's control byte after the 8th (R126, R128). -/
def iterationNeed (v : State) : Nat := tokenNeed v.isMatch + if v.cnt.toNat = 7 then 1 else 0

/-- What the end of the operation in an iteration leaves (R126, R128, R186). -/
structure Overfull (v t : State) : Prop where
  busy   : t.busy = false
  done   : t.done = true
  status : t.status = .outputBufferExhausted
  outLen : t.outLen = 0
  wStart : t.wStart = v.wStart
  wEnd   : t.wEnd = v.wEnd

/-- An iteration goes on exactly where its bytes fit. -/
theorem IterationEnd.went_or_overfull {v t : State} (h : IterationEnd v t) (hb : v.busy = true) :
    (v.wr + iterationNeed v ≤ v.cap ∧ Went v t) ∨ (v.cap < v.wr + iterationNeed v ∧ Overfull v t) := by
  unfold iterationNeed
  have hend := h
  have hf := emitted_frame v
  cases h with
  | full h => exact .inr ⟨by omega, rfl, rfl, rfl, rfl, rfl, rfl⟩
  | inGroup h hc =>
    exact .inl ⟨by rw [if_neg (by omega)]; omega, hend.went ((emitted_busy v).trans hb)⟩
  | groupFull h hc hr =>
    exact .inr ⟨by rw [if_pos hc]; omega, rfl, rfl, rfl, rfl, by rw [hf]; rfl, by rw [hf]; rfl⟩
  | newGroup h hc hr =>
    exact .inl ⟨by rw [if_pos hc]; omega, hend.went ((emitted_busy v).trans hb)⟩

/-- What an iteration may touch: the registers of the Encoder and the Match Finder, `wr` and `cnt`, OUT, and the report
of an operation that ends. -/
theorem iteration_frame {s v t : State} (hv : Consumed s v) (hend : IterationEnd v t) :
    t = { s with
      out := t.out, wr := t.wr, cnt := t.cnt, pos := t.pos, wStart := t.wStart, wEnd := t.wEnd,
      ctrlAddr := t.ctrlAddr, ctrlAcc := t.ctrlAcc, mp := t.mp, ml := t.ml, isMatch := t.isMatch,
      offset := t.offset, length := t.length, c := t.c, p := t.p, k := t.k, bestPos := t.bestPos,
      bestLen := t.bestLen, matchPosition := t.matchPosition, matchLength := t.matchLength,
      drawn := t.drawn, busy := t.busy, done := t.done, status := t.status, outLen := t.outLen } := by
  rw [hend.frame, hv.around.frame]

/-- The cursor moves past at least one byte. -/
theorem Consumed.pos_lt {s v : State} (h : Consumed s v) : s.pos < v.pos := by
  obtain ⟨hpos, -⟩ := h.pos
  rw [hpos]
  split_ifs <;> omega

/-- The window after an iteration that goes on: the last `min(pos, WINDOW_SIZE)` bytes (R129, R135 item 2). -/
theorem Went.window {s v t : State} (h : Went v t) (hI : Inv s) (hE : EncInv s) (hv : Consumed s v) :
    t.wEnd = t.pos - 1 ∧ t.wStart = t.pos - s.cfg.windowSize := by
  refine ⟨by rw [h.wEnd, h.pos], ?_⟩
  rw [h.wStart, h.pos, hv.cfg, hv.wStart]
  refine exactWindowStart_spec hI.params.1 hv.pos_lt ?_
  rcases Nat.eq_zero_or_pos s.pos with h0 | h0
  · exact .inl ⟨h0, (hE.atStart h0).1⟩
  · exact .inr ⟨h0, (hE.window h0).2⟩

/-- An iteration that goes on leaves the report alone. -/
theorem Went.report {s v t : State} (h : Went v t) (hv : Consumed s v) :
    t.done = s.done ∧ t.status = s.status ∧ t.outLen = s.outLen := by
  obtain ⟨-, -, hstatus, houtLen, -, -, -, -, hdone⟩ := h.rest
  rw [hdone, hstatus, houtLen, hv.around.frame]
  exact ⟨rfl, rfl, rfl⟩

/-- Settles O30: `ENC.CONSUME` moves the cursor, and the iteration goes on exactly where its bytes fit. -/
theorem encoderIterationAdvances : Obligations.EncoderIterationAdvances := by
  intro s hI hh hb ho hn
  obtain ⟨v, t, hstep, hv, hend⟩ := step_encode hI hh hb ho hn
  obtain ⟨hpos, hle, hlast⟩ := hv.pos
  obtain ⟨hmatch, -, hlength, hc, hcursor⟩ := hend.token
  have hframe := iteration_frame hv hend
  have hneed : s.wr + tokenNeed t.isMatch + (if s.cnt.toNat = 7 then 1 else 0) = v.wr + iterationNeed v := by
    rw [iterationNeed, hv.cnt, hv.wr, hmatch, Nat.add_assoc]
  refine ⟨t, hstep, ?_⟩
  rw [hneed, ← hv.cap]
  refine ⟨by rw [hcursor, hmatch, hlength, hpos], hcursor ▸ hle hn, by rw [hc, hcursor, hlast],
    by rw [hframe], by rw [hframe, hv.cap], by rw [hframe], by rw [hframe],
    by rw [hframe], ?_⟩
  rcases hend.went_or_overfull (hv.busy.trans hb) with ⟨hroom, hwent⟩ | ⟨hfull, hover⟩
  · refine ⟨fun _ => ?_, fun hfull => absurd hfull (by omega)⟩
    obtain ⟨hwEnd, hwStart⟩ := hwent.window hI (hI.encoding hb ho) hv
    obtain ⟨hdone, hstatus, houtLen⟩ := hwent.report hv
    exact ⟨hwent.busy.trans (hv.busy.trans hb), hdone, hstatus, houtLen, hwEnd, hwStart,
      hwent.cnt.trans (by rw [hv.cnt]), by rw [hwent.wr, iterationNeed, Nat.add_assoc]⟩
  · exact ⟨fun hroom => absurd hroom (by omega), fun _ => ⟨hover.busy, hover.done, hover.status, hover.outLen,
      hover.wEnd.trans hv.wEnd, hover.wStart.trans hv.wStart⟩⟩

/-! ### What an iteration writes -/

/-- The token that fits stands at the old write cursor, its bit in the control byte of its group, and a group that is
opened after it begins with a zero byte (R100, R101, R127, R128). -/
theorem IterationEnd.bytes {v t : State} (h : IterationEnd v t) (haddr : v.ctrlAddr < v.wr)
    (hroom : v.wr + tokenNeed v.isMatch ≤ v.cap) :
    (List.range (tokenNeed v.isMatch)).map (fun j => t.outByte (v.wr + j)) = streamEncoding (tok v) ∧
      t.outByte v.ctrlAddr = (if v.isMatch then markedControl v.ctrlAcc v.cnt else v.outByte v.ctrlAddr) ∧
      (v.cnt.toNat = 7 → v.wr + tokenNeed v.isMatch + 1 ≤ v.cap →
        t.outByte (v.wr + tokenNeed v.isMatch) = 0) := by
  obtain ⟨htoken, hcontrol, -⟩ := emitted_bytes v haddr
  have hbelow : ∀ a, a < v.wr + tokenNeed v.isMatch → t.outByte a = (emitted v).outByte a := by
    intro a ha
    rw [h.outByte, if_neg (by omega), if_neg (by omega)]
  refine ⟨htoken ▸ ?_, (hbelow v.ctrlAddr (by omega)).trans hcontrol, fun h7 hmore => ?_⟩
  · exact List.map_congr_left fun j hj => hbelow _ (Nat.add_lt_add_left (List.mem_range.mp hj) _)
  · rw [h.outByte, if_neg (by omega), if_pos ⟨h7, hmore, rfl⟩]

/-- Settles O31: `ENC.EMIT` writes the token where `ENC.CHECK` lets it pass, and `ENC.GROUP` opens the next group where
there is room for it. -/
theorem encoderIterationWritesItsToken : Obligations.EncoderIterationWritesItsToken := by
  intro s hI hh hb ho hn
  obtain ⟨v, t, hstep, hv, hend⟩ := step_encode hI hh hb ho hn
  obtain ⟨hmatch, hoffset, hlength, hc, -⟩ := hend.token
  have hframe := iteration_frame hv hend
  have hbusy : v.busy = true := hv.busy.trans hb
  have haddr : s.ctrlAddr < s.wr := (hI.encoding hb ho).group (by omega)
  refine ⟨t, hstep, hframe, fun hgoes => ?report, fun a ha hout => ?outside, ?_⟩
  case report => exact (hend.went hgoes).report hv
  case outside =>
    have hfill : t.outFill = s.outFill := by rw [hframe]
    obtain ⟨-, -, hstores, -⟩ := storesStayInTheBuffer s t hh hstep
    rw [State.outByte, State.outByte, hstores ho a ha hout, hfill]
  rw [hmatch, hoffset, hlength, hc, ← hv.wr, ← hv.cap, ← hv.cnt, ← hv.ctrlAddr, ← hv.ctrlAcc, ← hv.out,
    ← hv.outByte]
  have hcursor := hend.cursor hbusy
  constructor
  · intro hfull
    rcases hcursor with ⟨-, h⟩ | ⟨hroom, -⟩
    · exact h
    · omega
  · intro hroom
    obtain ⟨htoken, hcontrol, hzero⟩ := hend.bytes (by rwa [hv.ctrlAddr, hv.wr]) hroom
    rcases hcursor with ⟨hfull, -⟩ | ⟨-, hcnt, hgroup⟩
    · omega
    · refine ⟨htoken, hcontrol, hcnt, fun h7 hmore => ?_, fun hlast => ?_⟩
      · rcases hgroup with ⟨-, -, hgoes, hwr, hctrl, hacc⟩ | ⟨hlast, -⟩
        · exact ⟨hgoes, hwr, hctrl, hacc, hctrl ▸ hzero h7 hmore⟩
        · omega
      · rcases hgroup with ⟨h7, hmore, -⟩ | ⟨-, h⟩
        · omega
        · exact h

/-! ### The match tokens of an ENCODE -/

theorem matched_length {s : State} {b : Scan} (hmin : s.cfg.minMatch ≤ b.bestLen) (hlen : b.bestLen ≤ 15) :
    (searched (found b s)).ml.toNat = b.bestLen := by
  rw [searched_ml, found_matchLength, reportedLength_toNat hlen, if_neg (by omega)]

/-- Settles O32: a match token has the length and the source of the run that `FIND_PREFIX` found. -/
theorem matchTokensStayInTheWindow : Obligations.MatchTokensStayInTheWindow := by
  intro s u hI hh hb ho hn hu hm
  obtain ⟨v, t, hstep, hv, hend⟩ := step_encode hI hh hb ho hn
  obtain rfl : t = u := Host.Outcome.next.inj (hstep.symm.trans hu)
  obtain ⟨hmatch, hoffset, hlength, -⟩ := hend.token
  rw [hmatch] at hm
  rw [hoffset, hlength]
  obtain ⟨-, hwindow, -, -, -⟩ := hI.params
  have hmin := hI.realRun
  cases hv with
  | literal u hu h => cases hm
  | matched b h hb hl hlen hp hsrc hoff hlast =>
    have hbest : (consumedMatch (BitVec.ofNat 12 (s.pos - b.bestPos - 1)) (s.inByte (s.pos + b.bestLen))
        (searched (found b s))).length.toNat = b.bestLen := matched_length hl hlen
    have hdist : (BitVec.ofNat 12 (s.pos - b.bestPos - 1)).toNat + 1 = s.pos - b.bestPos := by
      rw [BitVec.toNat_ofNat, Nat.mod_eq_of_lt (by omega)]
      omega
    rw [hbest, consumedMatch_offset, hdist]
    refine ⟨hl, hb.run.capped, by omega, hoff, by omega, hlast, fun j hj => ?_⟩
    rw [show s.pos - (s.pos - b.bestPos) = b.bestPos by omega]
    exact hb.run.equal j hj

/-! ### The tokens that ENCODE chooses -/

theorem commonLength_le_left (c : Nat) (xs ys : List Byte) : commonLength c xs ys ≤ xs.length := by
  fun_induction commonLength c xs ys with
  | case1 => exact Nat.zero_le _
  | case2 c xs y ys ih => rw [List.length_cons]; omega
  | case3 => exact Nat.zero_le _
  | case4 => exact Nat.zero_le _

/-- A reported length fits the 4 bits of a token (R83). -/
theorem searchAt_le_maxSeqSize (cfg : Config) (data : List Byte) (pos : Nat) :
    (searchAt cfg data pos).2 ≤ cfg.maxSeqSize := by
  unfold searchAt
  split_ifs
  · exact (reportedLength_le _ _).trans (bestOf_runOf_le ..)
  · exact Nat.zero_le _

/-- At the start the window is the one byte at index 0, so no run is longer than 1 (R121). -/
theorem searchAt_zero_le (cfg : Config) (data : List Byte) : (searchAt cfg data 0).2 ≤ 1 := by
  unfold searchAt
  split_ifs
  · refine (reportedLength_le _ _).trans (bestOf_le (fun p => ?_) _ _ _ (Nat.zero_le _))
    have hrun := commonLength_le_left cfg.maxSeqSize (slice data p (0 - 1)) (slice data 0 (data.length - 2))
    have hslice := slice_length_le data p (0 - 1)
    rw [runOf]
    omega
  · exact Nat.zero_le _

/-- From any position on, the chosen tokens are well formed after the bytes before it (R70). -/
theorem greedyFrom_wellFormed {cfg : Config} (hcfg : cfg.valid) (hmin : 2 ≤ cfg.minMatch) (data : List Byte)
    (fuel pos : Nat) : tokensWellFormed cfg.minMatch pos (greedyFrom cfg data fuel pos) = true := by
  obtain ⟨-, -, -, -, hfour⟩ := hcfg
  induction fuel generalizing pos with
  | zero => rfl
  | succ fuel ih =>
    rw [greedyFrom]
    split_ifs with hpos
    · simp only
      split_ifs with hm
      · have hmax := searchAt_le_maxSeqSize cfg data pos
        have hlen : (BitVec.ofNat 4 (searchAt cfg data pos).2).toNat = (searchAt cfg data pos).2 := by
          rw [BitVec.toNat_ofNat, Nat.mod_eq_of_lt (by omega)]
        have hstart : 0 < pos := by
          rcases Nat.eq_zero_or_pos pos with rfl | h
          · have hone := searchAt_zero_le cfg data
            omega
          · exact h
        have hoff : (BitVec.ofNat 12 (pos - (searchAt cfg data pos).1 - 1)).toNat ≤ pos - 1 := by
          rw [BitVec.toNat_ofNat]
          exact (Nat.mod_le _ _).trans (by omega)
        simp only [tokensWellFormed, Instr.streamWellFormed, Instr.dataBytes, hlen, Bool.and_eq_true,
          decide_eq_true_eq]
        exact ⟨⟨hm, by omega⟩, ih _⟩
      · exact ih (pos + 1)
    · rfl

/-- Settles O34: the first token is a literal, and a later match starts after the bytes it refers to. -/
theorem chosenTokensAreWellFormed : Obligations.ChosenTokensAreWellFormed := fun _ data hcfg hmin =>
  greedyFrom_wellFormed hcfg hmin data data.length 0

/-! ### The inherited window (R130) -/

section
variable {s : State} (hpolicy : s.cfg.windowPolicy = .inherited)
include hpolicy

theorem encWindow_inherited_within (hsize : s.pos - 1 + 1 - s.wStart ≤ s.cfg.windowSize) (d : Bool) :
    encWindow d s = .next (windowMoved s.wStart s) := by
  simp only [encWindow, hpolicy, gt_iff_lt, Nat.not_lt.mpr hsize, if_false]

theorem encWindow_inherited_above (hsize : s.cfg.windowSize < s.pos - 1 + 1 - s.wStart) (d : Bool) :
    encWindow d s = inheritedShrink d s := by
  simp only [encWindow, hpolicy, gt_iff_lt, hsize, if_true]

end

theorem inheritedShrink_window {s : State} {w : Int}
    (hw : inheritedWindowStart s.cfg.windowSize s.wStart (s.pos - 1) s.mp = w)
    (h : ¬ noWindow s.cfg.windowSize w (s.pos - 1)) : inheritedShrink true s = .next (windowMoved w.toNat s) := by
  simp only [inheritedShrink, hw, h, if_true, if_false]

theorem inheritedShrink_noWindow {s : State} {w : Int}
    (hw : inheritedWindowStart s.cfg.windowSize s.wStart (s.pos - 1) s.mp = w)
    (h : noWindow s.cfg.windowSize w (s.pos - 1)) : inheritedShrink true s = .refused .windowUndefined := by
  simp only [inheritedShrink, hw, h, if_true]

/-- Settles O33: a window within the size keeps its start; a larger one gets the formula's, or none. -/
theorem inheritedWindowFormula : Obligations.InheritedWindowFormula := by
  intro s hpolicy
  refine ⟨encWindow_inherited_within hpolicy, fun hsize w hw => ?_⟩
  rw [encWindow_inherited_above hpolicy hsize]
  exact ⟨fun hlow hhigh hfits => inheritedShrink_window hw.symm (by unfold noWindow; omega),
    fun hnone => inheritedShrink_noWindow hw.symm hnone⟩

/-! ### The capacity check, and the end of an operation -/

/-- Settles O29: the size of the check is the token's own, 3 or 1. -/
theorem encCheckUsesTheRealSize : Obligations.EncCheckUsesTheRealSize := by
  intro s
  have hneed : tokenNeed s.isMatch = if s.isMatch then 3 else 1 := rfl
  rw [← hneed]
  refine ⟨fun hroom => ?_, fun hfull => ?_⟩
  · rw [encCheck, if_neg (by omega)]
  · rw [encCheck, if_pos hfull, raise_eq]
    rfl

/-- Settles O35: `ENC.FINISH` and `DEC.FINISH` are one rule. -/
theorem finishReportsTheBytesWritten : Obligations.FinishReportsTheBytesWritten := by
  rintro s hh hb (⟨ho, hn⟩ | ⟨ho, hn⟩)
  · rw [step_eq_sequencer hh, sequencer_encode hb ho, encAdvance_finish hn]
    rfl
  · rw [step_eq_sequencer hh, sequencer_decode hb ho, decAdvance_finish hn]
    rfl

end Sys2Proof.Machine
end

section
/-! PROOFS. The Decoder (43_decoder R150 to R166): what the two tokens do to a state, the step that fetches one, the
whole DECODE beside the reference algorithm, the capacity it is judged by, and the round trip with ENCODE. -/

namespace Sys2Proof.Machine

/-! ### DECODE -/

/-- Settles O48, by induction on the bytes left: a `DEC.STEP` is the reference's next token. -/
theorem decodeRefinesTheReference : Obligations.DecodeRefinesTheReference :=
  fun _ => decode_returns_reference

/-! ### The two tokens -/

theorem exec_lit (c : Byte) (s : State) : exec (.lit c) s = execLit c s := rfl

theorem exec_matchTok (c : Byte) (offset : Offset) (length : Length) (s : State) :
    exec (.matchTok c offset length) s = execMatch c offset length s := rfl

/-- Settles O8: the two answers of `LIT`; the byte at the write cursor is the only one stored. -/
theorem litAppendsItsByte : Obligations.LitAppendsItsByte := fun c s =>
  ⟨fun hroom => ⟨appended s c, execLit_room c hroom, rfl, outByte_appended_same s c,
    fun _ ha => outByte_appended_other s c ha⟩, fun hfull => execLit_full c hfull⟩

/-- Copied byte `m` of a match is the byte of `offset + 1` places back before the copy, repeated (R157). -/
theorem CopyDone.periodic {s t : State} {offset : Offset} {j : Nat} (h : CopyDone (copyReady offset s) j t)
    (hsrc : offset.toNat + 1 ≤ s.wr) {m : Nat} (hm : m < j) :
    t.outByte (s.wr + m) = s.outByte (s.wr - (offset.toNat + 1) + m % (offset.toNat + 1)) := by
  have hcopy : ∀ m, m < j → t.outByte (s.wr + m) = t.outByte (s.wr - (offset.toNat + 1) + m) := fun m hm => by
    have hbyte := h.copied m hm
    rwa [copyReady_wr, copyReady_src, copyReady_i, copySource, Nat.sub_sub] at hbyte
  have hmod := Nat.mod_lt m (Nat.succ_pos offset.toNat)
  rw [periodic_of_copy (Nat.succ_pos _) hsrc hcopy m hm, h.outByte (.inl (by rw [copyReady_wr]; omega))]
  rfl

/-- Settles O9: the copy loop repeats the bytes before the write cursor, and the trailing byte is appended after it. -/
theorem matchCopiesThenAppends : Obligations.MatchCopiesThenAppends := by
  intro c offset length s hsrc hlong hroom
  obtain ⟨t, hcopy, hexec⟩ := execMatch_ok c hsrc hlong hroom
  have hwr : t.wr = s.wr + length.toNat := hcopy.wr
  have hold : ∀ a, a ≠ s.wr + length.toNat → (appended t c).outByte a = t.outByte a := fun a ha =>
    outByte_appended_other t c (by rwa [hwr])
  refine ⟨appended t c, hexec, ?frame, fun j hj => ?copied, ?trailing, fun a ha => ?others⟩
  case frame =>
    have hi : (0 : Length) + BitVec.ofNat 4 length.toNat = length := by simp
    rw [appended, hwr, hcopy.frame, copyReady_i, hi]
    rfl
  case copied => rw [hold _ (by omega), hcopy.periodic hsrc hj]
  case trailing => rw [← hwr, outByte_appended_same]
  case others =>
    rw [hold a (by omega), hcopy.outByte (by rw [copyReady_wr]; omega)]
    rfl

theorem tooShort_eq_true {cfg : Config} {length : Length} :
    tooShort cfg length = true ↔ cfg.strictLength = true ∧ length.toNat < cfg.minMatch := by
  simp [tooShort]

theorem tooShort_eq_false {cfg : Config} {length : Length} :
    tooShort cfg length = false ↔ cfg.strictLength = false ∨ cfg.minMatch ≤ length.toNat := by
  rw [← Bool.not_eq_true, tooShort_eq_true, not_and_or, Bool.not_eq_true, Nat.not_lt]

/-- Settles O10: each guard of `MATCH` is judged where those before it pass. -/
theorem matchGuardsInOrder : Obligations.MatchGuardsInOrder := fun c _ length _ =>
  ⟨fun hsrc => execMatch_badOffset c length hsrc,
    fun hsrc hstrict hshort => execMatch_tooShort c hsrc (tooShort_eq_true.mpr ⟨hstrict, hshort⟩),
    fun hsrc hlong hfull => execMatch_full c hsrc (tooShort_eq_false.mpr hlong) hfull⟩

/-! ### The step that fetches a token -/

/-- Only bytes that hold all three of a match token decode to one (R64, R71). -/
theorem three_le_length_of_decodeToken {bytes rest : List Byte} {i : Instr} (h : decodeToken true bytes = .ok (i, rest)) :
    3 ≤ bytes.length := by
  obtain ⟨htoken, hkind, rfl⟩ := decodeToken_eq_ok h
  rw [List.length_append, streamEncoding_length htoken, hkind, if_pos rfl]
  exact Nat.le_add_right _ _

/-- Settles O21: the fetch finds the token that the bytes at `rd` decode to, and latches what its format has. -/
theorem stepRunsTheFetchedToken : Obligations.StepRunsTheFetchedToken := by
  intro s i rest hh hb ho hr hdecode
  have hstep : step s = fetchToken s fun i t => unlessOver (exec i t) decGroup := by
    rw [step_eq_sequencer hh, sequencer_decode hb ho, decAdvance_step hr]
    rfl
  rw [hstep]
  change decodeToken (frTest s) _ = _ at hdecode
  rcases fetchToken_cases (fun i t => unlessOver (exec i t) decGroup) hr with
    ⟨hk, hfetch⟩ | ⟨hk, hcut, -⟩ | ⟨hk, hn, hfetch⟩
  · rw [hk, inputBytes_drop hr] at hdecode
    cases hdecode
    exact ⟨litFetched s, hfetch, rfl, .inl ⟨rfl, rfl, rfl, rfl, rfl⟩⟩
  · rw [hk] at hdecode
    have hlen := three_le_length_of_decodeToken hdecode
    rw [List.length_drop, inputBytes_length] at hlen
    omega
  · rw [hk, inputBytes_drop hr, inputBytes_drop (show s.rd + 1 < s.n by omega),
      inputBytes_drop (show s.rd + 2 < s.n by omega)] at hdecode
    cases hdecode
    exact ⟨matchFetched s, hfetch, rfl, .inr ⟨rfl, rfl, rfl⟩⟩

/-! ### The capacity -/

theorem copyData_length (offset length : Nat) (out : List Byte) :
    (copyData offset length out).length = out.length + length := by
  induction length generalizing out with
  | zero => rfl
  | succ length ih =>
    rw [copyData, ih, List.length_append, List.length_singleton]
    omega

/-- What a token that fits some capacity comes to in any other: it is the size of its data that is judged. -/
structure TokenFits (cfg : Config) (cap : Nat) (out : List Byte) (i : Instr) (out' : List Byte) : Prop where
  grows : out.length ≤ out'.length
  fits  : out'.length ≤ cap
  other : ∀ cap', tokenData cfg cap' out i =
    if cap' < out'.length then .error .outputBufferExhausted else .ok out'

theorem tokenFits_of_ok {cfg : Config} {cap : Nat} {out out' : List Byte} {i : Instr} (ht : i.isToken = true)
    (h : tokenData cfg cap out i = .ok out') : TokenFits cfg cap out i out' := by
  cases i with
  | lit c =>
    simp only [tokenData] at h
    split_ifs at h with hfull
    cases h
    refine ⟨by simp, by simpa using hfull, fun cap' => ?_⟩
    rw [tokenData, List.length_append, List.length_singleton]
  | matchTok c offset length =>
    simp only [tokenData] at h
    split_ifs at h with hsrc hshort hfull
    cases h
    have hlen : (copyData offset.toNat length.toNat out ++ [c]).length = out.length + length.toNat + 1 := by
      rw [List.length_append, copyData_length, List.length_singleton]
    refine ⟨by omega, by omega, fun cap' => ?_⟩
    rw [tokenData, if_neg hsrc, if_neg hshort, hlen]
  | ctrl m => cases ht
  | encode => cases ht
  | decode => cases ht
  | findPrefix ws we ss se => cases ht

/-- No token raises `OK`. -/
theorem tokenData_ne_error_ok (cfg : Config) (cap : Nat) (out : List Byte) (i : Instr) :
    tokenData cfg cap out i ≠ .error .ok := by
  unfold tokenData
  split
  · split_ifs <;> simp
  · split_ifs <;> simp
  all_goals simp

/-- What a stream that decodes within some capacity comes to in any other, from data that fits both. -/
structure DecodeFits (cfg : Config) (cap : Nat) (g : GroupState) (out input data : List Byte) : Prop where
  grows : out.length ≤ data.length
  fits  : data.length ≤ cap
  other : ∀ cap', out.length ≤ cap' → decodeData cfg cap' g out input = fitting cap' data

/-- One token before such a stream. -/
theorem DecodeFits.cons {cfg : Config} {cap : Nat} {m : Byte} {k : Count} {i : Instr}
    {out out' rest data : List Byte} (ht : i.isToken = true) (hk : controlBit m k = i.kind)
    (hi : TokenFits cfg cap out i out') (h : DecodeFits cfg cap (nextInGroup m k) out' rest data) :
    DecodeFits cfg cap (some (m, k)) out (streamEncoding i ++ rest) data where
  grows := hi.grows.trans h.grows
  fits := h.fits
  other cap' _ := by
    rw [decodeData_token ht hk, hi.other]
    split_ifs with hfull
    · rw [fitting, if_neg (Nat.not_le.mpr (hfull.trans_le h.grows))]
      rfl
    · exact h.other cap' (Nat.le_of_not_lt hfull)

theorem streamEncoding_decodeMatch (c b1 b2 : Byte) (rest : List Byte) :
    streamEncoding (decodeMatch c b1 b2) ++ rest = c :: b1 :: b2 :: rest := by
  simp [decodeMatch, streamEncoding]

theorem decodeFits_of_ok {cfg : Config} {cap : Nat} {g : GroupState} {out input data : List Byte}
    (hout : out.length ≤ cap) (h : decodeData cfg cap g out input = (.ok, data)) :
    DecodeFits cfg cap g out input data := by
  fun_induction decodeData cfg cap g out input with
  | case1 g out =>
    cases h
    exact ⟨le_refl _, hout, fun cap' hcap' => by rw [decodeData, fitting, if_pos hcap']⟩
  | case2 out m rest ih =>
    obtain ⟨hgrows, hfits, hother⟩ := ih hout h
    exact ⟨hgrows, hfits, hother⟩
  | case3 m k out c rest hbit out' htoken ih =>
    have hi := tokenFits_of_ok rfl htoken
    exact .cons rfl hbit hi (ih hi.fits h)
  | case4 m k out c rest hbit f htoken =>
    cases h
    exact absurd htoken (tokenData_ne_error_ok cfg cap out _)
  | case5 m k out c b1 b2 rest hbit out' htoken ih =>
    have hi := tokenFits_of_ok rfl htoken
    rw [← streamEncoding_decodeMatch]
    exact .cons rfl hbit hi (ih hi.fits h)
  | case6 m k out c b1 b2 rest hbit f htoken =>
    cases h
    exact absurd htoken (tokenData_ne_error_ok cfg cap out _)
  | case7 => cases h

/-- Settles O52, by induction over the stream: every token's capacity check is exact. -/
theorem decodeCapacityIsExact : Obligations.DecodeCapacityIsExact := by
  intro cfg cap cap' input data h
  obtain ⟨-, hfits, hother⟩ := decodeFits_of_ok (Nat.zero_le cap) h
  exact ⟨hfits, hother cap' (Nat.zero_le cap')⟩

/-! ### The round trip: ENCODE -/

theorem encInit_host {s t : State} (h : encInit s = .next t) : t.host = s.host := by
  rcases encInit_cases s with ⟨_, e⟩ | ⟨_, _, e⟩ | ⟨_, _, e⟩ <;> rw [e] at h <;> cases h <;> rfl

/-- Whatever an ENCODE from a ready state ends in, it returns what the reference algorithm gives. -/
theorem endsIn_encode_returned {s t : State} {k : Nat} (hI : Inv s) (hs : Ready s) (hh : s.host = [])
    (h : endsIn (exec .encode s) k t) :
    returned t = referenceEncode s.cfg s.outCap (inputBytes s s.inLen) := by
  obtain ⟨u, hu⟩ := encInit_completes (latch 0 s)
  obtain ⟨k', t', -, hend, hret⟩ := encode_returns_reference hI hs hh
  rw [exec_encode, hs.start_eq, hu] at h hend
  rw [endsIn_unique ((encInit_host hu).trans hh) h hend, hret]

/-- An ENCODE that ended with `OK` has left the whole stream of the reference in OUT (R134). -/
theorem endsIn_encode_ok {s t : State} {k : Nat} (hI : Inv s) (hs : Ready s) (hh : s.host = [])
    (h : endsIn (exec .encode s) k t) (hok : t.status = .ok) :
    outputBytes t t.outLen = encodedStream s.cfg (inputBytes s s.inLen) := by
  have hret := endsIn_encode_returned hI hs hh h
  rw [referenceEncode_eq, fitting, returned, hok] at hret
  split_ifs at hret
  · exact congrArg Prod.snd hret
  · cases hret

/-! ### The round trip: the framing -/

/-- Tokens under computed control bytes are full groups and a last group that its control byte marks. -/
theorem encodeStream_groups_append {full last : List Instr} (h8 : full.length % 8 = 0) (hlast : last.length < 8) :
    encodeStream (groups (full ++ last)) = streamEndingIn full (groupControl 0 last) last := by
  obtain ⟨G, hG⟩ := groups_split (full.length / 8) full (by omega)
  have hfull : (groups full).dropLast = G := by
    have hnil := hG []
    rw [List.append_nil] at hnil
    rw [hnil]
    exact List.dropLast_concat
  rw [hG, groups_short hlast, streamEndingIn, hfull, encodeStream_append, encodeStream_cons]
  rfl

/-- Of a stream as ENC frames it the reference DECODE makes what its tokens do to the data (R61, R68, R162). -/
theorem referenceDecode_assemble {toks : List Instr} (ht : ∀ t ∈ toks, t.isToken = true) (cfg : Config) (cap : Nat) :
    referenceDecode cfg cap (encodeStream (assemble toks)) =
      andDecode (tokensData cfg cap [] toks) fun out => (.ok, out) := by
  rcases eq_or_ne toks [] with rfl | hne
  · rfl
  · have hlast : (toks.drop (8 * (toks.length / 8))).length < 8 := by rw [List.length_drop]; omega
    have h8 : (toks.take (8 * (toks.length / 8))).length % 8 = 0 := by rw [List.length_take]; omega
    have hframed := encodeStream_groups_append h8 hlast
    have href := referenceDecode_streamEndingIn h8 (fun t h => ht t (List.mem_of_mem_take h)) hlast.le
      (fun t h => ht t (List.mem_of_mem_drop h)) (marks_groupControl hlast.le) cfg cap
    rw [List.take_append_drop] at hframed href
    rw [assemble_of_ne_nil hne, hframed, href]

/-! ### The round trip: the chosen tokens -/

theorem commonLength_getElem? {c : Nat} {xs ys : List Byte} {j : Nat} (h : j < commonLength c xs ys) :
    xs[j]? = ys[j]? := by
  fun_induction commonLength c xs ys generalizing j with
  | case1 => omega
  | case2 c x xs ys ih =>
    cases j with
    | zero => rfl
    | succ j => exact ih (by omega)
  | case3 => omega
  | case4 => omega

theorem slice_getElem? {data : List Byte} {a b j : Nat} (h : j < (slice data a b).length) :
    (slice data a b)[j]? = data[a + j]? := by
  have hlen := slice_length_le data a b
  rw [slice, List.getElem?_drop, List.getElem?_take_of_lt (by omega)]

/-- The bytes of a run are equal to those it is compared with (R83). -/
theorem runOf_getElem? {cfg : Config} {data : List Byte} {we ss se p j : Nat} (h : j < runOf cfg data we ss se p) :
    data[p + j]? = data[ss + j]? := by
  have hcommon : j < commonLength cfg.maxSeqSize (slice data p we) (slice data ss se) := h
  rw [← slice_getElem? (hcommon.trans_le (commonLength_le_left ..)),
    ← slice_getElem? (hcommon.trans_le (commonLength_le_right ..))]
  exact commonLength_getElem? hcommon

/-- The best pair is the one the scan started with, or a candidate and its run (R84). -/
theorem bestOf_cases (run : Nat → Nat) (count p : Nat) (best : Nat × Nat) :
    bestOf run count p best = best ∨
      ∃ q, p ≤ q ∧ q < p + count ∧ bestOf run count p best = (q, run q) := by
  induction count generalizing p best with
  | zero => exact .inl rfl
  | succ count ih =>
    rw [bestOf]
    rcases ih (p + 1) (if best.2 ≤ run p then (p, run p) else best) with h | ⟨q, hlo, hhi, h⟩
    · rw [h]
      split_ifs
      · exact .inr ⟨p, le_refl p, by omega, rfl⟩
      · exact .inl rfl
    · exact .inr ⟨q, by omega, by omega, h⟩

theorem reportedLength_of_pos {m b : Nat} (h : 0 < reportedLength m b) : reportedLength m b = b := by
  unfold reportedLength at h ⊢
  split_ifs at h ⊢
  · exact absurd h (lt_irrefl 0)
  · rfl

/-- A pair with a length is a candidate and its run (R84, R85). -/
theorem findPrefix_candidate {cfg : Config} {data : List Byte} {ws we ss se : Nat}
    (h : 0 < (findPrefix cfg data ws we ss se).2) :
    ∃ p, ws ≤ p ∧ p ≤ we ∧ findPrefix cfg data ws we ss se = (p, runOf cfg data we ss se p) := by
  rw [findPrefix] at h ⊢
  rcases bestOf_cases (runOf cfg data we ss se) (we + 1 - ws) ws (ws, 0) with hb | ⟨p, hlo, hhi, hb⟩
  · rw [hb] at h
    simp only [reportedLength_zero, lt_irrefl] at h
  · rw [hb] at h ⊢
    exact ⟨p, hlo, by omega, congrArg (Prod.mk p) (reportedLength_of_pos h)⟩

/-- A match that ENCODE chooses: its source is in the window and is equal to the bytes that the match covers, which
leave the trailing byte in the input (R123, R124, R129). -/
structure MatchFound (cfg : Config) (data : List Byte) (pos src len : Nat) : Prop where
  before  : src < pos
  inside  : pos ≤ src + cfg.windowSize
  capped  : len ≤ cfg.maxSeqSize
  inInput : pos + len < data.length
  equal   : ∀ j, j < len → data[src + j]? = data[pos + j]?

theorem searchAt_matchFound {cfg : Config} (hmin : 2 ≤ cfg.minMatch) {data : List Byte} {pos : Nat}
    (h : cfg.minMatch ≤ (searchAt cfg data pos).2) :
    MatchFound cfg data pos (searchAt cfg data pos).1 (searchAt cfg data pos).2 := by
  have hcapped := searchAt_le_maxSeqSize cfg data pos
  have hinside := searchAt_le cfg data pos
  have hpos : 0 < pos := by
    rcases Nat.eq_zero_or_pos pos with rfl | hpos
    · have hone := searchAt_zero_le cfg data
      omega
    · exact hpos
  have hlong : 0 < (searchAt cfg data pos).2 := by omega
  have hsearch : searchAt cfg data pos =
      findPrefix cfg data (pos - cfg.windowSize) (pos - 1) pos (data.length - 2) := if_pos (by omega)
  rw [hsearch] at hlong
  obtain ⟨src, hlo, hhi, hfound⟩ := findPrefix_candidate hlong
  rw [hsearch, hfound] at hcapped hinside ⊢
  rw [hfound] at hlong
  exact ⟨by omega, by omega, hcapped, by omega, fun j hj => runOf_getElem? hj⟩

/-! ### The round trip: DECODE -/

theorem take_append_getD {data : List Byte} {pos : Nat} (h : pos < data.length) :
    data.take pos ++ [data.getD pos 0] = data.take (pos + 1) := by
  rw [List.getD_eq_getElem _ _ h, List.take_append_getElem]

/-- Where the data repeats from `offset + 1` places back, copying goes on with the data (R157). -/
theorem copyData_take {data : List Byte} {offset len pos : Nat} (hsrc : offset + 1 ≤ pos)
    (hin : pos + len ≤ data.length) (heq : ∀ j, j < len → data[pos - offset - 1 + j]? = data[pos + j]?) :
    copyData offset len (data.take pos) = data.take (pos + len) := by
  induction len generalizing pos with
  | zero => rfl
  | succ len ih =>
    have hlen : (data.take pos).length = pos := List.length_take_of_le (by omega)
    have hbyte : (data.take pos).getD (pos - offset - 1) 0 = data.getD pos 0 := by
      rw [List.getD_eq_getElem?_getD, List.getElem?_take_of_lt (by omega), List.getD_eq_getElem?_getD]
      exact congrArg (Option.getD · 0) (heq 0 (by omega))
    rw [copyData, hlen, hbyte, take_append_getD (by omega), ih (by omega) (by omega) fun j hj => ?_,
      Nat.add_right_comm, Nat.add_assoc]
    have hnext := heq (j + 1) (by omega)
    rwa [show pos - offset - 1 + (j + 1) = pos + 1 - offset - 1 + j by omega,
      show pos + (j + 1) = pos + 1 + j by omega] at hnext

/-- A literal token decodes to its byte of the data (R125, R154). -/
theorem tokenData_literal {cfg : Config} {cap : Nat} {data : List Byte} {pos : Nat} (hcap : data.length ≤ cap)
    (hpos : pos < data.length) :
    tokenData cfg cap (data.take pos) (.lit (data.getD pos 0)) = .ok (data.take (pos + 1)) := by
  rw [tokenData, List.length_take_of_le hpos.le, if_neg (by omega), take_append_getD hpos]

/-- A chosen match token decodes to the bytes that it covers and its trailing byte (R124, R156 to R158). -/
theorem tokenData_match {cfg : Config} {cap : Nat} {data : List Byte} {pos src len : Nat} (hcfg : cfg.valid)
    (hcap : data.length ≤ cap) (hlong : cfg.minMatch ≤ len) (h : MatchFound cfg data pos src len) :
    tokenData cfg cap (data.take pos)
        (.matchTok (data.getD (pos + len) 0) (BitVec.ofNat 12 (pos - src - 1)) (BitVec.ofNat 4 len)) =
      .ok (data.take (pos + len + 1)) := by
  obtain ⟨-, hwindow, -, -, hfour⟩ := hcfg
  obtain ⟨hbefore, hinside, hcapped, hin, hequal⟩ := h
  have hoffset : (BitVec.ofNat 12 (pos - src - 1)).toNat = pos - src - 1 := by
    rw [BitVec.toNat_ofNat, Nat.mod_eq_of_lt (by omega)]
  have hlength : (BitVec.ofNat 4 len).toNat = len := by
    rw [BitVec.toNat_ofNat, Nat.mod_eq_of_lt (by omega)]
  have hstrict : ¬ tooShort cfg (BitVec.ofNat 4 len) = true := by
    rw [tooShort_eq_true, hlength]
    omega
  have hcopy : copyData (pos - src - 1) len (data.take pos) = data.take (pos + len) :=
    copyData_take (by omega) hin.le fun j hj => by
      rw [show pos - (pos - src - 1) - 1 = src by omega]
      exact hequal j hj
  rw [tokenData, List.length_take_of_le (by omega), hoffset, hlength, if_neg (by omega), if_neg hstrict,
    if_neg (by omega), hcopy, take_append_getD hin]

theorem tokensData_cons {cfg : Config} {cap : Nat} {out out' : List Byte} {t : Instr}
    (h : tokenData cfg cap out t = .ok out') (ts : List Instr) :
    tokensData cfg cap out (t :: ts) = tokensData cfg cap out' ts := by
  rw [tokensData, List.foldlM_cons, h]
  rfl

/-- From any position on, the chosen tokens take the data before it to the whole data (R135 item 7, R165). -/
theorem tokensData_greedyFrom {cfg : Config} (hcfg : cfg.valid) (hmin : 2 ≤ cfg.minMatch) {cap : Nat}
    {data : List Byte} (hcap : data.length ≤ cap) {fuel pos : Nat} (hfuel : data.length ≤ pos + fuel) :
    tokensData cfg cap (data.take pos) (greedyFrom cfg data fuel pos) = .ok data := by
  induction fuel generalizing pos with
  | zero => rw [greedyFrom, List.take_of_length_le (by omega)]; rfl
  | succ fuel ih =>
    rw [greedyFrom]
    split_ifs with hpos
    · simp only
      split_ifs with hm
      · rw [tokensData_cons (tokenData_match hcfg hcap hm (searchAt_matchFound hmin hm))]
        exact ih (by omega)
      · rw [tokensData_cons (tokenData_literal hcap hpos)]
        exact ih (by omega)
    · rw [List.take_of_length_le (by omega)]; rfl

/-- The reference algorithms undo each other (R165). -/
theorem referenceDecode_encodedStream {cfg : Config} (hcfg : cfg.valid) (hmin : 2 ≤ cfg.minMatch) {cap : Nat}
    {data : List Byte} (hcap : data.length ≤ cap) :
    referenceDecode cfg cap (encodedStream cfg data) = (.ok, data) := by
  have hdata : tokensData cfg cap [] (greedyTokens cfg data) = .ok data :=
    tokensData_greedyFrom hcfg hmin hcap (pos := 0) (Nat.le_add_left _ _)
  have htokens : ∀ t ∈ greedyTokens cfg data, t.isToken = true := greedyFrom_tokens cfg data data.length 0
  rw [encodedStream, referenceDecode_assemble htokens, hdata]
  rfl

/-- Settles O50: what ENCODE returned is the reference's stream, and the reference DECODE takes it back. -/
theorem decodeOfEncodeIsTheInput : Obligations.DecodeOfEncodeIsTheInput := by
  intro s t u k hI hs hh hend hok _ hu hhu hcfg _ hstream hcap
  obtain ⟨k', v, -, hend', hret⟩ := decode_returns_reference hu hhu
  refine ⟨k', v, hend', hret.trans ?_⟩
  rw [hstream, endsIn_encode_ok hI hs hh hend hok, hcfg]
  exact referenceDecode_encodedStream hI.params hI.realRun (by rwa [inputBytes_length])

end Sys2Proof.Machine
end

section
/-! PROOFS. Exceptions (60_exceptions R180 to R186): how an operation ends, and what `raise` leaves. -/

namespace Sys2Proof.Machine

/-- Settles O37: whatever the rules of an operation answer, they keep the report as it is or leave it as an operation
that has ended does, and only a `DEC.STEP` raises CorruptStream. -/
theorem operationsEndInThreeWays : Obligations.OperationsEndInThreeWays := by
  intro s t hh hb h
  rw [step_eq_sequencer hh] at h
  rcases (keeps_sequencer s t h).report with ⟨hbusy, hdone, hstatus, hlen⟩ | ended
  · exact .inl ⟨hbusy.trans hb, hdone, hstatus, hlen⟩
  · exact .inr ⟨ended.idle, ended.done, ended.status⟩

/-- Settles O36: `raise` answers next, and `raised` writes the four registers of the report and no other field. -/
theorem raiseEndsTheOperation : Obligations.RaiseEndsTheOperation := fun f s => raise_eq f s

end Sys2Proof.Machine
end

section
/-! PROOFS. Reset and hazards (70_reset R197 to R214): an operation ends within its bound, its result forgets what the
machine did before, an idle machine waits, and the host's accesses while an operation is in flight. -/

namespace Sys2Proof.Machine

/-! ### An operation ends (R214) -/

/-- The bytes of input that the operation in flight has not consumed: the measure of its progress. -/
def inputLeft (s : State) : Nat := if s.opl = 0 then s.n - s.pos else s.n - s.rd

theorem inputLeft_encode {s : State} (ho : s.opl = 0) : inputLeft s = s.n - s.pos := by simp [inputLeft, ho]

theorem inputLeft_decode {s : State} (ho : s.opl = 1) : inputLeft s = s.n - s.rd := by simp [inputLeft, ho]

/-- A step that leaves the operation in flight has taken a token, and a token covers at least one byte. -/
theorem SequencerStep.inputLeft_lt {s t : State} (h : SequencerStep s t) (hI : Inv s) (hk : Kept s t)
    (hb : s.busy = true) (hbusy : t.busy = true) : inputLeft t < inputLeft s := by
  have hn' := hk.n
  cases h with
  | idle hidle => simp [hb] at hidle
  | encFinish => cases hbusy
  | decFinish => cases hbusy
  | encStep v t _ ho hn hv ht =>
    have hpos : s.pos < t.pos := by
      rw [(ht.went hbusy).pos, hv.pos.1]
      split_ifs <;> omega
    rw [inputLeft_encode ho, inputLeft_encode (hk.opl.trans ho)]
    omega
  | decStep t _ ho hn ht =>
    obtain ⟨-, -, hrd⟩ := (ht.facts hn hI.outWf).2 hbusy
    rw [inputLeft_decode ho, inputLeft_decode (hk.opl.trans ho)]
    omega

/-- A step of an operation in flight ends it, or leaves it in flight with less input to consume. -/
theorem step_ends_or_advances {s : State} (hI : Inv s) (hh : s.host = []) (hb : s.busy = true) :
    ∃ t, step s = .next t ∧ (Ended t ∨ (t.busy = true ∧ inputLeft t < inputLeft s)) := by
  obtain ⟨t, hseq, hstep⟩ := sequencer_spec hI
  have hk := keeps_sequencer s t hseq
  refine ⟨t, (step_eq_sequencer hh).trans hseq, ?_⟩
  rcases hk.report with ⟨hbusy, -⟩ | ended
  · exact .inr ⟨hbusy.trans hb, hstep.inputLeft_lt hI hk hb (hbusy.trans hb)⟩
  · exact .inl ⟨ended.idle, ended.done⟩

/-- An operation in flight ends within one step per byte of input left, and one more. -/
theorem operation_ends {s : State} (hI : Inv s) (hh : s.host = []) (hb : s.busy = true) :
    ∃ k t, k ≤ inputLeft s + 1 ∧ Sys2Proof.core.run k s = .next t ∧ Ended t := by
  induction hm : inputLeft s using Nat.strong_induction_on generalizing s with
  | _ left ih =>
    obtain ⟨t, hstep, hended | ⟨hbusy, hlt⟩⟩ := step_ends_or_advances hI hh hb
    · exact ⟨1, t, by omega, run_succ hstep 0, hended⟩
    · obtain ⟨hIt, hht⟩ := step_keeps_inv_without_host ⟨hI, hh⟩ hstep
      obtain ⟨k, u, hk, hrun, hu⟩ := ih (inputLeft t) (hm ▸ hlt) hIt hht hbusy rfl
      exact ⟨k + 1, u, by omega, (run_succ hstep k).trans hrun, hu⟩

/-- Settles O42, by induction on the input left: every step consumes some of it or ends the operation. -/
theorem operationsTerminate : Obligations.OperationsTerminate := fun _ hI hh hb => operation_ends hI hh hb

/-! ### Nothing of the past is left in a result (R201) -/

/-- Settles O53: either command returns what its reference algorithm makes of the parameters, the capacity and the
input bytes, in which the two states agree. -/
theorem resultsForgetThePast : Obligations.ResultsForgetThePast := by
  intro s s' t t' k k' hI hI' hs hs' hh hh' hcfg _ hcap hin
  constructor
  · intro hend hend'
    rw [endsIn_encode_returned hI hs hh hend, endsIn_encode_returned hI' hs' hh' hend', hcfg, hcap, hin]
  · intro hend hend'
    rw [endsIn_decode_returned hs hh hend, endsIn_decode_returned hs' hh' hend', hcfg, hcap, hin]

/-! ### An idle machine (R197, R201) -/

/-- Settles O43: without the host a step is the sequencer's, which waits while no operation is in flight. -/
theorem idleMachineWaits : Obligations.IdleMachineWaits := fun _ hh hb =>
  (step_eq_sequencer hh).trans (sequencer_idle hb)

/-! ### The host while an operation is in flight (R206) -/

theorem whileIdle_busy {s : State} (t : State) (h : s.busy = true) :
    whileIdle s t = .refused .hostDuringOperation := by
  simp [whileIdle, h]

/-- A step in which the host makes an access that has a meaning on an idle machine only. -/
theorem step_whileIdle_refused {s t : State} {a : HostAction} {rest : List HostAction} (hh : s.host = a :: rest)
    (hb : s.busy = true)
    (ha : hostStep a { s with host := rest } = whileIdle { s with host := rest } t) :
    step s = .refused .hostDuringOperation := by
  rw [step_eq_hostStep hh, ha]
  exact whileIdle_busy t hb

/-- A write of either value to `START` of a busy machine is ignored (R24). -/
theorem hostStart_busy {v : Nat} (hv : v < 2) {s : State} (hb : s.busy = true) : hostStart v s = .next s := by
  obtain rfl | rfl : v = 0 ∨ v = 1 := by omega
  · rfl
  · exact exec_command_busy s.op hb

/-- The registers that give the host the value they hold; `START` holds none and reads as 0. -/
theorem readRegister_plain {s : State} {p : IfReg × Nat}
    (hp : p ∈ [(IfReg.op, s.op.toNat), (.inLen, s.inLen), (.outCap, s.outCap), (.start, 0), (.outLen, s.outLen)]) :
    readRegister s p.1 = .ok p.2 := by
  simp only [List.mem_cons, List.not_mem_nil, or_false] at hp
  rcases hp with rfl | rfl | rfl | rfl | rfl <;> rfl

/-- Settles O55: each access is one case of the host interface, on a busy machine. -/
theorem hostKeepsOutOfTheOperation : Obligations.HostKeepsOutOfTheOperation := by
  intro s rest v w a b bytes hb hv
  refine ⟨?duringOperation, ?writeStart, ?readBusy, ?readDone, ?readPlain, ?readStatus, ?readIn, ?readOnly,
    ?upperBits, ?reservedStatus⟩
  case duringOperation =>
    rintro (hh | hh | hh | hh | hh | hh | hh | hh)
    · exact step_whileIdle_refused hh hb (hostWrite_op hv _)
    all_goals exact step_whileIdle_refused hh hb rfl
  case writeStart => exact fun hh => (step_eq_hostStep hh).trans (hostStart_busy hv hb)
  case readBusy => exact fun hh => step_read hh (by simp [readRegister, hb, bitValue])
  case readDone => exact fun hh => step_read hh rfl
  case readPlain => exact fun p hp hh => step_read hh (readRegister_plain hp)
  case readStatus =>
    intro hh hs
    rw [step_read hh (readRegister_status hs)]
    cases s.status <;> rfl
  case readIn => exact fun hh => step_eq_hostStep hh
  case readOnly => exact fun r hr hh => (step_eq_hostStep hh).trans (hostStep_write_readOnly hr w _)
  case upperBits => exact fun r hr hh => (step_eq_hostStep hh).trans (hostStep_write_upperBits hr w _)
  case reservedStatus => exact fun hh hs => step_read_refused hh (readRegister_reservedStatus hs)

end Sys2Proof.Machine
end
